-- ==== Sys2Proof/Word.lean ====
section
/-! DEFINITION. The fixed-width words of RSA-NTE's host port (spec rules R10, R60). -/

namespace Sys2Proof

/-- One 32-bit word of the host port; bit 0 is the least significant (R10, R60). -/
abbrev Word := BitVec 32

/-- A byte offset in the 8 KiB register window: 13 offset bits (R60). -/
abbrev Offset := BitVec 13

/-- One byte of a message, on the host's side only (R196). -/
abbrev Byte := BitVec 8

end Sys2Proof
end

