-- ==== Sys2Proof/Syntax.lean ====
section
/-! DEFINITION. The commands of RSA-NTE (rule R92) and the one command format, `C` (rule R90). -/

namespace Sys2Proof

/-- A command of the block: one constructor per row of the opcode map (R92).  A command has no operands of its own:
argument `i` is in `OPi` (R93). -/
inductive Instr where
  | modexp    -- 0x00000001, R111
  | trialdiv  -- 0x00000002, R133
  | rewrite   -- 0x00000003, R136
  | mrtest    -- 0x00000004, R141
  | isprime   -- 0x00000005, R146
  | egcd      -- 0x00000006, R171
  | invmod    -- 0x00000007, R178
deriving DecidableEq, Repr

/-- The two fields of the command format `C` (R90). -/
structure Fields where
  zero   : BitVec 28   -- bits [31:4], must be 0
  opcode : BitVec 4    -- bits [3:0], selects the command
deriving DecidableEq, Repr

/-- The fields of a command's word, by the opcode map (R92). -/
def Instr.fields : Instr → Fields
  | .modexp   => ⟨0, 0x1⟩
  | .trialdiv => ⟨0, 0x2⟩
  | .rewrite  => ⟨0, 0x3⟩
  | .mrtest   => ⟨0, 0x4⟩
  | .isprime  => ⟨0, 0x5⟩
  | .egcd     => ⟨0, 0x6⟩
  | .invmod   => ⟨0, 0x7⟩

end Sys2Proof
end

