-- ==== Sys2Proof/WellFormed.lean ====
section
/-! DEFINITION. Which fields of the format `C` are a legal command (rules R90, R94).  A command carries no operand, so
there is nothing else to check about one. -/

namespace Sys2Proof

/-- The first check: bits [31:4] must be 0 (R90). -/
def Fields.zeroOk (f : Fields) : Bool := f.zero == 0

/-- The second check: `OPCODE` is one of 0x1 to 0x7; 0x0 and 0x8 to 0xF are reserved (R94). -/
def Fields.opcodeOk (f : Fields) : Bool := 1 ≤ f.opcode.toNat && f.opcode.toNat ≤ 7

/-- Fields that some command has. -/
def Fields.wellFormed (f : Fields) : Bool := f.zeroOk && f.opcodeOk

/-- A command is well formed when its fields are. -/
abbrev WellFormed (i : Instr) : Prop := i.fields.wellFormed = true

end Sys2Proof
end

