-- ==== Sys2Proof/Decode.lean ====
section
/-! DEFINITION. Decoding a command word (rules R91, R94), total on every 32-bit word, and the encoder beside it. -/

namespace Sys2Proof

/-- Why a word is no command.  Both reasons become the architectural fault `ILLEGAL_CMD` (R91, R94). -/
inductive DecodeError where
  | zeroField   -- bits [31:4] are not all 0
  | opcode      -- `OPCODE` is 0x0 or 0x8 to 0xF
deriving DecidableEq, Repr

/-- The fields of a word: `ZERO` is bits [31:4], `OPCODE` bits [3:0] (R90). -/
def fieldsOf (w : Word) : Fields := ⟨w.extractLsb' 4 28, w.extractLsb' 0 4⟩

/-- The command an opcode selects (R91). -/
def decodeOpcode (op : BitVec 4) : Except DecodeError Instr :=
  match op.toNat with
  | 0x1 => .ok .modexp
  | 0x2 => .ok .trialdiv
  | 0x3 => .ok .rewrite
  | 0x4 => .ok .mrtest
  | 0x5 => .ok .isprime
  | 0x6 => .ok .egcd
  | 0x7 => .ok .invmod
  | _   => .error .opcode

/-- Decode a command word (R91): the `ZERO` field is looked at first. -/
def decode (w : Word) : Except DecodeError Instr :=
  if (fieldsOf w).zeroOk then decodeOpcode (fieldsOf w).opcode else .error .zeroField

/-- The word of a command: `ZERO` above `OPCODE` (R90, R92). -/
def encode (i : Instr) : Word := i.fields.zero ++ i.fields.opcode

/-- What the decoder reads from a word of `nbits` bits; a command word has 32 (R90), and there is only one word. -/
def decodeTableWord (nbits w : Nat) : Option Instr :=
  if nbits ≤ 32 ∧ w < 2 ^ nbits then (decode (BitVec.ofNat 32 w)).toOption else none

theorem decode_modexp   : decode 0x00000001 = .ok .modexp   := by decide
theorem decode_trialdiv : decode 0x00000002 = .ok .trialdiv := by decide
theorem decode_rewrite  : decode 0x00000003 = .ok .rewrite  := by decide
theorem decode_mrtest   : decode 0x00000004 = .ok .mrtest   := by decide
theorem decode_isprime  : decode 0x00000005 = .ok .isprime  := by decide
theorem decode_egcd     : decode 0x00000006 = .ok .egcd     := by decide
theorem decode_invmod   : decode 0x00000007 = .ok .invmod   := by decide

end Sys2Proof
end

