-- ==== Sys2Proof/Config.lean ====
section
/-! DEFINITION. What a build of RSA-NTE fixes (rule R8), and the model's one free value (rule R26). -/

namespace Sys2Proof.Config

/-- `LIMBS` of the default build, `W / 32` at `W = 2048` (R8).  The build a state belongs to is its field `limbs`. -/
def defaultLimbs : Nat := 64

/-- `MR_ROUNDS`: the Miller–Rabin rounds, fixed (R8). -/
def mrRounds : Nat := 128

/-- `N_SMALL_PRIMES`: the primes of trial division, fixed (R8). -/
def nSmallPrimes : Nat := 100

/-- FREE VALUE (R26, R61; U6 of spec/93): what the `n`-th read of a result register gives while `RV` is unspecified.
It has no body, so no proof can rest on a value of it (notes/assumptions/2.md). -/
opaque unspecifiedWord : Nat → Word

end Sys2Proof.Config
end

