-- ==== Sys2Proof/Machine/State.lean ====
section
/-! DEFINITION. The state of RSA-NTE (rules R20 to R49), the pending inputs from outside it (rule R16), and the reasons a
step can stop. -/

namespace Sys2Proof.Machine

/-! ### Why a step can stop -/

/-- The machine stops with a fault.  Nothing does: the block's own fault (R210 to R219) is a next state (`raiseFault`), no
host access faults (R67, R212), and what the spec gives no meaning is refused. -/
inductive Fault where
deriving DecidableEq, Repr

/-- No meaning is given. -/
inductive Refusal where
  /-- Raised by an arm of `exec` for a command without a meaning; no arm does so.  Safe. -/
  | notModelled (mnemonic : String)
  /-- Raised where the random sampler answers outside the range it was asked for (R78; U7 of spec/93: "the block's
  behaviour is not defined").  Safe for claims about the block alone. -/
  | samplerOutOfRange
  /-- Raised by `hostRead` and `hostWrite` on an offset that is no multiple of 4: such an access does not exist at the
  port (R69; the treatment of U12 in spec/93).  Safe: what a bridge does with one is platform matter. -/
  | misalignedAccess
deriving DecidableEq, Repr

/-! ### Registers -/

/-- A signed big register, stored as sign and magnitude (R24); `sign` is its bit of `RSIGN`. -/
structure SignMag where
  sign : Bool
  mag  : Nat
deriving DecidableEq, Repr

/-- The result-validity mark `RV` (R26). -/
inductive Validity where
  | valid
  | unspecified
deriving DecidableEq, Repr

/-- The values of `RTAG.TAG`; the code 3 is never produced (R36). -/
inductive Tag where
  | neg        -- 0
  | pos        -- 1
  | undecided  -- 2
deriving DecidableEq, Repr

/-- The values of `ERR.CODE`; the codes 0x06 to 0xFF are never produced (R35, R211). -/
inductive Cause where
  | noFault            -- 0x00
  | illegalCmd         -- 0x01
  | modulusZero        -- 0x02
  | rewriteZero        -- 0x03
  | candidateDomain    -- 0x04
  | invmodModulusZero  -- 0x05
deriving DecidableEq, Repr

/-- `CTRL`: the interrupt enables (R32).  `SRST` is an action and holds nothing; the reserved bits read 0. -/
structure Ctrl where
  ieDone  : Bool
  ieFault : Bool
deriving DecidableEq, Repr

/-- `STATUS` (R33).  The reserved bits read 0. -/
structure Status where
  busy   : Bool
  done   : Bool
  fault  : Bool
  accerr : Bool
deriving DecidableEq, Repr

/-! ### The sequencer's working variables (R42), named as in each command's pseudocode -/

/-- The variables of `ModExp` (R111). -/
structure ExpVars where
  result : Nat
  b : Nat
  e : Nat
deriving DecidableEq, Repr

/-- The variables of `Rewrite` (R135). -/
structure RewriteVars where
  s : Nat
  d : Nat
deriving DecidableEq, Repr

/-- The variables of `ExtGcd` (R171).  `q` is the quotient of the last iteration; before the first one the pseudocode has
assigned it nothing. -/
structure EgcdVars where
  oldR : Nat
  r    : Nat
  oldS : Int
  s    : Int
  oldT : Int
  t    : Int
  q    : Option Nat
deriving DecidableEq, Repr

/-- The variables of `InvMod` (R177): the chains of `ExtGcd` without the `t` chain. -/
structure InvVars where
  oldR : Nat
  r    : Nat
  oldS : Int
  s    : Int
  q    : Option Nat
deriving DecidableEq, Repr

/-- Where the Miller–Rabin loop stands (R139, R140). -/
inductive MrStage where
  /-- decomposing `candidate - 1` -/
  | rewrite (v : RewriteVars)
  /-- at the test of the round loop, before the round's draw -/
  | draw (round : Nat) (v : RewriteVars)
  /-- computing `x = a^d mod candidate` -/
  | power (round : Nat) (v : RewriteVars) (a : Nat) (p : ExpVars)
  /-- the inner loop, after `j` squarings -/
  | square (round : Nat) (v : RewriteVars) (a : Nat) (j : Nat) (x : Nat)
deriving DecidableEq, Repr

/-- The working variables while a command is in progress (R42). -/
inductive Work where
  /-- accepted, nothing done yet: the command word is still to be decoded (R41, R91) -/
  | accepted
  | modexp (v : ExpVars)
  /-- trial division, at the `k`-th small prime (`TRIALDIV`, `ISPRIME`; R132) -/
  | trial (k : Nat)
  | rewrite (v : RewriteVars)
  | millerRabin (m : MrStage)
  | egcd (v : EgcdVars)
  | invmod (v : InvVars)
deriving DecidableEq, Repr

/-- A request `RandRange(lo, hi)` on the sampler port (R13, R78). -/
structure Request where
  lo : Nat
  hi : Nat
deriving DecidableEq, Repr

/-! ### The world outside the block: the model's own fields, no state of the spec's (notes/assumptions/1.md) -/

/-- One access of the host port: always one whole word (R60). -/
inductive HostAccess where
  | read (off : Offset)
  | write (off : Offset) (v : Word)
deriving DecidableEq, Repr

/-- What happens next, and to whom the next step belongs (R16, R71). -/
inductive Event where
  /-- the host makes one access -/
  | host (a : HostAccess)
  /-- the reset input `rst` is asserted, or released (R240) -/
  | rst (asserted : Bool)
  /-- the sampler answers the `number`-th request the block has issued, counted from 1 (R78) -/
  | answer (number v : Nat)
  /-- the sequencer moves, as far as it can go: to completion, to a fault, or to a request not answered (R250) -/
  | run
  /-- the sequencer moves by one loop iteration of its command's pseudocode -/
  | tick
deriving DecidableEq, Repr

/-- The world outside the block, as plain data. -/
structure Env where
  /-- the events still to come, in order (R71) -/
  agenda : List Event
  /-- the answers the sampler will give at once, in order, when it is asked (R13, R48) -/
  script : List Nat
  /-- every request the block has issued, newest first (R78: the sequence of requests is observable) -/
  asked : List Request
  /-- what the host's reads have returned, newest first -/
  observed : List (Offset × Word)
  /-- how many unspecified words have been drawn (R26) -/
  fresh : Nat
  /-- whether the reset input `rst` is asserted (R240) -/
  rstAsserted : Bool
deriving DecidableEq, Repr

/-! ### The state -/

/-- The state of the block (R20, R49), the build parameter it was made with (R8), and the world outside. -/
structure State where
  /-- `LIMBS = W / 32`: the build parameter (R8); no step changes it -/
  limbs   : Nat
  /-- operand registers (R21) -/
  op0     : Nat
  op1     : Nat
  op2     : Nat
  /-- the unsigned result register (R22) -/
  res0    : Nat
  /-- the signed result registers with their signs, the register `RSIGN` (R23, R24, R37) -/
  res1    : SignMag
  res2    : SignMag
  /-- `RCNT` (R25, R38) -/
  rcnt    : Nat
  /-- `RTAG` (R36) -/
  rtag    : Tag
  /-- `RV` (R26) -/
  rv      : Validity
  /-- `CTRL` (R32) -/
  ctrl    : Ctrl
  /-- `STATUS` (R33) -/
  status  : Status
  /-- `CMD` (R34) -/
  cmd     : Word
  /-- `ERR` (R35) -/
  err     : Cause
  /-- the working variables (R42) -/
  work    : Option Work
  /-- the outstanding random request (R46) -/
  request : Option Request
  /-- the world outside -/
  env     : Env
deriving DecidableEq, Repr

/-- `W`, the width in bits of every big register (R8). -/
abbrev State.width (s : State) : Nat := 32 * s.limbs

/-- The machine right after reset: the table of R47, at the default build, with nothing pending outside. -/
def State.reset : State where
  limbs   := Config.defaultLimbs
  op0     := 0
  op1     := 0
  op2     := 0
  res0    := 0
  res1    := ⟨false, 0⟩
  res2    := ⟨false, 0⟩
  rcnt    := 0
  rtag    := .neg
  rv      := .valid
  ctrl    := ⟨false, false⟩
  status  := ⟨false, false, false, false⟩
  cmd     := 0
  err     := .noFault
  work    := none
  request := none
  env     := ⟨[], [], [], [], 0, false⟩

/-- The three outcomes of a step of this machine. -/
abbrev StepResult := Host.Outcome State Fault Refusal

end Sys2Proof.Machine
end

