-- ==== Sys2Proof/Machine/Flags.lean ====
section
/-! DEFINITION. The flags and the 32-bit registers as words (rules R28 to R38), the phase (rule R40) and the interrupt
output (rule R45). -/

namespace Sys2Proof.Machine

/-- The sequencer's phase (R40). -/
inductive Phase where
  | idle
  | busy
  | faulted
deriving DecidableEq, Repr

/-- The phase as it is read from `STATUS` (R40). -/
def Status.phase (st : Status) : Phase :=
  if st.busy then .busy else if st.fault then .faulted else .idle

/-- `irq` (R45, R220): a pure function of the state. -/
def State.irq (s : State) : Bool :=
  (s.status.done && s.ctrl.ieDone) || (s.status.fault && s.ctrl.ieFault)

/-- The code of `RTAG.TAG` (R36). -/
def Tag.code : Tag → BitVec 2
  | .neg => 0
  | .pos => 1
  | .undecided => 2

/-- The code of `ERR.CODE` (R211). -/
def Cause.code : Cause → BitVec 8
  | .noFault => 0x00
  | .illegalCmd => 0x01
  | .modulusZero => 0x02
  | .rewriteZero => 0x03
  | .candidateDomain => 0x04
  | .invmodModulusZero => 0x05

/-- `ID` (R30). -/
def idWord : Word := 0x52534131

/-- `PARAM` (R31): `N_SMALL_PRIMES`, `MR_ROUNDS`, `LIMBS`. -/
def paramWord (limbs : Nat) : Word :=
  BitVec.ofNat 8 Config.nSmallPrimes ++ BitVec.ofNat 8 Config.mrRounds ++ BitVec.ofNat 16 limbs

/-- `CTRL` as it is read: `SRST` and the reserved bits read 0 (R32). -/
def Ctrl.word (c : Ctrl) : Word := 0#30 ++ BitVec.ofBool c.ieFault ++ BitVec.ofBool c.ieDone

/-- The enables a write to `CTRL` stores: bits [1:0] (R32). -/
def Ctrl.ofWord (v : Word) : Ctrl := ⟨v.getLsbD 0, v.getLsbD 1⟩

/-- `STATUS` as it is read (R33). -/
def Status.word (st : Status) : Word :=
  0#28 ++ BitVec.ofBool st.accerr ++ BitVec.ofBool st.fault ++ BitVec.ofBool st.done ++ BitVec.ofBool st.busy

/-- `STATUS` after a write: `DONE` and `ACCERR` are cleared by a 1, nothing else happens (R33). -/
def Status.writeOneToClear (st : Status) (v : Word) : Status :=
  { st with done := st.done && !v.getLsbD 1, accerr := st.accerr && !v.getLsbD 3 }

/-- `RTAG` as it is read (R36). -/
def Tag.word (t : Tag) : Word := 0#30 ++ t.code

/-- `ERR` as it is read (R35). -/
def Cause.word (c : Cause) : Word := 0#24 ++ c.code

/-- `RSIGN` as it is read: `S1`, `S2` (R37). -/
def rsignWord (r1 r2 : SignMag) : Word := 0#30 ++ BitVec.ofBool r2.sign ++ BitVec.ofBool r1.sign

/-- Sign and magnitude of an integer; zero has sign 0 (R24). -/
def SignMag.ofInt (v : Int) : SignMag := ⟨decide (v < 0), v.natAbs⟩

/-- The value of a signed register (R24). -/
def SignMag.toInt (r : SignMag) : Int := if r.sign then -(r.mag : Int) else (r.mag : Int)

end Sys2Proof.Machine
end

