-- ==== Sys2Proof/Machine/Operands.lean ====
section
/-! DEFINITION. What an offset of the register window names (rules R29, R39, R65) and the limbs of a big register
(rules R63, R64). -/

namespace Sys2Proof.Machine

/-- The six big registers with a window. -/
inductive BigReg where
  | op0
  | op1
  | op2
  | res0
  | res1
  | res2
deriving DecidableEq, Repr

/-- The base offset of a big register's window (R29, R65). -/
def BigReg.base : BigReg → Nat
  | .op0  => 0x0400
  | .op1  => 0x0800
  | .op2  => 0x0C00
  | .res0 => 0x1000
  | .res1 => 0x1400
  | .res2 => 0x1800

/-- Whether the register is a result register, read-only and subject to `RV` (R22, R23, R26). -/
def BigReg.isResult : BigReg → Bool
  | .op0 | .op1 | .op2 => false
  | .res0 | .res1 | .res2 => true

/-- What a word offset names. -/
inductive Target where
  | id
  | param
  | ctrl
  | status
  | cmd
  | rtag
  | err
  | rcnt
  | rsign
  | limb (x : BigReg) (k : Nat)
  | reserved
deriving DecidableEq, Repr

/-- The 32-bit register at a byte offset below 0x0400 (R29); the others there are reserved (R39). -/
def smallTarget (n : Nat) : Target :=
  match n with
  | 0x000 => .id
  | 0x004 => .param
  | 0x008 => .ctrl
  | 0x00C => .status
  | 0x010 => .cmd
  | 0x014 => .rtag
  | 0x018 => .err
  | 0x01C => .rcnt
  | 0x020 => .rsign
  | _     => .reserved

/-- The big register whose window is the `p`-th block of 0x400 bytes (R65). -/
def windowAt (p : Nat) : Option BigReg :=
  match p with
  | 1 => some .op0
  | 2 => some .op1
  | 3 => some .op2
  | 4 => some .res0
  | 5 => some .res1
  | 6 => some .res2
  | _ => none

/-- What an offset names in a build of `limbs` limbs: words at limb index `≥ LIMBS` are reserved (R39, R65). -/
def target (limbs : Nat) (off : Offset) : Target :=
  let n := off.toNat
  if n < 0x400 then smallTarget n
  else match windowAt (n / 0x400) with
    | some x => if n % 0x400 / 4 < limbs then .limb x (n % 0x400 / 4) else .reserved
    | none => .reserved

/-- Only offsets that are a multiple of 4 exist at the port (R60, R69). -/
def aligned (off : Offset) : Bool := off.toNat % 4 == 0

/-- The offset of limb `k` of a big register (R63). -/
def BigReg.offset (x : BigReg) (k : Nat) : Offset := BitVec.ofNat 13 (x.base + 4 * k)

/-- Limb `k` of a value: its bits `[32k + 31 : 32k]` (R63). -/
def limbOf (v k : Nat) : Word := BitVec.ofNat 32 (v / 2 ^ (32 * k))

/-- A value with limb `k` replaced (R64). -/
def setLimb (v k : Nat) (w : Word) : Nat :=
  v - (limbOf v k).toNat * 2 ^ (32 * k) + w.toNat * 2 ^ (32 * k)

/-- The number a big register's window shows; of a signed register, the magnitude (R24, R63). -/
def State.big (s : State) : BigReg → Nat
  | .op0  => s.op0
  | .op1  => s.op1
  | .op2  => s.op2
  | .res0 => s.res0
  | .res1 => s.res1.mag
  | .res2 => s.res2.mag

/-- A state with limb `k` of an operand register replaced (R64); the result registers are read-only (R29). -/
def State.setOperandLimb (s : State) (x : BigReg) (k : Nat) (w : Word) : State :=
  match x with
  | .op0 => { s with op0 := setLimb s.op0 k w }
  | .op1 => { s with op1 := setLimb s.op1 k w }
  | .op2 => { s with op2 := setLimb s.op2 k w }
  | .res0 | .res1 | .res2 => s

/-- The targets that read as unspecified while `RV` says so (R26, R61). -/
def Target.isResult : Target → Bool
  | .rtag | .rcnt | .rsign => true
  | .limb x _ => x.isResult
  | .id | .param | .ctrl | .status | .cmd | .err | .reserved => false

/-- The value a target holds (R29 to R39, R63). -/
def State.targetValue (s : State) : Target → Word
  | .id       => idWord
  | .param    => paramWord s.limbs
  | .ctrl     => s.ctrl.word
  | .status   => s.status.word
  | .cmd      => s.cmd
  | .rtag     => s.rtag.word
  | .err      => s.err.word
  | .rcnt     => BitVec.ofNat 32 s.rcnt
  | .rsign    => rsignWord s.res1 s.res2
  | .limb x k => limbOf (s.big x) k
  | .reserved => 0

end Sys2Proof.Machine
end

