-- ==== Sys2Proof/Machine/Ops.lean ====
section
/-! DEFINITION. The named operations over the state: completion (R44), the fault and the way out of it (R214, R218),
acceptance (R41), the host port (R61, R62) and the sampler port (R78). -/

namespace Sys2Proof.Machine

/-! ### The ends of a command -/

/-- What a command's pseudocode assigned; a register it did not assign gets 0 (R44). -/
structure Results where
  res0 : Nat := 0
  res1 : Int := 0
  res2 : Int := 0
  rcnt : Nat := 0
  tag  : Tag
deriving DecidableEq, Repr

/-- `complete(tag)` (R44): one atomic step.  The working variables are discarded (R42). -/
def complete (r : Results) (s : State) : State :=
  { s with
    res0 := r.res0
    res1 := SignMag.ofInt r.res1
    res2 := SignMag.ofInt r.res2
    rcnt := r.rcnt
    rtag := r.tag
    rv := .valid
    status := { s.status with busy := false, done := true }
    work := none
    request := none }

/-- `raise Fault(code)`: the fault entry (R214), the block's only exception. -/
def raiseFault (code : Cause) (s : State) : State :=
  { s with
    err := code
    status := { s.status with busy := false, fault := true }
    work := none
    request := none }

/-- Reset, hard or soft (R240, R241, R47), the only way out of a fault (R218).  The build and the world outside are not
touched (R242). -/
def resetBlock (s : State) : State := { State.reset with limbs := s.limbs, env := s.env }

/-- The state with the reset input at this level. -/
def State.withRst (s : State) (asserted : Bool) : State := { s with env := { s.env with rstAsserted := asserted } }

/-- While `rst` is asserted every piece of state has its reset value, whatever happens (R240). -/
def holdInReset (s : State) : State := if s.env.rstAsserted then resetBlock s else s

/-! ### The host port -/

/-- A write that is dropped (R41, R67). -/
def dropWrite (s : State) : State := { s with status := { s.status with accerr := true } }

/-- Acceptance of a command word in phase `IDLE` (R41). -/
def accept (w : Word) (s : State) : State :=
  { s with
    cmd := w
    status := { s.status with done := false, busy := true }
    rv := .unspecified
    work := some .accepted }

/-- A host write to `CMD` (R41). -/
def writeCmd (w : Word) (s : State) : State :=
  match s.status.phase with
  | .idle => accept w s
  | .busy | .faulted => dropWrite s

/-- A host write to a limb: of an operand register in `IDLE` (R41, R64), else dropped; of a result register, ignored
without a flag (R67). -/
def writeLimb (x : BigReg) (k : Nat) (w : Word) (s : State) : State :=
  if x.isResult then s
  else match s.status.phase with
    | .idle => s.setOperandLimb x k w
    | .busy | .faulted => dropWrite s

/-- A host write to `CTRL` (R32): `SRST` resets, and the other bits are then discarded. -/
def writeCtrl (w : Word) (s : State) : State :=
  if w.getLsbD 31 then resetBlock s else { s with ctrl := Ctrl.ofWord w }

/-- A host write to `STATUS` (R33). -/
def writeStatus (w : Word) (s : State) : State := { s with status := s.status.writeOneToClear w }

/-- A host write to what an offset names (R62). -/
def writeTarget (t : Target) (w : Word) (s : State) : State :=
  match t with
  | .ctrl => writeCtrl w s
  | .status => writeStatus w s
  | .cmd => writeCmd w s
  | .limb x k => writeLimb x k w s
  | .id | .param | .rtag | .err | .rcnt | .rsign | .reserved => s

/-- `HostWrite(off, v)` (R62). -/
def hostWrite (off : Offset) (w : Word) (s : State) : StepResult :=
  if aligned off then .next (writeTarget (target s.limbs off) w s) else .refused .misalignedAccess

/-- Whether a read of this offset gives an unspecified word (R26, R61). -/
def State.readsUnspecified (s : State) (off : Offset) : Bool :=
  (target s.limbs off).isResult && s.rv == .unspecified

/-- The word `HostRead(off)` returns (R61). -/
def State.readValue (s : State) (off : Offset) : Word :=
  if s.readsUnspecified off then Config.unspecifiedWord s.env.fresh else s.targetValue (target s.limbs off)

/-- The state in which `n` more unspecified words have been drawn. -/
def State.afterDrawn (s : State) (n : Nat) : State := { s with env := { s.env with fresh := s.env.fresh + n } }

/-- `HostRead(off)` (R61): no register changes; the host has seen the word, and a fresh word is used up if it was an
unspecified one. -/
def hostRead (off : Offset) (s : State) : StepResult :=
  if aligned off then
    .next { s with env := { s.env with
      observed := (off, s.readValue off) :: s.env.observed
      fresh := s.env.fresh + (s.readsUnspecified off).toNat } }
  else .refused .misalignedAccess

/-- One access of the host port (R60). -/
def hostAccess (a : HostAccess) (s : State) : StepResult :=
  match a with
  | .read off => hostRead off s
  | .write off w => hostWrite off w s

/-- The state with other events to come. -/
def State.withAgenda (s : State) (agenda : List Event) : State := { s with env := { s.env with agenda := agenda } }

/-- The state in which the word `w` has just been accepted and the sequencer moves next.  Only the phase `IDLE` accepts
(R41), so a fault, a command in progress or an asserted `rst` is cleared first. -/
def placeCommand (w : Word) (s : State) : State :=
  (accept w { s.withRst false with
    status := { s.status with fault := false }, err := .noFault, request := none }).withAgenda (.run :: s.env.agenda)

end Sys2Proof.Machine
end

