-- ==== Sys2Proof/Machine/Units.lean ====
section
/-! DEFINITION. The external units RSA-NTE calls (rules R12, R75: pure, exact, total functions on integers) and the
constant table of small primes (rules R14, R131). -/

namespace Sys2Proof.Machine

/-- `BigAdd` (R12). -/
def bigAdd (a b : Int) : Int := a + b

/-- `BigSub` on integers (R12). -/
def bigSub (a b : Int) : Int := a - b

/-- `BigSub` where the rule shows `b ≤ a`, so that the result is a `Nat` (R12, R172). -/
def bigSubNat (a b : Nat) : Nat := a - b

/-- `BigMul` (R12), on integers. -/
def bigMul (a b : Int) : Int := a * b

/-- `BigMul` on naturals (R12). -/
def bigMulNat (a b : Nat) : Nat := a * b

/-- `BigDivRem` (R12).  It takes a proof that the divisor is not 0, so that a call with 0 cannot be written (R172; the
treatment of U9 in spec/93). -/
def bigDivRem (a b : Nat) (_hb : 0 < b) : Nat × Nat := (a / b, a % b)

/-- `BigDiv` (R12). -/
def bigDiv (a b : Nat) (hb : 0 < b) : Nat := (bigDivRem a b hb).1

/-- `BigRem` (R12). -/
def bigRem (a b : Nat) (hb : 0 < b) : Nat := (bigDivRem a b hb).2

/-- `IsEven` (R12). -/
def isEven (a : Nat) : Bool := a % 2 == 0

/-- `IsOdd` (R12). -/
def isOdd (a : Nat) : Bool := a % 2 == 1

/-- `Shr1` (R12). -/
def shr1 (a : Nat) : Nat := a / 2

/-- `MulMod` (R12): the whole product, then one remainder. -/
def mulMod (a b m : Nat) (hm : 0 < m) : Nat := bigRem (bigMulNat a b) m hm

/-- What is not even is not 0: how the Miller–Rabin engine knows its modulus is a divisor (R137, R140). -/
theorem pos_of_not_even {a : Nat} (h : ¬ isEven a = true) : 0 < a := by
  rcases Nat.eq_zero_or_pos a with rfl | ha
  · exact absurd rfl h
  · exact ha

/-- A loop of the pseudocode: `next` is the loop test and the body (`none` when the loop ends).  `fuel` bounds the
iterations; every caller gives a bound its loop cannot reach (R113, R136, R173). -/
def loop {α : Type} (next : α → Option α) : Nat → α → α
  | 0, v => v
  | fuel + 1, v =>
    match next v with
    | none => v
    | some v' => loop next fuel v'

/-- `SMALL_PRIME[0..99]`, the table of R131, row by row. -/
def smallPrimes : List Nat :=
  [2, 3, 5, 7, 11, 13, 17, 19, 23, 29] ++
  [31, 37, 41, 43, 47, 53, 59, 61, 67, 71] ++
  [73, 79, 83, 89, 97, 101, 103, 107, 109, 113] ++
  [127, 131, 137, 139, 149, 151, 157, 163, 167, 173] ++
  [179, 181, 191, 193, 197, 199, 211, 223, 227, 229] ++
  [233, 239, 241, 251, 257, 263, 269, 271, 277, 281] ++
  [283, 293, 307, 311, 313, 317, 331, 337, 347, 349] ++
  [353, 359, 367, 373, 379, 383, 389, 397, 401, 409] ++
  [419, 421, 431, 433, 439, 443, 449, 457, 461, 463] ++
  [467, 479, 487, 491, 499, 503, 509, 521, 523, 541]

/-- No small prime is 0 (R131): trial division divides by them (R132). -/
theorem smallPrimes_pos {k : Nat} (h : k < smallPrimes.length) : 0 < smallPrimes[k] :=
  (by decide : ∀ p ∈ smallPrimes, 0 < p) _ (List.getElem_mem h)

end Sys2Proof.Machine
end

