-- ==== Sys2Proof/Machine/Euclid.lean ====
section
/-! DEFINITION. The extended Euclidean engine: `EGCD`, `INVMOD` (rules R170 to R184). -/

namespace Sys2Proof.Machine

/-- The start of `ExtGcd(a, b)` (R171). -/
def egcdInit (a b : Nat) : EgcdVars := ⟨a, b, 1, 0, 0, 1, none⟩

/-- One iteration of `ExtGcd`'s loop (R171): the simultaneous assignments use the old values (R11). -/
def egcdNext (v : EgcdVars) : Option EgcdVars :=
  if h : v.r = 0 then none
  else
    let q := bigDiv v.oldR v.r (Nat.pos_of_ne_zero h)
    some
      { oldR := v.r
        r := bigSubNat v.oldR (bigMulNat q v.r)
        oldS := v.s
        s := bigSub v.oldS (bigMul q v.s)
        oldT := v.t
        t := bigSub v.oldT (bigMul q v.t)
        q := some q }

/-- The rest of `ExtGcd`'s loop: `r` decreases, so `r` iterations are enough (R173). -/
def egcdLoop (v : EgcdVars) : EgcdVars := loop egcdNext v.r v

/-- Where `EGCD` stands. -/
def egcdVars (s : State) : EgcdVars :=
  match s.work with
  | some (.egcd v) => v
  | _ => egcdInit s.op0 s.op1

/-- What `EGCD` delivers: the gcd and the two coefficients (R171). -/
def egcdResults (v : EgcdVars) : Results := { res0 := v.oldR, res1 := v.oldS, res2 := v.oldT, tag := .pos }

/-- `EGCD` (R171), from where it stands to its end; it is total. -/
def execEgcd (s : State) : StepResult := .next (complete (egcdResults (egcdLoop (egcdVars s))) s)

/-- One iteration of `EGCD`. -/
def tickEgcd (s : State) : StepResult :=
  match egcdNext (egcdVars s) with
  | some v => .next { s with work := some (.egcd v) }
  | none => .next (complete (egcdResults (egcdVars s)) s)

/-- The start of `InvMod(a, n)` (R177): the chains of `ExtGcd(a, n)` without the `t` chain (conflict C7). -/
def invInit (a n : Nat) : InvVars := ⟨a, n, 1, 0, none⟩

/-- One iteration of `InvMod`'s loop (R177). -/
def invNext (v : InvVars) : Option InvVars :=
  if h : v.r = 0 then none
  else
    let q := bigDiv v.oldR v.r (Nat.pos_of_ne_zero h)
    some
      { oldR := v.r
        r := bigSubNat v.oldR (bigMulNat q v.r)
        oldS := v.s
        s := bigSub v.oldS (bigMul q v.s)
        q := some q }

/-- The rest of `InvMod`'s loop (R177). -/
def invLoop (v : InvVars) : InvVars := loop invNext v.r v

/-- The raw coefficient, made non-negative by one addition of `n` (R177, R180). -/
def normalise (n : Nat) (coefficient : Int) : Nat :=
  (if coefficient < 0 then bigAdd coefficient n else coefficient).toNat

/-- `InvMod` once its loop is over (R177): `none` is "no inverse". -/
def invVerdict (n : Nat) (v : InvVars) : Option Nat :=
  if 1 < v.oldR then none else some (normalise n v.oldS)

/-- What `INVMOD` delivers (R178): "no inverse" is a completion with tag `NEG`, not a fault (R222). -/
def invResults (verdict : Option Nat) : Results :=
  match verdict with
  | none => { tag := .neg }
  | some x => { res0 := x, tag := .pos }

/-- Where `INVMOD` stands. -/
def invVars (s : State) : InvVars :=
  match s.work with
  | some (.invmod v) => v
  | _ => invInit s.op0 s.op1

/-- `INVMOD` (R178), from where it stands to its end. -/
def execInvmod (s : State) : StepResult :=
  if s.op1 = 0 then .next (raiseFault .invmodModulusZero s)
  else .next (complete (invResults (invVerdict s.op1 (invLoop (invVars s)))) s)

/-- One iteration of `INVMOD`. -/
def tickInvmod (s : State) : StepResult :=
  if s.op1 = 0 then .next (raiseFault .invmodModulusZero s)
  else match invNext (invVars s) with
    | some v => .next { s with work := some (.invmod v) }
    | none => .next (complete (invResults (invVerdict s.op1 (invVars s))) s)

end Sys2Proof.Machine
end

