-- ==== Sys2Proof/Machine/Modexp.lean ====
section
/-! DEFINITION. The modular exponentiation engine: `MODEXP` (rules R110 to R115). -/

namespace Sys2Proof.Machine

/-- The start of `ModExp`: `result` is `1 mod modulus` (R111, R114; conflict C1).  `hm` is the precondition
`modulus > 0`. -/
def expInit (base exponent modulus : Nat) (hm : 0 < modulus) : ExpVars := ⟨bigRem 1 modulus hm, base, exponent⟩

/-- One iteration of `ModExp`'s loop (R111). -/
def expNext (modulus : Nat) (hm : 0 < modulus) (v : ExpVars) : Option ExpVars :=
  if v.e = 0 then none
  else some
    { result := if isOdd v.e then mulMod v.result v.b modulus hm else v.result
      b := mulMod v.b v.b modulus hm
      e := shr1 v.e }

/-- The rest of `ModExp`'s loop: `e` at least halves, so `e` iterations are more than enough (R113). -/
def expLoop (modulus : Nat) (hm : 0 < modulus) (v : ExpVars) : ExpVars := loop (expNext modulus hm) v.e v

/-- `ModExp(base, exponent, modulus)` (R111). -/
def modExp (base exponent modulus : Nat) (hm : 0 < modulus) : Nat :=
  (expLoop modulus hm (expInit base exponent modulus hm)).result

/-- Where `MODEXP` stands: its working variables, or their start. -/
def modexpVars (s : State) (hm : 0 < s.op2) : ExpVars :=
  match s.work with
  | some (.modexp v) => v
  | _ => expInit s.op0 s.op1 s.op2 hm

/-- What `MODEXP` delivers: the result in `RES0` (R111). -/
def modexpResults (v : ExpVars) : Results := { res0 := v.result, tag := .pos }

/-- `MODEXP` (R111), from where it stands to its end. -/
def execModexp (s : State) : StepResult :=
  if h : s.op2 = 0 then .next (raiseFault .modulusZero s)
  else
    let hm := Nat.pos_of_ne_zero h
    .next (complete (modexpResults (expLoop s.op2 hm (modexpVars s hm))) s)

/-- One iteration of `MODEXP` (R111, R42). -/
def tickModexp (s : State) : StepResult :=
  if h : s.op2 = 0 then .next (raiseFault .modulusZero s)
  else
    let hm := Nat.pos_of_ne_zero h
    match expNext s.op2 hm (modexpVars s hm) with
    | some v => .next { s with work := some (.modexp v) }
    | none => .next (complete (modexpResults (modexpVars s hm)) s)

end Sys2Proof.Machine
end

