-- ==== Sys2Proof/Machine/Primality.lean ====
section
/-! DEFINITION. The primality controller: `TRIALDIV`, `REWRITE`, `MRTEST`, `ISPRIME` (rules R130 to R148). -/

namespace Sys2Proof.Machine

/-! ### Trial division -/

/-- The verdicts of trial division (R132). -/
inductive TrialVerdict where
  | accept
  | reject
  | undecided
deriving DecidableEq, Repr

/-- One iteration of `TrialDiv`'s loop at index `k`: `none` when it ends there (R132). -/
def trialNext (c k : Nat) : Option Nat :=
  if h : k < smallPrimes.length then
    if c = smallPrimes[k] ∨ bigRem c smallPrimes[k] (smallPrimes_pos h) = 0 then none else some (k + 1)
  else none

/-- The verdict where the loop ended (R132): equality is looked at before divisibility. -/
def trialVerdictAt (c k : Nat) : TrialVerdict :=
  if h : k < smallPrimes.length then
    if c = smallPrimes[k] then .accept
    else if bigRem c smallPrimes[k] (smallPrimes_pos h) = 0 then .reject
    else .undecided
  else .undecided

/-- The index at which `TrialDiv`, now at `k`, ends. -/
def trialEnd (c k : Nat) : Nat := loop (trialNext c) (Config.nSmallPrimes - k) k

/-- `TrialDiv(c)` (R132). -/
def trialDiv (c : Nat) : TrialVerdict := trialVerdictAt c (trialEnd c 0)

/-- The tag of a verdict of `TRIALDIV` (R133). -/
def TrialVerdict.tag : TrialVerdict → Tag
  | .accept => .pos
  | .reject => .neg
  | .undecided => .undecided

/-- The index at which trial division stands. -/
def trialIndex (s : State) : Nat :=
  match s.work with
  | some (.trial k) => k
  | _ => 0

/-- `TRIALDIV` (R133), from where it stands to its end. -/
def execTrialdiv (s : State) : StepResult :=
  .next (complete { tag := (trialVerdictAt s.op0 (trialEnd s.op0 (trialIndex s))).tag } s)

/-- One iteration of `TRIALDIV`. -/
def tickTrialdiv (s : State) : StepResult :=
  match trialNext s.op0 (trialIndex s) with
  | some k => .next { s with work := some (.trial k) }
  | none => .next (complete { tag := (trialVerdictAt s.op0 (trialIndex s)).tag } s)

/-! ### The rewrite decomposition -/

/-- The start of `Rewrite(v)` (R135). -/
def rewriteInit (v : Nat) : RewriteVars := ⟨0, v⟩

/-- One iteration of `Rewrite`'s loop (R135). -/
def rewriteNext (v : RewriteVars) : Option RewriteVars :=
  if isEven v.d then some ⟨v.s + 1, shr1 v.d⟩ else none

/-- The rest of `Rewrite`'s loop: a non-zero `d` halves at each iteration (R136).  No caller has `d = 0`. -/
def rewriteLoop (v : RewriteVars) : RewriteVars := loop rewriteNext v.d v

/-- `Rewrite(v)` (R135). -/
def rewriteOf (v : Nat) : RewriteVars := rewriteLoop (rewriteInit v)

/-- Where `REWRITE` stands. -/
def rewriteVars (s : State) : RewriteVars :=
  match s.work with
  | some (.rewrite v) => v
  | _ => rewriteInit s.op0

/-- What `REWRITE` delivers: `d` in `RES0`, `s` in `RCNT` (R136). -/
def rewriteResults (v : RewriteVars) : Results := { res0 := v.d, rcnt := v.s, tag := .pos }

/-- `REWRITE` (R136), from where it stands to its end. -/
def execRewrite (s : State) : StepResult :=
  if s.op0 = 0 then .next (raiseFault .rewriteZero s)
  else .next (complete (rewriteResults (rewriteLoop (rewriteVars s))) s)

/-- One iteration of `REWRITE`. -/
def tickRewrite (s : State) : StepResult :=
  if s.op0 = 0 then .next (raiseFault .rewriteZero s)
  else match rewriteNext (rewriteVars s) with
    | some v => .next { s with work := some (.rewrite v) }
    | none => .next (complete (rewriteResults (rewriteVars s)) s)

/-! ### One Miller–Rabin round -/

/-- The verdict of one round (R139). -/
inductive RoundVerdict where
  | pass
  | composite
deriving DecidableEq, Repr

/-- The inner loop with `left` squarings still allowed (R139). -/
def mrSquares (c : Nat) (hc : 0 < c) : Nat → Nat → RoundVerdict
  | 0, _ => .composite
  | left + 1, x =>
    let y := mulMod x x c hc
    if y = 1 then .composite else if y = bigSubNat c 1 then .pass else mrSquares c hc left y

/-- A round once `x = a^d mod c` is known (R139). -/
def mrJudge (c : Nat) (hc : 0 < c) (v : RewriteVars) (x : Nat) : RoundVerdict :=
  if x = 1 ∨ x = bigSubNat c 1 then .pass else mrSquares c hc (v.s - 1) x

/-- `MrRound(c, s, d, a)` (R139). -/
def mrRound (c : Nat) (hc : 0 < c) (v : RewriteVars) (a : Nat) : RoundVerdict := mrJudge c hc v (modExp a v.d c hc)

/-! ### The sampler port -/

/-- The request of a round: `RandRange(2, candidate - 2)` (R140, R142). -/
def mrRequest (c : Nat) : Request := ⟨2, bigSubNat c 2⟩

/-- Whether the sampler's answer is one the spec allows (R78). -/
def Request.admits (q : Request) (a : Nat) : Bool := q.lo ≤ a && a ≤ q.hi

/-- Where some answer is in range the candidate is not 0: it is at least 4 (R142). -/
theorem pos_of_admits {c a : Nat} (h : (mrRequest c).admits a = true) : 0 < c := by
  obtain ⟨hlo, hhi⟩ := (Bool.and_eq_true _ _).mp h
  have hlo : 2 ≤ a := of_decide_eq_true hlo
  have hhi : a ≤ c - 2 := of_decide_eq_true hhi
  omega

/-! ### The round loop -/

/-- How the rounds end, given the sampler's script. -/
inductive RoundsEnd where
  /-- all 128 rounds passed (R140) -/
  | prime
  /-- a round found the candidate composite (R140) -/
  | composite
  /-- the sampler does not answer: `left` rounds are still to begin (R79) -/
  | hold (left : Nat)
  /-- the sampler answered out of range (U7 of spec/93) -/
  | outOfRange
deriving DecidableEq, Repr

/-- What the rounds did. -/
structure Rounds where
  ending : RoundsEnd
  /-- requests that were made -/
  asks   : Nat
  /-- answers the sampler has left -/
  script : List Nat
deriving DecidableEq, Repr

/-- The round loop of `MillerRabin` with `left` rounds still to begin (R140): one draw at the start of each round that is
begun (R142). -/
def mrRounds (c : Nat) (hc : 0 < c) (v : RewriteVars) : Nat → List Nat → Rounds
  | 0, script => ⟨.prime, 0, script⟩
  | left + 1, [] => ⟨.hold (left + 1), 1, []⟩
  | left + 1, a :: script =>
    if (mrRequest c).admits a then
      match mrRound c hc v a with
      | .composite => ⟨.composite, 1, script⟩
      | .pass =>
        let r := mrRounds c hc v left script
        { r with asks := r.asks + 1 }
    else ⟨.outOfRange, 1, script⟩

/-- The rounds left when a round is over. -/
def mrAfter (c : Nat) (hc : 0 < c) (v : RewriteVars) (round : Nat) (verdict : RoundVerdict) (script : List Nat) : Rounds :=
  match verdict with
  | .composite => ⟨.composite, 0, script⟩
  | .pass => mrRounds c hc v (Config.mrRounds - round) script

/-- The general path of `MillerRabin` from where it stands: `c` odd, `c ≥ 5` (R140). -/
def mrRun (c : Nat) (hc : 0 < c) (m : MrStage) (script : List Nat) : Rounds :=
  match m with
  | .rewrite v => mrRounds c hc (rewriteLoop v) Config.mrRounds script
  | .draw round v => mrRounds c hc v (Config.mrRounds + 1 - round) script
  | .power round v _ p => mrAfter c hc v round (mrJudge c hc v (expLoop c hc p).result) script
  | .square round v _ j x => mrAfter c hc v round (mrSquares c hc (v.s - 1 - j) x) script

/-- `s` and `d` of the candidate, for a stage (R140). -/
def mrVars (m : MrStage) : RewriteVars :=
  match m with
  | .rewrite v => rewriteLoop v
  | .draw _ v => v
  | .power _ v _ _ => v
  | .square _ v _ _ _ => v

/-- Where Miller–Rabin stands. -/
def mrStage (s : State) : MrStage :=
  match s.work with
  | some (.millerRabin m) => m
  | _ => .rewrite (rewriteInit (bigSubNat s.op0 1))

/-- The requests and the script after the rounds; a request that was outstanding before is not a new one (R78). -/
def recordRounds (r : Rounds) (s : State) : State :=
  { s with env := { s.env with
    script := r.script
    asked := List.replicate (r.asks - s.request.isSome.toNat) (mrRequest s.op0) ++ s.env.asked } }

/-- The state the rounds lead to. -/
def endRounds (r : Rounds) (s : State) : StepResult :=
  match r.ending with
  | .prime => .next (complete { tag := .pos } (recordRounds r s))
  | .composite => .next (complete { tag := .neg } (recordRounds r s))
  | .hold left => .next
      { recordRounds r s with
        work := some (.millerRabin (.draw (Config.mrRounds + 1 - left) (mrVars (mrStage s))))
        request := some (mrRequest s.op0) }
  | .outOfRange => .refused .samplerOutOfRange

/-- `MillerRabin(OP[0])` (R140): the special cases first (R137, R138), then the general path. -/
def millerRabin (s : State) : StepResult :=
  if s.op0 = 2 ∨ s.op0 = 3 then .next (complete { tag := .pos } s)
  else if h : isEven s.op0 then .next (complete { tag := .neg } s)
  else if s.op0 = 1 then .next (raiseFault .candidateDomain s)
  else endRounds (mrRun s.op0 (pos_of_not_even h) (mrStage s) s.env.script) s

/-- The sampler's answer reaches the block (R78): the round goes on with it as its witness. -/
def deliver (a : Nat) (s : State) : StepResult :=
  match s.work with
  | some (.millerRabin (.draw round v)) =>
    if h : (mrRequest s.op0).admits a then .next
      { s with
        work := some (.millerRabin (.power round v a (expInit a v.d s.op0 (pos_of_admits h))))
        request := none }
    else .refused .samplerOutOfRange
  | _ => .next s

/-- The sampler answers the `number`-th request the block has issued (R78).  Only the answer to the outstanding request
reaches the block, and that is the last one issued; an answer to a request that reset abandoned is discarded, also when
another request is outstanding by then (R240). -/
def samplerAnswer (number a : Nat) (s : State) : StepResult :=
  match s.request with
  | none => .next s
  | some _ => if number = s.env.asked.length then deliver a s else .next s

/-- The state with another stage of Miller–Rabin. -/
def State.withStage (s : State) (m : MrStage) : State := { s with work := some (.millerRabin m) }

/-- The start of a round (R140): when 128 are over the verdict is `PRIME`; else the request is made, and the round goes on
once the sampler answers (R79). -/
def tickDraw (round : Nat) (s : State) : StepResult :=
  if Config.mrRounds < round then .next (complete { tag := .pos } s)
  else match s.request with
    | none => .next
        { s with
          request := some (mrRequest s.op0)
          env := { s.env with asked := mrRequest s.op0 :: s.env.asked } }
    | some _ =>
      match s.env.script with
      | [] => .next s
      | a :: script => deliver a { s with env := { s.env with script := script } }

/-- The end of a round (R139, R140). -/
def tickVerdict (round : Nat) (v : RewriteVars) (verdict : RoundVerdict) (s : State) : StepResult :=
  match verdict with
  | .composite => .next (complete { tag := .neg } s)
  | .pass => .next (s.withStage (.draw (round + 1) v))

/-- One iteration of the general path (R139, R140). -/
def tickStage (m : MrStage) (s : State) (hc : 0 < s.op0) : StepResult :=
  match m with
  | .rewrite v =>
    match rewriteNext v with
    | some v' => .next (s.withStage (.rewrite v'))
    | none => .next (s.withStage (.draw 1 v))
  | .draw round v => tickDraw round (s.withStage (.draw round v))
  | .power round v a p =>
    match expNext s.op0 hc p with
    | some p' => .next (s.withStage (.power round v a p'))
    | none =>
      if p.result = 1 ∨ p.result = bigSubNat s.op0 1 then tickVerdict round v .pass s
      else .next (s.withStage (.square round v a 0 p.result))
  | .square round v a j x =>
    if j < v.s - 1 then
      let y := mulMod x x s.op0 hc
      if y = 1 then tickVerdict round v .composite s
      else if y = bigSubNat s.op0 1 then tickVerdict round v .pass s
      else .next (s.withStage (.square round v a (j + 1) y))
    else tickVerdict round v .composite s

/-- One iteration of `MillerRabin` (R140). -/
def tickMillerRabin (s : State) : StepResult :=
  if s.op0 = 2 ∨ s.op0 = 3 then .next (complete { tag := .pos } s)
  else if h : isEven s.op0 then .next (complete { tag := .neg } s)
  else if s.op0 = 1 then .next (raiseFault .candidateDomain s)
  else tickStage (mrStage s) s (pos_of_not_even h)

/-- `MRTEST` (R141), from where it stands to its end, or to a request the sampler does not answer. -/
def execMrtest (s : State) : StepResult := millerRabin s

/-- One iteration of `MRTEST`. -/
def tickMrtest (s : State) : StepResult := tickMillerRabin s

/-! ### The whole test -/

/-- Whether `ISPRIME` is past trial division. -/
def pastTrial (s : State) : Bool :=
  match s.work with
  | some (.millerRabin _) => true
  | _ => false

/-- `ISPRIME` (R145, R146), from where it stands to its end, or to a request the sampler does not answer. -/
def execIsprime (s : State) : StepResult :=
  if pastTrial s then millerRabin s
  else match trialVerdictAt s.op0 (trialEnd s.op0 (trialIndex s)) with
    | .accept => .next (complete { tag := .pos } s)
    | .reject => .next (complete { tag := .neg } s)
    | .undecided => millerRabin s

/-- One iteration of `ISPRIME`. -/
def tickIsprime (s : State) : StepResult :=
  if pastTrial s then tickMillerRabin s
  else match trialNext s.op0 (trialIndex s) with
    | some k => .next { s with work := some (.trial k) }
    | none =>
      match trialVerdictAt s.op0 (trialIndex s) with
      | .accept => .next (complete { tag := .pos } s)
      | .reject => .next (complete { tag := .neg } s)
      | .undecided => tickMillerRabin s

end Sys2Proof.Machine
end

