-- ==== Sys2Proof/Machine/Dispatch.lean ====
section
/-! DEFINITION. Each command's meaning (rule R91). -/

namespace Sys2Proof.Machine

/-- The sequencer runs the command in progress, from where it stands, as far as it can go (R91, R250). -/
def exec (i : Instr) (s : State) : Host.Outcome State Fault Refusal :=
  match i with
  | .modexp => Sys2Proof.Machine.execModexp s
  | .trialdiv => Sys2Proof.Machine.execTrialdiv s
  | .rewrite => Sys2Proof.Machine.execRewrite s
  | .mrtest => Sys2Proof.Machine.execMrtest s
  | .isprime => Sys2Proof.Machine.execIsprime s
  | .egcd => Sys2Proof.Machine.execEgcd s
  | .invmod => Sys2Proof.Machine.execInvmod s

end Sys2Proof.Machine
end

