-- ==== Sys2Proof/Machine/Sequencer.lean ====
section
/-! DEFINITION. The sequencer's moves (rules R91, R250) and what each event does (rules R16, R71). -/

namespace Sys2Proof.Machine

/-- One loop iteration of a command (R42). -/
def tick (i : Instr) (s : State) : StepResult :=
  match i with
  | .modexp => tickModexp s
  | .trialdiv => tickTrialdiv s
  | .rewrite => tickRewrite s
  | .mrtest => tickMrtest s
  | .isprime => tickIsprime s
  | .egcd => tickEgcd s
  | .invmod => tickInvmod s

/-- So many loop iterations of a command, until one of them stops the machine. -/
def ticks (i : Instr) : Nat → State → StepResult
  | 0, s => .next s
  | n + 1, s =>
    match tick i s with
    | .next t => ticks i n t
    | .fault r => .fault r
    | .refused r => .refused r

/-- A move of the sequencer: only while `BUSY`; the command word is decoded first, and an illegal word faults (R91, R216). -/
def sequencerMove (move : Instr → State → StepResult) (s : State) : StepResult :=
  match s.status.phase with
  | .busy =>
    match decode s.cmd with
    | .error _ => .next (raiseFault .illegalCmd s)
    | .ok i => move i s
  | .idle | .faulted => .next s

/-- What an event does while the reset input is released; asserting it, or releasing it, resets the block (R240). -/
def act (e : Event) (s : State) : StepResult :=
  match e with
  | .host a => hostAccess a s
  | .rst asserted => .next (resetBlock (s.withRst asserted))
  | .answer number a => samplerAnswer number a s
  | .run => sequencerMove exec s
  | .tick => sequencerMove tick s

/-- What an event does to the machine (R71: each is one atomic step): what it does by itself, except that an asserted `rst`
holds the block at its reset values (R240). -/
def perform (e : Event) (s : State) : StepResult :=
  match act e s with
  | .next t => .next (holdInReset t)
  | .fault r => .fault r
  | .refused r => .refused r

end Sys2Proof.Machine
end

