-- ==== Sys2Proof/Machine/Step.lean ====
section
/-! DEFINITION. One step of the machine: the next event (rules R16, R71). -/

namespace Sys2Proof.Machine

/-- One step: the next event of the agenda; when nothing is pending outside, the sequencer moves, and in `IDLE` or
`FAULTED` the block waits (R230, R240). -/
def step (s : State) : Host.Outcome State Fault Refusal :=
  match s.env.agenda with
  | [] => perform .run s
  | e :: rest => perform e (s.withAgenda rest)

/-- The state whose next step runs the command word `w` of `nbits` bits: it has just been accepted (R41). -/
def State.withFetchWord (s : State) (nbits w : Nat) : State := placeCommand (BitVec.ofNat 32 (w % 2 ^ nbits)) s

end Sys2Proof.Machine
end

