-- ==== Sys2Proof/Machine/HostScript.lean ====
section
/-! DEFINITION. The host's script notation (rule R95) and the transaction protocol (rules R191, R244).  The host is
an agent outside the block (rule R16): nothing here takes part in `step`. -/

namespace Sys2Proof.Machine

/-- `WR`, for an offset (R95). -/
def wr (off : Offset) (v : Word) : Event := .host (.write off v)

/-- `RD`, for an offset (R95). -/
def rd (off : Offset) : Event := .host (.read off)

/-- `LOAD X, v` (R95): every limb, from the lowest up, in a build of `limbs` limbs. -/
def load (limbs : Nat) (x : BigReg) (v : Nat) : List Event :=
  (List.range limbs).map fun k => wr (x.offset k) (limbOf v k)

/-- `CMD mnemonic` (R95): the command word into `CMD`. -/
def cmd (i : Instr) : Event := wr 0x010 (encode i)

/-- `ACK` (R95): clear `DONE`. -/
def ackDone : Event := wr 0x00C 0x00000002

/-- `RESET` (R95, R241). -/
def softReset : Event := wr 0x008 0x80000000

/-- The number `FETCH X` (R95) gives a host that begins it in this state: limb `k` is read after `k` others, so while the
register is unspecified every limb is a word of its own (R26). -/
def fetch (x : BigReg) (s : State) : Nat :=
  ((List.range s.limbs).map fun k => ((s.afterDrawn k).readValue (x.offset k)).toNat * 2 ^ (32 * k)).sum

/-- Events one after the other (R71), until one of them stops the machine. -/
def performAll : List Event → State → StepResult
  | [], s => .next s
  | e :: es, s =>
    match perform e s with
    | .next t => performAll es t
    | .fault r => .fault r
    | .refused r => .refused r

/-- How a host sequence fails (R191, R200). -/
inductive HostFailure where
  /-- the command ended in the block's fault; `err` is what the host read from `ERR` (R191, R200, R244) -/
  | blockFault (err : Word)
  /-- the host is still waiting: `BUSY` was 1 at every poll the caller let it make (R244, R250) -/
  | stillBusy
  /-- the model stopped -/
  | stopped
  /-- a value does not fit in an operand register (R95, R190) -/
  | operandTooLarge
  /-- no prime found within the attempts the caller gave; the source's loop is unbounded (R192, R193, R250) -/
  | searchUnfinished
  /-- the host's own sampler did not give a number of the bit length asked for (R191) -/
  | sampleOutOfRange
  /-- the host gave up when a candidate outgrew its bit length (R192; one way to settle D31 of spec/92) -/
  | candidateOutgrown
  /-- "Invalid modular inverse" (R194, R200) -/
  | invalidModularInverse
  /-- "Message too long" (R196, R200) -/
  | messageTooLong
  /-- "Malformed ciphertext input" (R197, R200) -/
  | malformedCiphertext
deriving DecidableEq, Repr

/-- What a host sequence ends with: its answer or its failure, and the state it leaves, also when it fails. -/
abbrev HostResult (α : Type) := Except HostFailure α × State

/-- The next part of a host sequence; none of it runs after a failure. -/
def andThen {α β : Type} (r : HostResult α) (next : α → State → HostResult β) : HostResult β :=
  match r with
  | (.ok a, t) => next a t
  | (.error e, t) => (.error e, t)

/-- The sequence lets these events happen. -/
def hostDoes (es : List Event) (s : State) : HostResult Unit :=
  match performAll es s with
  | .next t => (.ok (), t)
  | .fault _ | .refused _ => (.error .stopped, s)

/-- `RD`, with the word the host sees (R95). -/
def readWord (off : Offset) (s : State) : HostResult Word :=
  andThen (hostDoes [rd off] s) fun _ t => (.ok (s.readValue off), t)

/-- The limbs of these indices, read one after the other, each at its place in the number. -/
def fetchLimbs (x : BigReg) : List Nat → State → HostResult Nat
  | [], s => (.ok 0, s)
  | k :: ks, s =>
    andThen (readWord (x.offset k) s) fun w t =>
    andThen (fetchLimbs x ks t) fun v u => (.ok (w.toNat * 2 ^ (32 * k) + v), u)

/-- `FETCH X` (R95) as the reads it consists of: the number is put together from the words the host has seen. -/
def fetchRead (x : BigReg) (s : State) : HostResult Nat := fetchLimbs x (List.range s.limbs) s

/-- The bit of `RSIGN` that is the register's sign (R37). -/
def BigReg.signBit : BigReg → Option Nat
  | .res1 => some 0
  | .res2 => some 1
  | .op0 | .op1 | .op2 | .res0 => none

/-- `FETCH X` with the sign (R95): for `RES1` and `RES2`, `RD RSIGN` follows the reads of the magnitude. -/
def fetchSigned (x : BigReg) (s : State) : HostResult Int :=
  andThen (fetchRead x s) fun mag t =>
  match x.signBit with
  | none => (.ok (mag : Int), t)
  | some b =>
    andThen (readWord 0x020 t) fun w u => (.ok (if w.getLsbD b then -(mag : Int) else (mag : Int)), u)

/-- How one transaction goes, as far as the spec leaves it open: how long the block is `BUSY` (R250), and what the host may
do as it likes (R244). -/
structure Manner where
  /-- what happens before each poll of step 1: moves of the block, answers of the sampler -/
  before : List (List Event)
  /-- what happens before each poll of step 4; the host may read anything then, and write `CTRL` and `STATUS` -/
  after : List (List Event)
  /-- in step 4 the host waits for `irq`, if it has enabled it, instead of polling `STATUS` -/
  byIrq : Bool
  /-- the host clears `DONE` in the end (step 6) -/
  ack : Bool
deriving DecidableEq, Repr

/-- The sequencer moves once before each of the two polls, and these are the only ones. -/
def Manner.prompt : Manner := ⟨[[.run]], [[.run]], false, false⟩

/-- `WAIT` (R95): `RD STATUS` until `BUSY` is 0; the last word read is the result.  The list says what happens before each
poll, and where it ends the host still waits. -/
def wait : List (List Event) → State → HostResult Word
  | [], s => (.error .stillBusy, s)
  | es :: rest, s =>
    andThen (hostDoes es s) fun _ t =>
    andThen (readWord 0x00C t) fun v u =>
    if v.getLsbD 0 then wait rest u else (.ok v, u)

/-- Waiting for `irq` (R220, R244): the host then reads `STATUS` once. -/
def waitIrq : List (List Event) → State → HostResult Word
  | [], s => (.error .stillBusy, s)
  | es :: rest, s =>
    andThen (hostDoes es s) fun _ t =>
    if t.irq then readWord 0x00C t else waitIrq rest t

/-- Step 1 of R244: wait until the block is not `BUSY`, and reset it if it is faulted (R218). -/
def makeReady (m : Manner) (s : State) : HostResult Unit :=
  andThen (wait m.before s) fun v t =>
  if v.getLsbD 2 then hostDoes [softReset] t else (.ok (), t)

/-- Step 2 of R244: load every operand the command reads. -/
def loadAll (limbs : Nat) (xs : List Nat) : List Event :=
  (List.zip [BigReg.op0, BigReg.op1, BigReg.op2] xs).flatMap fun p => load limbs p.1 p.2

/-- `RUN mnemonic` (R95), steps 3 and 4 of R244: write the command word, then wait.  The result is the last word read from
`STATUS`, whose bit 2 the host then checks (`conclude`). -/
def runCommand (m : Manner) (i : Instr) (s : State) : HostResult Word :=
  andThen (hostDoes [cmd i] s) fun _ t =>
  if m.byIrq then waitIrq m.after t else wait m.after t

/-- Steps 5 and 6 of R244, given the last word read from `STATUS`: after a fault read `ERR` and reset; else read `RTAG`
(R191), also when `DONE` has been cleared in the meantime, since `BUSY` and `FAULT` are 0 (R246). -/
def conclude (m : Manner) (v : Word) (s : State) : HostResult Word :=
  if v.getLsbD 2 then
    andThen (readWord 0x018 s) fun code t =>
    andThen (hostDoes [softReset] t) fun _ u => (.error (.blockFault code), u)
  else
    andThen (readWord 0x014 s) fun tag t =>
    andThen (hostDoes (if m.ack then [ackDone] else []) t) fun _ u => (.ok tag, u)

/-- `CALL i(xs)` by the protocol of R244 (R191): what the host read from `RTAG`, and the state in which it may fetch the
results. -/
def call (m : Manner) (i : Instr) (xs : List Nat) (s : State) : HostResult Word :=
  if xs.any (fun x => decide (2 ^ s.width ≤ x)) then (.error .operandTooLarge, s)
  else
    andThen (makeReady m s) fun _ t =>
    andThen (hostDoes (loadAll t.limbs xs) t) fun _ u =>
    andThen (runCommand m i u) fun v w =>
    conclude m v w

end Sys2Proof.Machine
end

