-- ==== Sys2Proof/Machine/HostSequences.lean ====
section
/-! DEFINITION. The host sequences around the block (rules R190 to R200): prime and key generation, encrypt, decrypt and
the display of keys.  They are software that calls the block; what the source leaves open about them is an argument
(`HostChoices`, `PrimeSource`, `Manner`; rule R191, D31 of spec/92), never a choice of the model. -/

namespace Sys2Proof.Machine

/-- The record `PublicKey` (R190). -/
structure PublicKey where
  e : Nat
  n : Nat
  keySize : Nat
deriving DecidableEq, Repr

/-- The record `PrivateKey` (R190). -/
structure PrivateKey where
  d : Nat
  n : Nat
deriving DecidableEq, Repr

/-- The big-endian value of a message: its first byte is the most significant (R68, R196). -/
def natOfBytes (bytes : List Byte) : Nat := bytes.foldl (fun n b => n * 256 + b.toNat) 0

/-- What the source leaves open at host level (N10 to N13 of spec/91, D31 of spec/92), with what it does say of each. -/
structure HostChoices where
  /-- `SAMPLE_TOP_BIT`: whether a sample of a requested bit length has its top bit forced to 1 (R8, R191) -/
  sampleTopBit : Bool
  /-- OPEN in R192: what the search does when the next candidate has outgrown the bit length, given the bit length and that
  candidate: go on with this number, or give up -/
  outgrown : Nat → Nat → Option Nat
  /-- OPEN in R193, which needs `e > 0`: what the host's `p mod 0` gives -/
  modZero : Nat → Nat
  /-- `key_size / 2`, rounded down or up (R194) -/
  half : Nat → Nat
  half_rounds : ∀ k, k / 2 ≤ half k ∧ half k ≤ (k + 1) / 2
  /-- `key_size / 8`, rounded down or up (R196) -/
  eighth : Nat → Nat
  eighth_rounds : ∀ k, k / 8 ≤ eighth k ∧ eighth k ≤ (k + 7) / 8
  /-- the byte string of the integer 0 -/
  zeroBytes : List Byte
  zeroBytes_value : natOfBytes zeroBytes = 0
  /-- the hexadecimal form of a byte string -/
  hexOfBytes : List Byte → String
  /-- the integer a hexadecimal string stands for, if it is valid; of the form of a byte string, that string's value -/
  parseHex : String → Option Nat
  parseHex_hexOfBytes : ∀ bytes, parseHex (hexOfBytes bytes) = some (natOfBytes bytes)
  /-- the bytes of a text -/
  bytesOfText : String → List Byte
  /-- the text a byte string stands for, if it is valid; of a text's bytes, that text -/
  textOfBytes : List Byte → Option String
  textOfBytes_bytesOfText : ∀ text, textOfBytes (bytesOfText text) = some text
  /-- the hexadecimal digits of a number, for display -/
  hexDigits : Nat → String
  /-- the digits of `key_size`, for display -/
  sizeDigits : Nat → String

/-- `Default` or `Explicit(value)` (R195). -/
inductive KeyChoice where
  | default
  | explicit (value : Nat)
deriving DecidableEq, Repr

/-- The value of a choice; the defaults are key size 1024 and exponent 3 (R8, R195). -/
def KeyChoice.value (byDefault : Nat) : KeyChoice → Nat
  | .default => byDefault
  | .explicit v => v

/-- Whether `HostSample(bit_length)` may give `v` (R191): any number of at most so many bits, or, where the top bit is
forced, of exactly so many. -/
def HostChoices.admitsSample (h : HostChoices) (bitLength v : Nat) : Bool :=
  decide (v < 2 ^ bitLength) && (!h.sampleTopBit || decide (2 ^ bitLength ≤ 2 * v))

/-- One attempt of `big_prime`: what `HostSample` gives, and how the test of each candidate goes. -/
structure PrimeAttempt where
  sample  : Nat
  manners : List Manner
deriving DecidableEq, Repr

/-- The candidate after `c` (R192); where it outgrows the bit length, the host's own choice. -/
def HostChoices.nextCandidate (h : HostChoices) (bitLength c : Nat) : Option Nat :=
  if c + 2 < 2 ^ bitLength then some (c + 2) else h.outgrown bitLength (c + 2)

/-- The search loop of `big_prime` (R192), testing `c` first, for as many candidates as there are manners. -/
def searchPrime (h : HostChoices) (bitLength : Nat) : List Manner → Nat → State → HostResult Nat
  | [], _, s => (.error .searchUnfinished, s)
  | m :: manners, c, s =>
    andThen (call m .isprime [c] s) fun tag t =>
    if tag = Tag.pos.word then (.ok c, t)
    else match h.nextCandidate bitLength c with
      | some c' => searchPrime h bitLength manners c' t
      | none => (.error .candidateOutgrown, t)

/-- `big_prime(bit_length)` (R192). -/
def bigPrime (h : HostChoices) (bitLength : Nat) (a : PrimeAttempt) (s : State) : HostResult Nat :=
  if h.admitsSample bitLength a.sample then
    searchPrime h bitLength a.manners (if isEven a.sample then a.sample + 1 else a.sample) s
  else (.error .sampleOutOfRange, s)

/-- `p mod e` on the host (R193); for `e = 0`, which the rule shuts out, the host's own choice. -/
def HostChoices.rem (h : HostChoices) (p e : Nat) : Nat :=
  if he : e = 0 then h.modZero p else bigRem p e (Nat.pos_of_ne_zero he)

/-- `rsa_prime(bit_length, e)` (R193), with a fresh attempt of `big_prime` after each rejection; the attempts left come
back. -/
def rsaPrime (h : HostChoices) (bitLength e : Nat) : List PrimeAttempt → State → HostResult (Nat × List PrimeAttempt)
  | [], s => (.error .searchUnfinished, s)
  | a :: attempts, s =>
    andThen (bigPrime h bitLength a s) fun p t =>
    if h.rem p e = 1 then rsaPrime h bitLength e attempts t else (.ok (p, attempts), t)

/-- `gen_keys` once its primes are chosen (R194); `m` is how the `INVMOD` goes. -/
def keysOfPrimes (m : Manner) (keySize e p q : Nat) (s : State) : HostResult (PublicKey × PrivateKey) :=
  andThen (call m .invmod [e, (p - 1) * (q - 1)] s) fun tag t =>
  if tag = Tag.neg.word then (.error .invalidModularInverse, t)
  else andThen (fetchRead .res0 t) fun d u => (.ok (⟨e, p * q, keySize⟩, ⟨d, p * q⟩), u)

/-- Where `gen_keys` takes its primes from (R194): the search, or two fixed primes (`DEMO_PRIMES`, not in the source). -/
inductive PrimeSource where
  | search (attempts : List PrimeAttempt)
  | fixed (p q : Nat)
deriving DecidableEq, Repr

/-- `gen_keys(key_size, e)` (R194): the primes have bit length `key_size / 2` each. -/
def genKeys (h : HostChoices) (source : PrimeSource) (m : Manner) (keySize e : Nat) (s : State) :
    HostResult (PublicKey × PrivateKey) :=
  match source with
  | .fixed p q => keysOfPrimes m keySize e p q s
  | .search attempts =>
    andThen (rsaPrime h (h.half keySize) e attempts s) fun p t =>
    andThen (rsaPrime h (h.half keySize) e p.2 t) fun q u =>
    keysOfPrimes m keySize e p.1 q.1 u

/-- `gen_keys(key_size_choice, exponent_choice)` (R195). -/
def genKeysChosen (h : HostChoices) (source : PrimeSource) (m : Manner) (size exponent : KeyChoice) (s : State) :
    HostResult (PublicKey × PrivateKey) :=
  genKeys h source m (size.value 1024) (exponent.value 3) s

/-- `gen_keys_default()` (R195). -/
def genKeysDefault (h : HostChoices) (source : PrimeSource) (m : Manner) (s : State) :
    HostResult (PublicKey × PrivateKey) :=
  genKeysChosen h source m .default .default s

/-- The bytes of a number, least significant first, with no zero byte on top. -/
def bytesLe : Nat → Nat → List Byte
  | 0, _ => []
  | fuel + 1, v => if v = 0 then [] else BitVec.ofNat 8 v :: bytesLe fuel (v / 256)

/-- `bytes_be` (R196, R197): the bytes of a number, most significant first.  A number has fewer bytes than the number. -/
def bytesBe (h : HostChoices) (v : Nat) : List Byte := if v = 0 then h.zeroBytes else (bytesLe v v).reverse

/-- `encrypt` on the message's bytes (R196): the length check comes before any access to the block. -/
def encryptBytes (h : HostChoices) (m : Manner) (key : PublicKey) (message : List Byte) (s : State) :
    HostResult String :=
  if ¬ message.length < h.eighth key.keySize then (.error .messageTooLong, s)
  else
    andThen (call m .modexp [natOfBytes message, key.e, key.n] s) fun _ t =>
    andThen (fetchRead .res0 t) fun c u => (.ok (h.hexOfBytes (bytesBe h c)), u)

/-- `PublicKey.encrypt(message: text)` (R196). -/
def encrypt (h : HostChoices) (m : Manner) (key : PublicKey) (message : String) (s : State) : HostResult String :=
  encryptBytes h m key (h.bytesOfText message) s

/-- `PrivateKey.decrypt(hex string)` (R197). -/
def decrypt (h : HostChoices) (m : Manner) (key : PrivateKey) (ciphertext : String) (s : State) : HostResult String :=
  match h.parseHex ciphertext with
  | none => (.error .malformedCiphertext, s)
  | some c =>
    andThen (call m .modexp [c, key.d, key.n] s) fun _ t =>
    andThen (fetchRead .res0 t) fun plain u =>
    match h.textOfBytes (bytesBe h plain) with
    | none => (.error .malformedCiphertext, u)
    | some text => (.ok text, u)

/-- The display of a public key (R198). -/
def PublicKey.display (h : HostChoices) (k : PublicKey) : String :=
  "e=0x" ++ h.hexDigits k.e ++ ", n=0x" ++ h.hexDigits k.n ++ ", key_size=" ++ h.sizeDigits k.keySize

/-- The display of a private key (R198). -/
def PrivateKey.display (h : HostChoices) (k : PrivateKey) : String :=
  "d=0x" ++ h.hexDigits k.d ++ ", n=0x" ++ h.hexDigits k.n

end Sys2Proof.Machine
end

