-- ==== Sys2Proof/Safety.lean ====
section
/-! DEFINITION. What the claims speak of: the invariants of a run (rules R33, R40, R46, R215), the loop invariants of the
engines (rules R112, R136, R173, R179), and the strong-pseudoprime condition of a Miller–Rabin round (rule R139). -/

namespace Sys2Proof.Safety

open Sys2Proof.Machine

/-! ### Coherence: what the status, the sequencer and the marks say agrees -/

/-- Which commands have working variables of this kind (R42). -/
def belongsTo : Work → Instr → Bool
  | .accepted, _ => true
  | .modexp _, i => i == .modexp
  | .trial _, i => i == .trialdiv || i == .isprime
  | .rewrite _, i => i == .rewrite
  | .millerRabin _, i => i == .mrtest || i == .isprime
  | .egcd _, i => i == .egcd
  | .invmod _, i => i == .invmod

/-- The working variables belong to the command in `CMD` (R41, R42). -/
def workMatches (s : State) : Bool :=
  match s.work with
  | none => true
  | some .accepted => true
  | some w =>
    match decode s.cmd with
    | .ok i => belongsTo w i
    | .error _ => false

/-- A request is outstanding only at the start of one of the 128 rounds, it is the one of R142, and it is the last one
issued (R46, R78). -/
def requestMatches (s : State) : Bool :=
  match s.request with
  | none => true
  | some q =>
    match s.work with
    | some (.millerRabin (.draw round _)) =>
      q == mrRequest s.op0 && decide (round ≤ Config.mrRounds) && s.env.asked.head? == some q
    | _ => false

/-- No two of `BUSY`, `DONE`, `FAULT` are 1 (R33). -/
abbrev FlagsExclusive (st : Status) : Prop :=
  ¬ (st.busy = true ∧ st.fault = true) ∧ ¬ (st.done = true ∧ st.fault = true) ∧ ¬ (st.busy = true ∧ st.done = true)

/-- The flags, `ERR`, `RV`, the working variables and the outstanding request agree, and an asserted `rst` finds every piece
of state at its reset value. -/
abbrev Coherent (s : State) : Prop :=
  FlagsExclusive s.status ∧
  s.status.busy = s.work.isSome ∧
  s.status.fault = decide (s.err ≠ .noFault) ∧
  decide (s.rv = .valid) = decide (s.status.phase = .idle) ∧
  workMatches s = true ∧
  requestMatches s = true ∧
  (s.env.rstAsserted = true → s = resetBlock s)

/-- While `FAULTED`, the word in `CMD` and the operands show why (R211, R215). -/
def faultExplained (s : State) : Bool :=
  match s.err with
  | .noFault => true
  | .illegalCmd => !(decode s.cmd).isOk
  | .modulusZero => (decode s.cmd).toOption == some .modexp && s.op2 == 0
  | .rewriteZero => (decode s.cmd).toOption == some .rewrite && s.op0 == 0
  | .candidateDomain =>
    ((decode s.cmd).toOption == some .mrtest || (decode s.cmd).toOption == some .isprime) && s.op0 == 1
  | .invmodModulusZero => (decode s.cmd).toOption == some .invmod && s.op1 == 0

/-! ### Every register fits, and zero is never negative -/

/-- A legal build (R8) whose big registers fit the windows (R65). -/
abbrev LegalBuild (s : State) : Prop := 2 ≤ s.limbs ∧ s.limbs ≤ 256

/-- A signed register's magnitude fits, and zero has sign 0 (R23, R24). -/
abbrev SignedFits (width : Nat) (r : SignMag) : Prop := r.mag < 2 ^ width ∧ (r.mag = 0 → r.sign = false)

/-- Every register holds a value of its width (R21 to R25). -/
abbrev Fits (s : State) : Prop :=
  s.op0 < 2 ^ s.width ∧ s.op1 < 2 ^ s.width ∧ s.op2 < 2 ^ s.width ∧ s.res0 < 2 ^ s.width ∧
  SignedFits s.width s.res1 ∧ SignedFits s.width s.res2 ∧ s.rcnt < 2 ^ 32

/-! ### The loop invariants of the engines -/

/-- `ModExp` (R112, R113). -/
def ExpSound (base exponent modulus : Nat) (v : ExpVars) : Prop :=
  v.result < modulus ∧ (v.result * v.b ^ v.e) % modulus = base ^ exponent % modulus ∧
  v.e ≤ exponent ∧ (v.b < modulus ∨ v.b = base)

/-- `Rewrite` (R135, R136): `value = 2^s * d`. -/
def RewriteSound (value : Nat) (v : RewriteVars) : Prop := v.d ≠ 0 ∧ value = 2 ^ v.s * v.d

/-- `TrialDiv` (R132): the first `k` small primes neither equal nor divide the candidate. -/
def TrialSound (c k : Nat) : Prop :=
  k ≤ Config.nSmallPrimes ∧ ∀ p ∈ smallPrimes.take k, c ≠ p ∧ ¬ p ∣ c

/-- One chain of coefficients beside the remainders (R174): `bound` is the operand the chain does not multiply. -/
def ChainSound (bound oldR r : Nat) (old cur : Int) : Prop :=
  cur.natAbs * oldR + old.natAbs * r = bound ∧ old * cur ≤ 0 ∧
  old.natAbs ≤ max bound 1 ∧ cur.natAbs ≤ max bound 1

/-- `ExtGcd` (R173, R174). -/
def EgcdSound (a b : Nat) (v : EgcdVars) : Prop :=
  (v.oldR : Int) = a * v.oldS + b * v.oldT ∧ (v.r : Int) = a * v.s + b * v.t ∧
  Nat.gcd v.oldR v.r = Nat.gcd a b ∧
  ChainSound b v.oldR v.r v.oldS v.s ∧ ChainSound a v.oldR v.r v.oldT v.t

/-- `InvMod` (R179, R180). -/
def InvSound (a n : Nat) (v : InvVars) : Prop :=
  (n : Int) ∣ v.oldR - a * v.oldS ∧ (n : Int) ∣ v.r - a * v.s ∧
  Nat.gcd v.oldR v.r = Nat.gcd a n ∧ ChainSound n v.oldR v.r v.oldS v.s

/-- `candidate - 1 = 2^s * d` with `d` odd (R135, R140). -/
def Decomposed (c : Nat) (v : RewriteVars) : Prop := c - 1 = 2 ^ v.s * v.d ∧ v.d % 2 = 1

/-- A witness the sampler may give (R78, R142). -/
abbrev InRange (c a : Nat) : Prop := 2 ≤ a ∧ a ≤ c - 2

/-- `MillerRabin`'s general path (R139, R140): the candidate is odd and at least 5. -/
def MrSound (c : Nat) : MrStage → Prop
  | .rewrite v => RewriteSound (c - 1) v
  | .draw round v => Decomposed c v ∧ 1 ≤ round ∧ round ≤ Config.mrRounds + 1
  | .power round v a p =>
    Decomposed c v ∧ 1 ≤ round ∧ round ≤ Config.mrRounds ∧ InRange c a ∧ ExpSound a v.d c p
  | .square round v a j x =>
    Decomposed c v ∧ 1 ≤ round ∧ round ≤ Config.mrRounds ∧ InRange c a ∧ j ≤ v.s - 1 ∧
    x = a ^ (2 ^ j * v.d) % c ∧ x ≠ 1 ∧ x ≠ c - 1

/-- The working variables satisfy their loop's invariant. -/
def WorkSound (s : State) : Prop :=
  match s.work with
  | none => True
  | some .accepted => True
  | some (.modexp v) => s.op2 ≠ 0 ∧ ExpSound s.op0 s.op1 s.op2 v
  | some (.trial k) => TrialSound s.op0 k
  | some (.rewrite v) => s.op0 ≠ 0 ∧ RewriteSound s.op0 v
  | some (.millerRabin m) => 5 ≤ s.op0 ∧ s.op0 % 2 = 1 ∧ MrSound s.op0 m
  | some (.egcd v) => EgcdSound s.op0 s.op1 v
  | some (.invmod v) => s.op1 ≠ 0 ∧ InvSound s.op0 s.op1 v

/-- A legal build in which every register fits and every working variable is what its loop's invariant says. -/
def Sound (s : State) : Prop := LegalBuild s ∧ Fits s ∧ WorkSound s

/-! ### Miller–Rabin -/

/-- The condition under which the witness `a` does not show `c` composite (R139): for `c - 1 = 2^s * d` with `d` odd,
`a^d` is 1, or one of `a^d, a^(2d), …, a^(2^(s-1) d)` is `c - 1`, modulo `c`. -/
def Survives (c a : Nat) : Prop :=
  ∃ v : RewriteVars, Decomposed c v ∧
    (a ^ v.d % c = 1 ∨ ∃ j < v.s, a ^ (2 ^ j * v.d) % c = c - 1)

/-- The script and the log of requests after `n` draws of a Miller–Rabin on the candidate in `OP0`, with the answers
`left` still in the script (R142). -/
def afterDraws (n : Nat) (left : List Nat) (s : State) : State :=
  { s with env := { s.env with
    script := left
    asked := List.replicate n ⟨2, s.op0 - 2⟩ ++ s.env.asked } }

/-! ### Where a command starts -/

/-- The command has just been accepted, and no request is outstanding (R41). -/
abbrev JustAccepted (s : State) : Prop := s.work = some .accepted ∧ s.request = none

/-- The event the next step handles: the head of the agenda, or the sequencer when nothing is pending. -/
def nextEvent (s : State) : Event :=
  match s.env.agenda with
  | [] => .run
  | e :: _ => e

/-- The next step resets the block (R240, R241): by the reset input, or by a write of 1 to `CTRL.SRST`. -/
def resets (s : State) : Bool :=
  s.env.rstAsserted ||
    match nextEvent s with
    | .rst _ => true
    | .host (.write off v) => off == 0x008 && v.getLsbD 31
    | .host (.read _) | .answer _ _ | .run | .tick => false

/-! ### Where a host starts a transaction -/

/-- What a host sequence may rely on: a coherent and sound state, with the reset input released. -/
abbrev Usable (s : State) : Prop := Coherent s ∧ Sound s ∧ s.env.rstAsserted = false

end Sys2Proof.Safety
end

