-- ==== Sys2Proof/Certificates/Slice0/Obligations.lean ====
section
/-! DEFINITION. The statements for the provers, from the numbered rules of spec/. -/

open Sys2Proof Sys2Proof.Machine Sys2Proof.Safety

/-! ### Encoding -/

/-- R92: the opcode map, both ways: a word selects a command exactly when it is that command's word, and that word is what
the encoder gives. -/
def Obligations.OpcodeMapBothWays : Prop :=
  ∀ (w : Word) (i : Instr), (decode w = .ok i ↔ w = encode i) ∧
    (w = encode i ↔
      (i = .modexp ∧ w = 0x00000001) ∨ (i = .trialdiv ∧ w = 0x00000002) ∨ (i = .rewrite ∧ w = 0x00000003) ∨
      (i = .mrtest ∧ w = 0x00000004) ∨ (i = .isprime ∧ w = 0x00000005) ∨ (i = .egcd ∧ w = 0x00000006) ∨
      (i = .invmod ∧ w = 0x00000007))

/-- A few command words, written out from R92 (sanity). -/
def Obligations.SpecWordsDecode : Prop :=
  decode 0b00000000000000000000000000000001 = .ok .modexp ∧
  decode 0b00000000000000000000000000000100 = .ok .mrtest ∧
  decode 0b00000000000000000000000000000110 = .ok .egcd ∧
  decode 0b00000000000000000000000000010001 = .error .zeroField ∧
  decode 0b00000000000000000000000000001000 = .error .opcode

/-- R94: every word but 1 to 7, written to `CMD` in `IDLE`, is latched, sets `BUSY`, and then faults with `ILLEGAL_CMD`
whatever the operands hold and without a random request. -/
def Obligations.IllegalWordLatchedThenFaults : Prop :=
  ∀ (s : State) (w : Word), s.status.phase = .idle → s.env.rstAsserted = false → (w.toNat = 0 ∨ 8 ≤ w.toNat) →
    ∃ t, perform (wr 0x010 w) s = .next t ∧ t.cmd = w ∧ t.status.busy = true ∧
      perform .run t = .next (raiseFault .illegalCmd t) ∧ perform .tick t = .next (raiseFault .illegalCmd t) ∧
      (raiseFault .illegalCmd t).env = s.env ∧ (raiseFault .illegalCmd t).cmd = w ∧
      (raiseFault .illegalCmd t).err.code = 0x01

/-! ### The step -/

/-- A step whose turn it is the sequencer's, while `BUSY`, runs the command in `CMD`; nothing is done around `exec` but
taking the event off the agenda, and the reset while `rst` is asserted (R240).  That an empty agenda makes it the
sequencer's turn is the model's choice (log entry 1, DESIGN CHOICE), and so is that its move here is a run to the end or to
an unanswered request (log entry 7, DEDUCED). -/
def Obligations.StepRunsDecodedCommand : Prop :=
  ∀ (s : State) (i : Instr), s.status.phase = .busy → decode s.cmd = .ok i →
    (s.env.rstAsserted = false → s.env.agenda = [] → step s = exec i s) ∧
    (s.env.rstAsserted = false → ∀ rest, s.env.agenda = .run :: rest → step s = exec i (s.withAgenda rest)) ∧
    (s.env.rstAsserted = true → ∀ t, step s = .next t → t = resetBlock t)

/-- The order of events is the host's (R71): a step handles the first event of the agenda, with the rest still to come,
and a whole prefix of the agenda is handled in order. -/
def Obligations.EventsTakeEffectInOrder : Prop :=
  ∀ (s : State) (es rest : List Event) (t : State), s.env.agenda = es ++ rest →
    performAll es (s.withAgenda rest) = .next t →
    Host.Core.run core es.length s = .next t

/-! ### Reset -/

/-- R47: the value every piece of state has after reset: in the state the machine starts from, when `rst` is asserted or
released, and after whatever happens while it is asserted (R240); asserting and releasing it always succeed. -/
def Obligations.ResetValues : Prop :=
  (∀ (s : State) (asserted : Bool), ∃ t, perform (.rst asserted) s = .next t ∧ t.limbs = s.limbs) ∧
  ∀ t : State, (t = State.reset ∨ (∃ s asserted, perform (.rst asserted) s = .next t) ∨
      ∃ s e, s.env.rstAsserted = true ∧ perform e s = .next t) →
    (t.op0 = 0 ∧ t.op1 = 0 ∧ t.op2 = 0) ∧ t.res0 = 0 ∧
    (t.res1.mag = 0 ∧ t.res1.sign = false ∧ t.res2.mag = 0 ∧ t.res2.sign = false) ∧
    rsignWord t.res1 t.res2 = 0x00000000 ∧ t.rcnt = 0 ∧ t.rtag.word = 0x00000000 ∧ t.rv = .valid ∧
    t.ctrl.word = 0x00000000 ∧ (t.status.word = 0x00000000 ∧ t.status.phase = .idle) ∧ t.cmd = 0x00000000 ∧
    t.err.word = 0x00000000 ∧ t.targetValue .id = 0x52534131 ∧ t.targetValue .param = paramWord t.limbs ∧
    t.work = none ∧ t.request = none ∧ t.irq = false

/-! ### The host port -/

/-- The words the nine 32-bit registers read as (R29 to R38), reserved bits 0, with the tags of R36 and the causes of R211,
while the results are valid. -/
def Obligations.RegisterReads : Prop :=
  ∀ s : State, s.rv = .valid →
    s.readValue 0x000 = 0x52534131 ∧
    (s.readValue 0x004).toNat = 100 * 2 ^ 24 + 128 * 2 ^ 16 + s.limbs % 2 ^ 16 ∧
    (s.readValue 0x008).toNat = s.ctrl.ieDone.toNat + 2 * s.ctrl.ieFault.toNat ∧
    (s.readValue 0x00C).toNat =
      s.status.busy.toNat + 2 * s.status.done.toNat + 4 * s.status.fault.toNat + 8 * s.status.accerr.toNat ∧
    s.readValue 0x010 = s.cmd ∧
    (s.readValue 0x014).toNat = (match s.rtag with | .neg => 0 | .pos => 1 | .undecided => 2) ∧
    (s.readValue 0x018).toNat = (match s.err with
      | .noFault => 0x00 | .illegalCmd => 0x01 | .modulusZero => 0x02 | .rewriteZero => 0x03
      | .candidateDomain => 0x04 | .invmodModulusZero => 0x05) ∧
    (s.rcnt < 2 ^ 32 → (s.readValue 0x01C).toNat = s.rcnt) ∧
    (s.readValue 0x020).toNat = s.res1.sign.toNat + 2 * s.res2.sign.toNat

/-- R63: limb `k` of a big register is at `base(X) + 4k`, with the six bases of R65, and holds bits `[32k+31 : 32k]`; of a
signed register, of its magnitude.  The value is the sum of its limbs. -/
def Obligations.LimbReads : Prop :=
  ∀ s : State, LegalBuild s → s.rv = .valid →
    (∀ k < s.limbs,
      (s.readValue (BitVec.ofNat 13 (0x0400 + 4 * k))).toNat = s.op0 / 2 ^ (32 * k) % 2 ^ 32 ∧
      (s.readValue (BitVec.ofNat 13 (0x0800 + 4 * k))).toNat = s.op1 / 2 ^ (32 * k) % 2 ^ 32 ∧
      (s.readValue (BitVec.ofNat 13 (0x0C00 + 4 * k))).toNat = s.op2 / 2 ^ (32 * k) % 2 ^ 32 ∧
      (s.readValue (BitVec.ofNat 13 (0x1000 + 4 * k))).toNat = s.res0 / 2 ^ (32 * k) % 2 ^ 32 ∧
      (s.readValue (BitVec.ofNat 13 (0x1400 + 4 * k))).toNat = s.res1.mag / 2 ^ (32 * k) % 2 ^ 32 ∧
      (s.readValue (BitVec.ofNat 13 (0x1800 + 4 * k))).toNat = s.res2.mag / 2 ^ (32 * k) % 2 ^ 32) ∧
    ∀ x : BigReg, s.big x < 2 ^ s.width → fetch x s = s.big x

/-- Offsets that no rule names read 0 and ignore writes, without `ACCERR` (R39): those between the 32-bit registers and
the windows, those above the windows, and the words of a window at limb index `≥ LIMBS`. -/
def Obligations.ReservedOffsets : Prop :=
  ∀ (s : State) (off : Offset), aligned off = true →
    (0x024 ≤ off.toNat ∧ off.toNat < 0x400 ∨ 0x1C00 ≤ off.toNat ∨
      (0x400 ≤ off.toNat ∧ off.toNat < 0x1C00 ∧ s.limbs ≤ off.toNat % 0x400 / 4)) →
    s.readValue off = 0 ∧ ∀ v, hostWrite off v s = .next s

/-- While `RV` is unspecified, a read of `RTAG`, `RCNT`, `RSIGN` or a limb of a result register gives a fresh free word,
and every other read is exact (R26, R61). -/
def Obligations.EarlyResultReadsAreFree : Prop :=
  ∀ (s : State) (off : Offset), s.rv = .unspecified → aligned off = true →
    ∃ t, hostRead off s = .next t ∧
      if off.toNat = 0x014 ∨ off.toNat = 0x01C ∨ off.toNat = 0x020 ∨
          (0x1000 ≤ off.toNat ∧ off.toNat < 0x1C00 ∧ off.toNat % 0x400 / 4 < s.limbs)
      then t.env.observed = (off, Config.unspecifiedWord s.env.fresh) :: s.env.observed ∧
        t.env.fresh = s.env.fresh + 1
      else t.env.observed = (off, ({ s with rv := .valid } : State).readValue off) :: s.env.observed ∧
        t.env.fresh = s.env.fresh

/-- A read never changes the block, whatever the offset (R61): only what the host has seen, and the count of free words,
move on. -/
def Obligations.ReadsChangeNothing : Prop :=
  ∀ (s t : State) (off : Offset), hostRead off s = .next t →
    aligned off = true ∧
    t = { s with env := { s.env with
      observed := (off, s.readValue off) :: s.env.observed, fresh := t.env.fresh } }

/-- R62: what a host write does, for every offset of the port. -/
def Obligations.HostWriteMap : Prop :=
  ∀ (s : State) (off : Offset) (v : Word), off.toNat % 4 = 0 →
    hostWrite off v s = .next (
      if off.toNat = 0x008 then
        (if v.getLsbD 31 then resetBlock s else { s with ctrl := ⟨v.getLsbD 0, v.getLsbD 1⟩ })
      else if off.toNat = 0x00C then
        { s with status := { s.status with
          done := s.status.done && !v.getLsbD 1, accerr := s.status.accerr && !v.getLsbD 3 } }
      else if off.toNat = 0x010 then
        (if s.status.phase = .idle then accept v s else dropWrite s)
      else if 0x400 ≤ off.toNat ∧ off.toNat < 0x1000 ∧ off.toNat % 0x400 / 4 < s.limbs then
        (if s.status.phase = .idle then
          (if off.toNat < 0x800 then { s with op0 := setLimb s.op0 (off.toNat % 0x400 / 4) v }
           else if off.toNat < 0xC00 then { s with op1 := setLimb s.op1 (off.toNat % 0x400 / 4) v }
           else { s with op2 := setLimb s.op2 (off.toNat % 0x400 / 4) v })
         else dropWrite s)
      else s)

/-- R64: a limb write replaces bits `[32k+31 : 32k]` and leaves every other bit of the value. -/
def Obligations.LimbWriteReplacesOneLimb : Prop :=
  ∀ (v k : Nat) (w : Word),
    setLimb v k w % 2 ^ (32 * k) = v % 2 ^ (32 * k) ∧
    setLimb v k w / 2 ^ (32 * k) % 2 ^ 32 = w.toNat ∧
    setLimb v k w / 2 ^ (32 * (k + 1)) = v / 2 ^ (32 * (k + 1))

/-- R67: the writes that are dropped with `ACCERR` are those to `CMD` and to an operand limb while `BUSY` or `FAULTED`;
no other write sets `ACCERR`, and no host access raises a fault. -/
def Obligations.DroppedWrites : Prop :=
  ∀ (s t : State) (off : Offset) (v : Word), hostWrite off v s = .next t →
    ((s.status.phase ≠ .idle ∧
        (off.toNat = 0x010 ∨ 0x400 ≤ off.toNat ∧ off.toNat < 0x1000 ∧ off.toNat % 0x400 / 4 < s.limbs)) →
      t = { s with status := { s.status with accerr := true } }) ∧
    (s.status.accerr = false → t.status.accerr = true →
      s.status.phase ≠ .idle ∧
        (off.toNat = 0x010 ∨ 0x400 ≤ off.toNat ∧ off.toNat < 0x1000 ∧ off.toNat % 0x400 / 4 < s.limbs)) ∧
    (s.status.fault = false → t.status.fault = false) ∧ (t.err = s.err ∨ t.err = .noFault) ∧
    (∀ u, hostRead off s = .next u → u.status = s.status ∧ u.err = s.err)

/-- R32: a write to `CTRL` with bit 31 = 0 stores bits [1:0] and nothing else, in every phase, and reads back as those two
bits; with bit 31 = 1 it is the reset, what a pulse of `rst` does, and the other bits of the write are discarded. -/
def Obligations.CtrlWriteStoresEnables : Prop :=
  ∀ (s : State) (v : Word),
    (v.getLsbD 31 = false → ∃ t, hostWrite 0x008 v s = .next t ∧ t = { s with ctrl := t.ctrl } ∧
      t.ctrl.ieDone = v.getLsbD 0 ∧ t.ctrl.ieFault = v.getLsbD 1 ∧ t.readValue 0x008 = v &&& 3 ∧
      t.irq = ((s.status.done && v.getLsbD 0) || (s.status.fault && v.getLsbD 1))) ∧
    (v.getLsbD 31 = true → ∃ t, hostWrite 0x008 v s = .next t ∧ t = resetBlock s ∧ t.readValue 0x008 = 0 ∧
      (s.env.rstAsserted = false → performAll [.rst true, .rst false] s = .next t))

/-- Only aligned words exist at the port (R69): a misaligned access is given no meaning, the treatment `refuse` of U12 in
spec/93.  That an offset can be misaligned at all, and the refusal's name, are the model's (log entry 4). -/
def Obligations.MisalignedAccessStops : Prop :=
  ∀ (s : State) (off : Offset) (v : Word), off.toNat % 4 ≠ 0 →
    hostRead off s = .refused .misalignedAccess ∧ hostWrite off v s = .refused .misalignedAccess

/-- `irq` is a pure function of `STATUS` and `CTRL` (R45): it is high exactly for an enabled `DONE` or an enabled `FAULT`, so
it stays low with both enables off, and clearing `DONE` or its enable takes the `DONE` source away (R220, R221). -/
def Obligations.IrqFollowsStatusAndEnables : Prop :=
  ∀ s : State,
    (s.irq = true ↔
      (s.readValue 0x00C).getLsbD 1 = true ∧ (s.readValue 0x008).getLsbD 0 = true ∨
      (s.readValue 0x00C).getLsbD 2 = true ∧ (s.readValue 0x008).getLsbD 1 = true) ∧
    (∃ t, hostWrite 0x00C 0x00000002 s = .next t ∧ (t.irq = true → s.status.fault = true))

/-! ### Acceptance, completion, fault -/

/-- A write to `CMD` (R41): in `IDLE` the word is latched and the sequencer becomes busy; otherwise only `ACCERR` is set. -/
def Obligations.CmdWriteStartsCommand : Prop :=
  ∀ (s : State) (w : Word),
    (s.status.phase = .idle → ∃ t, hostWrite 0x010 w s = .next t ∧
      t = { s with cmd := t.cmd, status := t.status, rv := t.rv, work := t.work } ∧
      t.cmd = w ∧ t.status = { s.status with done := false, busy := true } ∧ t.rv = .unspecified ∧
      t.work = some .accepted) ∧
    (s.status.phase ≠ .idle → hostWrite 0x010 w s =
      .next { s with status := { s.status with accerr := true } })

/-- R44: what a completion writes and what it leaves. -/
def Obligations.CompletionWritesResults : Prop :=
  ∀ (s : State) (r : Results),
    (complete r s).res0 = r.res0 ∧ (complete r s).res1.toInt = r.res1 ∧ (complete r s).res2.toInt = r.res2 ∧
    ((complete r s).res1.sign = true ↔ r.res1 < 0) ∧ ((complete r s).res2.sign = true ↔ r.res2 < 0) ∧
    (complete r s).rcnt = r.rcnt ∧ (complete r s).rtag = r.tag ∧ (complete r s).rv = .valid ∧
    (complete r s).status = { s.status with busy := false, done := true } ∧
    (complete r s).op0 = s.op0 ∧ (complete r s).op1 = s.op1 ∧ (complete r s).op2 = s.op2 ∧
    (complete r s).cmd = s.cmd ∧ (complete r s).ctrl = s.ctrl ∧ (complete r s).err = s.err ∧
    (complete r s).work = none ∧ (complete r s).request = none ∧ (complete r s).env = s.env

/-- R214: what the fault entry writes and what it leaves; the phase is then `FAULTED`. -/
def Obligations.FaultEntryWritesCause : Prop :=
  ∀ (s : State) (c : Cause),
    (raiseFault c s).err = c ∧ (raiseFault c s).status = { s.status with busy := false, fault := true } ∧
    (raiseFault c s).status.phase = .faulted ∧ (raiseFault c s).work = none ∧ (raiseFault c s).request = none ∧
    raiseFault c s = { s with
      err := (raiseFault c s).err, status := (raiseFault c s).status, work := none, request := none }

/-! ### What each command does -/

/-- R111: `MODEXP` delivers `base^exponent mod modulus`, or faults with `MODULUS_ZERO`. -/
def Obligations.ModexpComputesPower : Prop :=
  ∀ s : State, JustAccepted s →
    (s.op2 = 0 → exec .modexp s = .next (raiseFault .modulusZero s)) ∧
    (s.op2 ≠ 0 → exec .modexp s = .next (complete { res0 := s.op0 ^ s.op1 % s.op2, tag := .pos } s))

/-- R112: the loop invariant of `ModExp`, at the start and after every iteration, and what it gives at the exit. -/
def Obligations.ModExpLoopInvariant : Prop :=
  ∀ (base exponent modulus : Nat) (hm : 0 < modulus),
    ExpSound base exponent modulus (expInit base exponent modulus hm) ∧
    (∀ v v', ExpSound base exponent modulus v → expNext modulus hm v = some v' → ExpSound base exponent modulus v') ∧
    (∀ v, ExpSound base exponent modulus v → (expLoop modulus hm v).e = 0 ∧
      (expLoop modulus hm v).result = base ^ exponent % modulus)

/-- R113: the loop of `ModExp` runs exactly `bitlen(exponent)` times (`Nat.size` is the number of bits). -/
def Obligations.ModExpIterations : Prop :=
  ∀ (base exponent modulus n : Nat) (hm : 0 < modulus),
    ((loop (expNext modulus hm) n (expInit base exponent modulus hm)).e = 0 ↔ exponent.size ≤ n)

/-- R131: the table is the first 100 primes in increasing order. -/
def Obligations.SmallPrimesAreFirstHundred : Prop :=
  smallPrimes.length = 100 ∧ smallPrimes.SortedLT ∧ ∀ p : Nat, p ∈ smallPrimes ↔ p.Prime ∧ p ≤ 541

/-- R133: `TRIALDIV`: `POS` for a small prime, `NEG` for another number that one of them divides, else `UNDECIDED`; it
never faults. -/
def Obligations.TrialdivVerdicts : Prop :=
  ∀ s : State, JustAccepted s →
    (s.op0 ∈ smallPrimes → exec .trialdiv s = .next (complete { tag := .pos } s)) ∧
    (s.op0 ∉ smallPrimes → (∃ p ∈ smallPrimes, p ∣ s.op0) → exec .trialdiv s = .next (complete { tag := .neg } s)) ∧
    (s.op0 ∉ smallPrimes → (¬ ∃ p ∈ smallPrimes, p ∣ s.op0) →
      exec .trialdiv s = .next (complete { tag := .undecided } s))

/-- Which candidates trial division leaves open: exactly 1, and those from 547 on with no prime factor up to 541; so every
composite below 547^2 is rejected (R134). -/
def Obligations.TrialDivisionUndecided : Prop :=
  (∀ c : Nat, trialDiv c = .undecided ↔ c = 1 ∨ (547 ≤ c ∧ ∀ p : Nat, p.Prime → p ∣ c → 541 < p)) ∧
  (∀ c : Nat, 2 ≤ c → c < 299209 → ¬ c.Prime → trialDiv c = .reject) ∧ trialDiv 0 = .reject

/-- R136: `REWRITE` delivers `v = 2^s * d` with `d` odd, or faults with `REWRITE_ZERO`. -/
def Obligations.RewriteDecomposes : Prop :=
  ∀ s : State, JustAccepted s →
    (s.op0 = 0 → exec .rewrite s = .next (raiseFault .rewriteZero s)) ∧
    (∀ k d : Nat, d % 2 = 1 → s.op0 = 2 ^ k * d →
      exec .rewrite s = .next (complete { res0 := d, rcnt := k, tag := .pos } s) ∧
      (s.op0 < 2 ^ s.width → k ≤ s.width - 1) ∧
      ∀ n, rewriteNext (loop rewriteNext n (rewriteInit s.op0)) = none ↔ k ≤ n) ∧
    (s.op0 ≠ 0 → ∃ k d : Nat, d % 2 = 1 ∧ s.op0 = 2 ^ k * d ∧ d ≤ s.op0 ∧ k < s.op0.size)

/-- The candidates `MRTEST` settles with no draw: 2 and 3 are prime, every other even number is composite, and 1 faults
with `CANDIDATE_DOMAIN`, in `MRTEST` and in `ISPRIME` (R137, R138). -/
def Obligations.MrtestSpecialCases : Prop :=
  ∀ s : State,
    (s.op0 = 2 ∨ s.op0 = 3 → exec .mrtest s = .next (complete { tag := .pos } s)) ∧
    (s.op0 ≠ 2 → s.op0 % 2 = 0 → exec .mrtest s = .next (complete { tag := .neg } s)) ∧
    (s.op0 = 1 → exec .mrtest s = .next (raiseFault .candidateDomain s) ∧
      exec .isprime s = .next (raiseFault .candidateDomain s))

/-- The general path of `MRTEST` when every answer passes its round: after exactly 128 draws the verdict is "probably
prime" (R139, R140, R142). -/
def Obligations.MrtestProbablyPrime : Prop :=
  ∀ (s : State) (answers rest : List Nat), JustAccepted s → 5 ≤ s.op0 → s.op0 % 2 = 1 →
    s.env.script = answers ++ rest → answers.length = 128 →
    (∀ a ∈ answers, InRange s.op0 a ∧ Survives s.op0 a) →
    exec .mrtest s = .next (complete { tag := .pos } (afterDraws 128 rest s))

/-- The general path of `MRTEST` when an answer fails its round: the verdict is "composite" at once, and no later round
draws (R139, R140, R142). -/
def Obligations.MrtestComposite : Prop :=
  ∀ (s : State) (passing rest : List Nat) (a : Nat), JustAccepted s → 5 ≤ s.op0 → s.op0 % 2 = 1 →
    s.env.script = passing ++ a :: rest → passing.length < 128 →
    (∀ b ∈ passing, InRange s.op0 b ∧ Survives s.op0 b) → InRange s.op0 a → ¬ Survives s.op0 a →
    exec .mrtest s = .next (complete { tag := .neg } (afterDraws (passing.length + 1) rest s))

/-- When the sampler does not answer, `MRTEST` holds with its request outstanding, and so does `ISPRIME` where trial
division leaves the candidate open: nothing but the working variables, the request and the sampler's side has changed, so
the results are untouched and `BUSY` stays; no move of the sequencer and no answer to an earlier request changes anything,
and the sampler's answer lifts the hold: the command then goes on exactly as if that answer had stood first among those the
sampler gives at once, so it is the round's witness (R78, R79, R139, R240).  That one move gets as far as this is log entry 7
(DEDUCED). -/
def Obligations.MrtestHoldsForAnswer : Prop :=
  ∀ (i : Instr) (s : State) (passing : List Nat),
    (i = .mrtest ∨ (i = .isprime ∧ ¬ ∃ p ∈ smallPrimes, p ∣ s.op0)) →
    JustAccepted s → s.status.busy = true → s.env.rstAsserted = false → s.cmd = encode i →
    5 ≤ s.op0 → s.op0 % 2 = 1 → s.env.script = passing → passing.length < 128 →
    (∀ b ∈ passing, InRange s.op0 b ∧ Survives s.op0 b) →
    ∃ t, exec i s = .next t ∧
      t = { s with work := t.work, request := some ⟨2, s.op0 - 2⟩, env := (afterDraws (passing.length + 1) [] s).env } ∧
      perform .run t = .next t ∧ perform .tick t = .next t ∧
      (∀ n a, n ≠ t.env.asked.length → perform (.answer n a) t = .next t) ∧
      ∀ a, InRange s.op0 a → ∃ u, perform (.answer t.env.asked.length a) t = .next u ∧
        u = { t with work := u.work, request := none } ∧ u.work ≠ t.work ∧
        ∀ more, exec i { u with env := { u.env with script := more } } =
          exec i { t with env := { t.env with script := a :: more } }

/-- An answer outside the range asked for has no meaning, and the model refuses it (R78; U7 of spec/93), whether the command
finds it at once or it comes as an event while the request is outstanding.  An answer to a request that is not outstanding
is discarded, in range or not (R240). -/
def Obligations.OutOfRangeAnswerRefused : Prop :=
  (∀ (i : Instr) (s : State) (passing rest : List Nat) (a : Nat),
    (i = .mrtest ∨ (i = .isprime ∧ ¬ ∃ p ∈ smallPrimes, p ∣ s.op0)) →
    JustAccepted s → 5 ≤ s.op0 → s.op0 % 2 = 1 →
    s.env.script = passing ++ a :: rest → passing.length < 128 →
    (∀ b ∈ passing, InRange s.op0 b ∧ Survives s.op0 b) → ¬ InRange s.op0 a →
    exec i s = .refused .samplerOutOfRange) ∧
  (∀ (s : State) (q : Request) (a : Nat), Coherent s → s.request = some q → ¬ (q.lo ≤ a ∧ a ≤ q.hi) →
    perform (.answer s.env.asked.length a) s = .refused .samplerOutOfRange) ∧
  (∀ (s : State) (n a : Nat), s.env.rstAsserted = false → (s.request = none ∨ n ≠ s.env.asked.length) →
    perform (.answer n a) s = .next s)

/-- R143 (a): no false negatives: a prime candidate never gets the verdict "composite", whatever the sampler answers and
wherever the test stands, as long as its working variables are sound. -/
def Obligations.PrimesAreNeverRejected : Prop :=
  ∀ (i : Instr) (s t : State), i = .mrtest ∨ i = .isprime → s.op0.Prime → WorkSound s →
    exec i s = .next t → t.status.fault = s.status.fault ∧ (s.status.busy = true → t.status.busy = false → t.rtag = .pos)

/-- `ISPRIME` is trial division, and `MRTEST` where trial division leaves the candidate open (R145, R146). -/
def Obligations.IsprimeCombinesTests : Prop :=
  ∀ s : State, JustAccepted s →
    (s.op0 ∈ smallPrimes → exec .isprime s = .next (complete { tag := .pos } s)) ∧
    (s.op0 ∉ smallPrimes → (∃ p ∈ smallPrimes, p ∣ s.op0) → exec .isprime s = .next (complete { tag := .neg } s)) ∧
    (s.op0 = 1 → exec .isprime s = .next (raiseFault .candidateDomain s)) ∧
    ((¬ ∃ p ∈ smallPrimes, p ∣ s.op0) → exec .isprime s = exec .mrtest s)

/-- R147: `ISPRIME` is exact below `547^2`: a composite is rejected with no draw, a prime is accepted whatever the sampler
answers in range, 0 is rejected, and 1 faults. -/
def Obligations.IsprimeExactOnSmallCandidates : Prop :=
  ∀ s : State, JustAccepted s →
    (s.op0 = 0 → exec .isprime s = .next (complete { tag := .neg } s)) ∧
    (s.op0 = 1 → exec .isprime s = .next (raiseFault .candidateDomain s)) ∧
    (2 ≤ s.op0 → s.op0 < 299209 → ¬ s.op0.Prime → exec .isprime s = .next (complete { tag := .neg } s)) ∧
    (s.op0 < 299209 → s.op0.Prime → s.op0 ≤ 541 → exec .isprime s = .next (complete { tag := .pos } s)) ∧
    (∀ answers rest : List Nat, s.op0 < 299209 → s.op0.Prime → 541 < s.op0 → s.env.script = answers ++ rest →
      answers.length = 128 → (∀ a ∈ answers, InRange s.op0 a) →
      exec .isprime s = .next (complete { tag := .pos } (afterDraws 128 rest s)))

/-- `EGCD` delivers the gcd and exactly the pair of the recurrence (R171, R175), and never faults.  Mathlib's
`Nat.gcdA y x` and `Nat.gcdB y x` are the coefficients of `y` and `x` that the same recurrence gives, begun at
`(old_r, r) = (x, y)`; they satisfy Bézout's equation, and R175's general rows follow. -/
def Obligations.EgcdDeliversBezout : Prop :=
  ∀ s : State, JustAccepted s →
    exec .egcd s = .next (complete
      { res0 := Nat.gcd s.op0 s.op1, res1 := Nat.gcdB s.op1 s.op0, res2 := Nat.gcdA s.op1 s.op0, tag := .pos } s) ∧
    (s.op0 : Int) * Nat.gcdB s.op1 s.op0 + (s.op1 : Int) * Nat.gcdA s.op1 s.op0 = (Nat.gcd s.op0 s.op1 : Int) ∧
    (s.op1 = 0 → exec .egcd s = .next (complete { res0 := s.op0, res1 := 1, res2 := 0, tag := .pos } s)) ∧
    (0 < s.op1 → s.op0 = 0 ∨ s.op0 = s.op1 →
      exec .egcd s = .next (complete { res0 := s.op1, res1 := 0, res2 := 1, tag := .pos } s))

/-- The coefficients `EGCD` delivers are bounded, so that they fit the result registers (R174). -/
def Obligations.EgcdCoefficientBounds : Prop :=
  ∀ s t : State, JustAccepted s → exec .egcd s = .next t →
    t.res1.mag ≤ max s.op0 (max s.op1 1) ∧ t.res2.mag ≤ max s.op0 (max s.op1 1) ∧
    (0 < Nat.gcd s.op0 s.op1 →
      t.res1.mag ≤ max (s.op1 / Nat.gcd s.op0 s.op1) 1 ∧ t.res2.mag ≤ max (s.op0 / Nat.gcd s.op0 s.op1) 1)

/-- R178: `INVMOD` delivers the unique inverse in `[0, n)`, or "no inverse" as a completion, or faults when `n = 0`. -/
def Obligations.InvmodDeliversInverse : Prop :=
  ∀ s : State, JustAccepted s →
    (s.op1 = 0 → exec .invmod s = .next (raiseFault .invmodModulusZero s)) ∧
    (s.op1 ≠ 0 → Nat.gcd s.op0 s.op1 ≠ 1 → exec .invmod s = .next (complete { res0 := 0, tag := .neg } s)) ∧
    (s.op1 ≠ 0 → Nat.gcd s.op0 s.op1 = 1 → ∃ x : Nat, x < s.op1 ∧ s.op0 * x % s.op1 = 1 % s.op1 ∧
      (∀ y < s.op1, s.op0 * y % s.op1 = 1 % s.op1 → y = x) ∧
      exec .invmod s = .next (complete { res0 := x, tag := .pos } s))

/-! ### Frames -/

/-- No command changes an operand register, `CMD`, `CTRL`, `ACCERR`, the build, or what is pending at the host (R43, R44,
R214). -/
def Obligations.CommandFrame : Prop :=
  ∀ (i : Instr) (s t : State), exec i s = .next t →
    t.op0 = s.op0 ∧ t.op1 = s.op1 ∧ t.op2 = s.op2 ∧ t.cmd = s.cmd ∧ t.ctrl = s.ctrl ∧
    t.status.accerr = s.status.accerr ∧ t.limbs = s.limbs ∧
    t.env = { s.env with script := t.env.script, asked := t.env.asked }

/-- `MODEXP`, `TRIALDIV`, `REWRITE`, `EGCD`, `INVMOD` make no random request: the whole outside is unchanged, and they end
in completion or fault (R111, R133, R136, R171, R178).  That one move of the sequencer takes them there is the model's
granularity (log entry 7, DEDUCED): R250 leaves the duration open. -/
def Obligations.DrawlessCommandFrame : Prop :=
  ∀ (i : Instr) (s : State), i ≠ .mrtest → i ≠ .isprime →
    ∃ t, exec i s = .next t ∧ t.env = s.env ∧ t.status.busy = false ∧ t.work = none ∧ t.request = none

/-- The results each command defines (R93): every other result register is 0, and the tag is one of the command's. -/
def Obligations.ResultTable : Prop :=
  ∀ (i : Instr) (s t : State), s.status.busy = true → s.status.fault = false → exec i s = .next t →
    t.status.busy = false → t.status.fault = false →
    t.status.done = true ∧ t.rv = .valid ∧ t.err = s.err ∧
    match i with
    | .modexp => t.res1.toInt = 0 ∧ t.res2.toInt = 0 ∧ t.rcnt = 0 ∧ t.rtag = .pos
    | .trialdiv => t.res0 = 0 ∧ t.res1.toInt = 0 ∧ t.res2.toInt = 0 ∧ t.rcnt = 0
    | .rewrite => t.res1.toInt = 0 ∧ t.res2.toInt = 0 ∧ t.rtag = .pos
    | .mrtest | .isprime => t.res0 = 0 ∧ t.res1.toInt = 0 ∧ t.res2.toInt = 0 ∧ t.rcnt = 0 ∧ t.rtag ≠ .undecided
    | .egcd => t.rcnt = 0 ∧ t.rtag = .pos
    | .invmod => t.res1.toInt = 0 ∧ t.res2.toInt = 0 ∧ t.rcnt = 0 ∧ t.rtag ≠ .undecided

/-- A command that faults writes no result: the result registers, `RV` and `DONE` are as before, only the operand check of
that command raises it, and no request was made (R213, R214, R217). -/
def Obligations.FaultedCommandWritesNothing : Prop :=
  ∀ (i : Instr) (s t : State), s.status.fault = false → exec i s = .next t → t.status.fault = true →
    t = raiseFault t.err s ∧
    ((i = .modexp ∧ t.err = .modulusZero ∧ s.op2 = 0) ∨ (i = .rewrite ∧ t.err = .rewriteZero ∧ s.op0 = 0) ∨
     ((i = .mrtest ∨ i = .isprime) ∧ t.err = .candidateDomain ∧ s.op0 = 1) ∨
     (i = .invmod ∧ t.err = .invmodModulusZero ∧ s.op1 = 0))

/-- A command's outcome depends only on its operands, its working variables and the sampler: two states that agree on
these end alike, whatever their flags, enables and old results (R28, R42). -/
def Obligations.OutcomeIgnoresFlags : Prop :=
  ∀ (i : Instr) (s t u : State),
    s.op0 = t.op0 → s.op1 = t.op1 → s.op2 = t.op2 → s.work = t.work → s.request = t.request →
    s.env.script = t.env.script → s.status.busy = true → t.status.busy = true → s.status.fault = t.status.fault →
    exec i s = .next u → u.status.busy = false →
    ∃ w, exec i t = .next w ∧ w.status.busy = false ∧ w.status.fault = u.status.fault ∧
      (u.status.fault = false →
        w.res0 = u.res0 ∧ w.res1 = u.res1 ∧ w.res2 = u.res2 ∧ w.rcnt = u.rcnt ∧ w.rtag = u.rtag) ∧
      (s.status.fault = false → u.status.fault = true → w.err = u.err) ∧ w.env.script = u.env.script

/-! ### Invariants, kept by every step -/

/-- The state after reset is coherent, sound, and explains its (absent) fault. -/
def Obligations.ResetSatisfiesInvariants : Prop :=
  Coherent State.reset ∧ Sound State.reset ∧ faultExplained State.reset = true

/-- Every step keeps the flags, `ERR`, `RV`, the working variables and the outstanding request in agreement: `BUSY`, `DONE`,
`FAULT` exclude each other, working variables exist exactly while `BUSY`, the results are valid exactly in `IDLE`, and a
request is outstanding only in a Miller–Rabin round (R26, R33, R40, R46). -/
def Obligations.StepKeepsCoherence : Prop :=
  ∀ s t : State, Coherent s → step s = .next t → Coherent t

/-- Every step keeps the build legal, every register within its width, zero unsigned, and every engine's loop invariant
true of its working variables (R21 to R25, R112, R136, R173, R174, R179, R180). -/
def Obligations.StepKeepsSoundness : Prop :=
  ∀ s t : State, Coherent s → Sound s → step s = .next t → Sound t

/-- Every step keeps it true that, while `FAULTED`, `CMD` and the operands show why (R211, R215). -/
def Obligations.StepKeepsFaultExplained : Prop :=
  ∀ s t : State, Coherent s → faultExplained s = true → step s = .next t → faultExplained t = true

/-- No step changes the build parameter (R8, R31, R242). -/
def Obligations.StepKeepsBuild : Prop :=
  ∀ s t : State, step s = .next t → t.limbs = s.limbs

/-! ### Whole-machine rules -/

/-- The transitions between the phases (R40): `IDLE` to `BUSY` only by a write to `CMD`; `BUSY` to `IDLE` or `FAULTED` only by
a move of the sequencer or, to `IDLE`, by reset; out of `FAULTED` only by reset. -/
def Obligations.PhaseTransitions : Prop :=
  ∀ s t : State, FlagsExclusive s.status → step s = .next t → t.status.phase ≠ s.status.phase →
    (s.status.phase = .idle ∧ t.status.phase = .busy ∧ ∃ w, nextEvent s = wr 0x010 w) ∨
    (s.status.phase = .busy ∧ (nextEvent s = .run ∨ nextEvent s = .tick)) ∨
    (t.status.phase = .idle ∧ resets s = true)

/-- The only way out of a fault is reset; until then `ERR`, `CMD`, the operands and the results stay as they are, and no
command is accepted (R218, R248). -/
def Obligations.FaultIsSticky : Prop :=
  ∀ s t : State, Coherent s → s.status.fault = true → step s = .next t → resets s = false →
    t.status.phase = .faulted ∧ t.status.fault = true ∧ t.status.done = false ∧
    t = { s with ctrl := t.ctrl, status := t.status, env := t.env }

/-- An operand register changes only by a host write to one of its limbs in `IDLE`, or by reset (R21, R43). -/
def Obligations.OperandsChangeOnlyByHost : Prop :=
  ∀ s t : State, step s = .next t → (t.op0 ≠ s.op0 ∨ t.op1 ≠ s.op1 ∨ t.op2 ≠ s.op2) →
    (s.status.phase = .idle ∧ ∃ (off : Offset) (v : Word), nextEvent s = wr off v ∧ 0x400 ≤ off.toNat ∧ off.toNat < 0x1000 ∧
      t = { s with op0 := t.op0, op1 := t.op1, op2 := t.op2, env := t.env }) ∨
    resets s = true

/-- The result registers, with their signs, `RCNT` and `RTAG` are written only by a completion or by reset (R22, R23, R44). -/
def Obligations.ResultsChangeOnlyByCompletion : Prop :=
  ∀ s t : State, step s = .next t →
    (t.res0 ≠ s.res0 ∨ t.res1 ≠ s.res1 ∨ t.res2 ≠ s.res2 ∨ t.rcnt ≠ s.rcnt ∨ t.rtag ≠ s.rtag) →
    (s.status.phase = .busy ∧ (nextEvent s = .run ∨ nextEvent s = .tick) ∧ t.status.busy = false ∧
      t.status.done = true ∧ t.rv = .valid) ∨
    resets s = true

/-- `ERR` is written only by fault entry and cleared only by reset (R35). -/
def Obligations.ErrChangesOnlyByFault : Prop :=
  ∀ s t : State, step s = .next t → t.err ≠ s.err →
    (s.status.phase = .busy ∧ t.status.fault = true ∧ t.err ≠ .noFault) ∨
    (resets s = true ∧ t.err = .noFault)

/-- The sequencer's small steps and its run agree: one loop iteration of a command in progress either ends it exactly as the
run does, or leaves a state from which the run ends exactly as before.  So how many steps a command takes is not observable
in its outcome (R42, R250).  An iteration is refused only where the run is, and, in a coherent state (so that an outstanding
request is the one the command made), after some number of iterations the command stands exactly where the run takes it: at
its end, at a request not answered, or at the refusal.  Both granularities are the model's (log entry 7, DEDUCED). -/
def Obligations.IterationThenRunIsRun : Prop :=
  ∀ (i : Instr) (s : State), WorkSound s → s.status.busy = true →
    (∀ t, tick i s = .next t →
      (t.status.busy = false → exec i s = .next t) ∧ (t.status.busy = true → exec i t = exec i s)) ∧
    (∀ r, tick i s = .refused r → exec i s = .refused r) ∧
    (Coherent s → ∃ n, ticks i n s = exec i s)

/-- A move of the sequencer ends the command, or leaves it waiting for the sampler with its request outstanding, or, where
the sampler answered out of range, is refused: a command never waits for anything else (R79, R250).  That one move gets as
far as this is the model's granularity (log entry 7, DEDUCED), since R250 leaves the duration open; the refusal is log
entry 5 (DEDUCED from U7 of spec/93). -/
def Obligations.RunEndsOrWaitsForSampler : Prop :=
  ∀ (i : Instr) (s : State), s.status.busy = true →
    (∃ t, exec i s = .next t ∧ t.status.busy = false ∧ t.work = none ∧ t.request = none) ∨
    (∃ t, exec i s = .next t ∧ t.status.busy = true ∧ t.request = some ⟨2, s.op0 - 2⟩ ∧ t.env.script = []) ∨
    exec i s = .refused .samplerOutOfRange

/-! ### Host transactions and host sequences -/

/-- `LOAD X, v` (R95): from `IDLE`, the writes of every limb leave the operand register holding `v`, and nothing else
changed. -/
def Obligations.LoadSetsOperand : Prop :=
  ∀ (s : State) (v : Nat), LegalBuild s → Fits s → s.status.phase = .idle → s.env.rstAsserted = false →
    v < 2 ^ s.width →
    performAll (load s.limbs .op0 v) s = .next { s with op0 := v } ∧
    performAll (load s.limbs .op1 v) s = .next { s with op1 := v } ∧
    performAll (load s.limbs .op2 v) s = .next { s with op2 := v }

/-- A whole transaction of `MODEXP` by the protocol (R244), from any phase: an older command ends first, a faulted block is
reset first; then load three operands, write `CMD`, poll, and fetch `base^exponent mod modulus`.  For the modulus 0 the host
reads the cause from `ERR` and resets the block.  That the block moves once before each poll is the `Manner` spoken of
(log entry 7). -/
def Obligations.ModexpTransaction : Prop :=
  ∀ (s : State) (b e m : Nat), Usable s → (∃ u, perform .run s = .next u ∧ u.status.phase ≠ .busy) →
    b < 2 ^ s.width → e < 2 ^ s.width → m < 2 ^ s.width →
    (0 < m → ∃ t, call .prompt .modexp [b, e, m] s = (.ok 0x00000001, t) ∧ Usable t ∧ t.status.phase = .idle ∧
      t.limbs = s.limbs ∧ fetch .res0 t = b ^ e % m) ∧
    (m = 0 → ∃ t, call .prompt .modexp [b, e, m] s = (.error (.blockFault 0x00000002), t) ∧ t = resetBlock t ∧
      t.limbs = s.limbs)

/-- `gen_keys` (R194).  On chosen primes, from a block that is not `BUSY`, in the one manner `Manner.prompt`, in which a single
move of the sequencer ends the `INVMOD` (log entries 7 and 12): where it succeeds, `n = p q` and `d` is the inverse of `e` modulo `(p-1)(q-1)`;
where `e` has none, it fails and returns no key.  By search, whatever the samples and however the tests go, on a host that
gives up when a candidate outgrows its bit length: both numbers are odd, pass the filter of R193 and have at most
`key_size / 2` bits, so `n < 2^key_size` for an even key size. -/
def Obligations.KeyGenerationInverse : Prop :=
  (∀ (s : State) (keySize e p q : Nat), Usable s → s.status.phase ≠ .busy → p.Prime → q.Prime →
    e < 2 ^ s.width → (p - 1) * (q - 1) < 2 ^ s.width →
    (Nat.gcd e ((p - 1) * (q - 1)) = 1 → ∃ d t,
      keysOfPrimes .prompt keySize e p q s = (.ok (⟨e, p * q, keySize⟩, ⟨d, p * q⟩), t) ∧
      d < (p - 1) * (q - 1) ∧ d * e % ((p - 1) * (q - 1)) = 1 % ((p - 1) * (q - 1))) ∧
    (Nat.gcd e ((p - 1) * (q - 1)) ≠ 1 → ∃ t, keysOfPrimes .prompt keySize e p q s = (.error .invalidModularInverse, t))) ∧
  ∀ (h : HostChoices) (attempts : List PrimeAttempt) (m : Manner) (keySize e : Nat) (s t : State) (pub : PublicKey)
    (priv : PrivateKey), (∀ b c, h.outgrown b c = none) → 2 ≤ keySize →
    genKeys h (.search attempts) m keySize e s = (.ok (pub, priv), t) →
    ∃ p q, pub = ⟨e, p * q, keySize⟩ ∧ priv.n = p * q ∧ p % 2 = 1 ∧ q % 2 = 1 ∧
      p < 2 ^ h.half keySize ∧ q < 2 ^ h.half keySize ∧ (0 < e → p % e ≠ 1 ∧ q % e ≠ 1) ∧
      (keySize % 2 = 0 → pub.n < 2 ^ keySize)

/-- The round trip of textbook RSA over the block (R199): for distinct primes and an inverse pair `e`, `d`, `MODEXP` with
`d` undoes `MODEXP` with `e` on every `m < n`.  Both transactions start from a block that is not `BUSY` and go in the one
manner `Manner.prompt`, in which a single move of the sequencer ends the command (log entries 7 and 12). -/
def Obligations.RsaRoundTrip : Prop :=
  ∀ (s : State) (m e d p q : Nat), Usable s → s.status.phase ≠ .busy →
    p.Prime → q.Prime → p ≠ q → p * q < 2 ^ s.width → e < 2 ^ s.width → d < 2 ^ s.width →
    d * e % ((p - 1) * (q - 1)) = 1 % ((p - 1) * (q - 1)) → m < p * q →
    ∃ t u, call .prompt .modexp [m, e, p * q] s = (.ok 0x00000001, t) ∧
      call .prompt .modexp [fetch .res0 t, d, p * q] t = (.ok 0x00000001, u) ∧ fetch .res0 u = m

/-- `decrypt(encrypt(m)) = m` (R199), whatever the `HostChoices`: for every text short enough whose bytes do not start with
a zero byte and whose integer is below `n`, the precondition R199 and conflict C4 name.  The empty text is left out: its
integer is 0, whose byte string is open (N13 of spec/91).  Both transactions start from a block that is not `BUSY` and go in
the one manner `Manner.prompt`, in which a single move of the sequencer ends the command (log entries 7 and 12).  A message that is too long fails
with no access to the block (R196); at key size 1024 that is one of 128 bytes or more.  And the scenario "hello" (R199):
its ciphertext is the form of `m^3 mod n`, and it decrypts to "hello". -/
def Obligations.DecryptUndoesEncrypt : Prop :=
  (∀ (h : HostChoices) (s : State) (text : String) (keySize e d p q : Nat), Usable s → s.status.phase ≠ .busy →
    p.Prime → q.Prime → p ≠ q → p * q < 2 ^ s.width → e < 2 ^ s.width → d < 2 ^ s.width →
    d * e % ((p - 1) * (q - 1)) = 1 % ((p - 1) * (q - 1)) →
    (h.bytesOfText text).length < h.eighth keySize → natOfBytes (h.bytesOfText text) < p * q →
    h.bytesOfText text ≠ [] → (h.bytesOfText text).head? ≠ some 0 →
    ∃ c t u, encrypt h .prompt ⟨e, p * q, keySize⟩ text s = (.ok c, t) ∧
      decrypt h .prompt ⟨d, p * q⟩ c t = (.ok text, u)) ∧
  (∀ (h : HostChoices) (m : Manner) (key : PublicKey) (text : String) (s : State),
    (h.eighth key.keySize ≤ (h.bytesOfText text).length ∨ (key.keySize = 1024 ∧ 128 ≤ (h.bytesOfText text).length)) →
    encrypt h m key text s = (.error .messageTooLong, s)) ∧
  ∀ (h : HostChoices) (s : State) (d p q : Nat), Usable s → s.status.phase ≠ .busy →
    p.Prime → q.Prime → p ≠ q → 0x68656C6C6F < p * q → p * q < 2 ^ s.width → d < 2 ^ s.width →
    d * 3 % ((p - 1) * (q - 1)) = 1 % ((p - 1) * (q - 1)) →
    h.bytesOfText "hello" = [0x68, 0x65, 0x6C, 0x6C, 0x6F] →
    ∃ t u, encrypt h .prompt ⟨3, p * q, 1024⟩ "hello" s =
        (.ok (h.hexOfBytes (bytesBe h (0x68656C6C6F ^ 3 % (p * q)))), t) ∧
      decrypt h .prompt ⟨d, p * q⟩ (h.hexOfBytes (bytesBe h (0x68656C6C6F ^ 3 % (p * q)))) t = (.ok "hello", u)
end

