-- ==== Sys2Proof/Laws/State.lean ====
section
/-! SUPPORT. One lemma per field of the state for each named update of it, so that no proof unfolds a record update. -/

namespace Sys2Proof.Machine

/-! ### `complete` -/

@[simp] theorem complete_limbs (r : Results) (s : State) : (complete r s).limbs = s.limbs := rfl
@[simp] theorem complete_op0 (r : Results) (s : State) : (complete r s).op0 = s.op0 := rfl
@[simp] theorem complete_op1 (r : Results) (s : State) : (complete r s).op1 = s.op1 := rfl
@[simp] theorem complete_op2 (r : Results) (s : State) : (complete r s).op2 = s.op2 := rfl
@[simp] theorem complete_res0 (r : Results) (s : State) : (complete r s).res0 = r.res0 := rfl
@[simp] theorem complete_res1 (r : Results) (s : State) : (complete r s).res1 = SignMag.ofInt r.res1 := rfl
@[simp] theorem complete_res2 (r : Results) (s : State) : (complete r s).res2 = SignMag.ofInt r.res2 := rfl
@[simp] theorem complete_rcnt (r : Results) (s : State) : (complete r s).rcnt = r.rcnt := rfl
@[simp] theorem complete_rtag (r : Results) (s : State) : (complete r s).rtag = r.tag := rfl
@[simp] theorem complete_rv (r : Results) (s : State) : (complete r s).rv = .valid := rfl
@[simp] theorem complete_ctrl (r : Results) (s : State) : (complete r s).ctrl = s.ctrl := rfl
@[simp] theorem complete_status (r : Results) (s : State) : (complete r s).status = { s.status with busy := false, done := true } := rfl
@[simp] theorem complete_cmd (r : Results) (s : State) : (complete r s).cmd = s.cmd := rfl
@[simp] theorem complete_err (r : Results) (s : State) : (complete r s).err = s.err := rfl
@[simp] theorem complete_work (r : Results) (s : State) : (complete r s).work = none := rfl
@[simp] theorem complete_request (r : Results) (s : State) : (complete r s).request = none := rfl
@[simp] theorem complete_env (r : Results) (s : State) : (complete r s).env = s.env := rfl

/-! ### `raiseFault` -/

@[simp] theorem raiseFault_limbs (c : Cause) (s : State) : (raiseFault c s).limbs = s.limbs := rfl
@[simp] theorem raiseFault_op0 (c : Cause) (s : State) : (raiseFault c s).op0 = s.op0 := rfl
@[simp] theorem raiseFault_op1 (c : Cause) (s : State) : (raiseFault c s).op1 = s.op1 := rfl
@[simp] theorem raiseFault_op2 (c : Cause) (s : State) : (raiseFault c s).op2 = s.op2 := rfl
@[simp] theorem raiseFault_res0 (c : Cause) (s : State) : (raiseFault c s).res0 = s.res0 := rfl
@[simp] theorem raiseFault_res1 (c : Cause) (s : State) : (raiseFault c s).res1 = s.res1 := rfl
@[simp] theorem raiseFault_res2 (c : Cause) (s : State) : (raiseFault c s).res2 = s.res2 := rfl
@[simp] theorem raiseFault_rcnt (c : Cause) (s : State) : (raiseFault c s).rcnt = s.rcnt := rfl
@[simp] theorem raiseFault_rtag (c : Cause) (s : State) : (raiseFault c s).rtag = s.rtag := rfl
@[simp] theorem raiseFault_rv (c : Cause) (s : State) : (raiseFault c s).rv = s.rv := rfl
@[simp] theorem raiseFault_ctrl (c : Cause) (s : State) : (raiseFault c s).ctrl = s.ctrl := rfl
@[simp] theorem raiseFault_status (c : Cause) (s : State) : (raiseFault c s).status = { s.status with busy := false, fault := true } := rfl
@[simp] theorem raiseFault_cmd (c : Cause) (s : State) : (raiseFault c s).cmd = s.cmd := rfl
@[simp] theorem raiseFault_err (c : Cause) (s : State) : (raiseFault c s).err = c := rfl
@[simp] theorem raiseFault_work (c : Cause) (s : State) : (raiseFault c s).work = none := rfl
@[simp] theorem raiseFault_request (c : Cause) (s : State) : (raiseFault c s).request = none := rfl
@[simp] theorem raiseFault_env (c : Cause) (s : State) : (raiseFault c s).env = s.env := rfl

/-! ### `accept` -/

@[simp] theorem accept_limbs (w : Word) (s : State) : (accept w s).limbs = s.limbs := rfl
@[simp] theorem accept_op0 (w : Word) (s : State) : (accept w s).op0 = s.op0 := rfl
@[simp] theorem accept_op1 (w : Word) (s : State) : (accept w s).op1 = s.op1 := rfl
@[simp] theorem accept_op2 (w : Word) (s : State) : (accept w s).op2 = s.op2 := rfl
@[simp] theorem accept_res0 (w : Word) (s : State) : (accept w s).res0 = s.res0 := rfl
@[simp] theorem accept_res1 (w : Word) (s : State) : (accept w s).res1 = s.res1 := rfl
@[simp] theorem accept_res2 (w : Word) (s : State) : (accept w s).res2 = s.res2 := rfl
@[simp] theorem accept_rcnt (w : Word) (s : State) : (accept w s).rcnt = s.rcnt := rfl
@[simp] theorem accept_rtag (w : Word) (s : State) : (accept w s).rtag = s.rtag := rfl
@[simp] theorem accept_rv (w : Word) (s : State) : (accept w s).rv = .unspecified := rfl
@[simp] theorem accept_ctrl (w : Word) (s : State) : (accept w s).ctrl = s.ctrl := rfl
@[simp] theorem accept_status (w : Word) (s : State) : (accept w s).status = { s.status with done := false, busy := true } := rfl
@[simp] theorem accept_cmd (w : Word) (s : State) : (accept w s).cmd = w := rfl
@[simp] theorem accept_err (w : Word) (s : State) : (accept w s).err = s.err := rfl
@[simp] theorem accept_work (w : Word) (s : State) : (accept w s).work = some .accepted := rfl
@[simp] theorem accept_request (w : Word) (s : State) : (accept w s).request = s.request := rfl
@[simp] theorem accept_env (w : Word) (s : State) : (accept w s).env = s.env := rfl

/-! ### `dropWrite` -/

@[simp] theorem dropWrite_limbs (s : State) : (dropWrite s).limbs = s.limbs := rfl
@[simp] theorem dropWrite_op0 (s : State) : (dropWrite s).op0 = s.op0 := rfl
@[simp] theorem dropWrite_op1 (s : State) : (dropWrite s).op1 = s.op1 := rfl
@[simp] theorem dropWrite_op2 (s : State) : (dropWrite s).op2 = s.op2 := rfl
@[simp] theorem dropWrite_res0 (s : State) : (dropWrite s).res0 = s.res0 := rfl
@[simp] theorem dropWrite_res1 (s : State) : (dropWrite s).res1 = s.res1 := rfl
@[simp] theorem dropWrite_res2 (s : State) : (dropWrite s).res2 = s.res2 := rfl
@[simp] theorem dropWrite_rcnt (s : State) : (dropWrite s).rcnt = s.rcnt := rfl
@[simp] theorem dropWrite_rtag (s : State) : (dropWrite s).rtag = s.rtag := rfl
@[simp] theorem dropWrite_rv (s : State) : (dropWrite s).rv = s.rv := rfl
@[simp] theorem dropWrite_ctrl (s : State) : (dropWrite s).ctrl = s.ctrl := rfl
@[simp] theorem dropWrite_status (s : State) : (dropWrite s).status = { s.status with accerr := true } := rfl
@[simp] theorem dropWrite_cmd (s : State) : (dropWrite s).cmd = s.cmd := rfl
@[simp] theorem dropWrite_err (s : State) : (dropWrite s).err = s.err := rfl
@[simp] theorem dropWrite_work (s : State) : (dropWrite s).work = s.work := rfl
@[simp] theorem dropWrite_request (s : State) : (dropWrite s).request = s.request := rfl
@[simp] theorem dropWrite_env (s : State) : (dropWrite s).env = s.env := rfl

/-! ### `writeStatus` -/

@[simp] theorem writeStatus_limbs (w : Word) (s : State) : (writeStatus w s).limbs = s.limbs := rfl
@[simp] theorem writeStatus_op0 (w : Word) (s : State) : (writeStatus w s).op0 = s.op0 := rfl
@[simp] theorem writeStatus_op1 (w : Word) (s : State) : (writeStatus w s).op1 = s.op1 := rfl
@[simp] theorem writeStatus_op2 (w : Word) (s : State) : (writeStatus w s).op2 = s.op2 := rfl
@[simp] theorem writeStatus_res0 (w : Word) (s : State) : (writeStatus w s).res0 = s.res0 := rfl
@[simp] theorem writeStatus_res1 (w : Word) (s : State) : (writeStatus w s).res1 = s.res1 := rfl
@[simp] theorem writeStatus_res2 (w : Word) (s : State) : (writeStatus w s).res2 = s.res2 := rfl
@[simp] theorem writeStatus_rcnt (w : Word) (s : State) : (writeStatus w s).rcnt = s.rcnt := rfl
@[simp] theorem writeStatus_rtag (w : Word) (s : State) : (writeStatus w s).rtag = s.rtag := rfl
@[simp] theorem writeStatus_rv (w : Word) (s : State) : (writeStatus w s).rv = s.rv := rfl
@[simp] theorem writeStatus_ctrl (w : Word) (s : State) : (writeStatus w s).ctrl = s.ctrl := rfl
@[simp] theorem writeStatus_status (w : Word) (s : State) : (writeStatus w s).status = s.status.writeOneToClear w := rfl
@[simp] theorem writeStatus_cmd (w : Word) (s : State) : (writeStatus w s).cmd = s.cmd := rfl
@[simp] theorem writeStatus_err (w : Word) (s : State) : (writeStatus w s).err = s.err := rfl
@[simp] theorem writeStatus_work (w : Word) (s : State) : (writeStatus w s).work = s.work := rfl
@[simp] theorem writeStatus_request (w : Word) (s : State) : (writeStatus w s).request = s.request := rfl
@[simp] theorem writeStatus_env (w : Word) (s : State) : (writeStatus w s).env = s.env := rfl

/-! ### `resetBlock` -/

@[simp] theorem resetBlock_limbs (s : State) : (resetBlock s).limbs = s.limbs := rfl
@[simp] theorem resetBlock_op0 (s : State) : (resetBlock s).op0 = State.reset.op0 := rfl
@[simp] theorem resetBlock_op1 (s : State) : (resetBlock s).op1 = State.reset.op1 := rfl
@[simp] theorem resetBlock_op2 (s : State) : (resetBlock s).op2 = State.reset.op2 := rfl
@[simp] theorem resetBlock_res0 (s : State) : (resetBlock s).res0 = State.reset.res0 := rfl
@[simp] theorem resetBlock_res1 (s : State) : (resetBlock s).res1 = State.reset.res1 := rfl
@[simp] theorem resetBlock_res2 (s : State) : (resetBlock s).res2 = State.reset.res2 := rfl
@[simp] theorem resetBlock_rcnt (s : State) : (resetBlock s).rcnt = State.reset.rcnt := rfl
@[simp] theorem resetBlock_rtag (s : State) : (resetBlock s).rtag = State.reset.rtag := rfl
@[simp] theorem resetBlock_rv (s : State) : (resetBlock s).rv = State.reset.rv := rfl
@[simp] theorem resetBlock_ctrl (s : State) : (resetBlock s).ctrl = State.reset.ctrl := rfl
@[simp] theorem resetBlock_status (s : State) : (resetBlock s).status = State.reset.status := rfl
@[simp] theorem resetBlock_cmd (s : State) : (resetBlock s).cmd = State.reset.cmd := rfl
@[simp] theorem resetBlock_err (s : State) : (resetBlock s).err = State.reset.err := rfl
@[simp] theorem resetBlock_work (s : State) : (resetBlock s).work = State.reset.work := rfl
@[simp] theorem resetBlock_request (s : State) : (resetBlock s).request = State.reset.request := rfl
@[simp] theorem resetBlock_env (s : State) : (resetBlock s).env = s.env := rfl

/-! ### `withAgenda` -/

@[simp] theorem withAgenda_limbs (s : State) (es : List Event) : (s.withAgenda es).limbs = s.limbs := rfl
@[simp] theorem withAgenda_op0 (s : State) (es : List Event) : (s.withAgenda es).op0 = s.op0 := rfl
@[simp] theorem withAgenda_op1 (s : State) (es : List Event) : (s.withAgenda es).op1 = s.op1 := rfl
@[simp] theorem withAgenda_op2 (s : State) (es : List Event) : (s.withAgenda es).op2 = s.op2 := rfl
@[simp] theorem withAgenda_res0 (s : State) (es : List Event) : (s.withAgenda es).res0 = s.res0 := rfl
@[simp] theorem withAgenda_res1 (s : State) (es : List Event) : (s.withAgenda es).res1 = s.res1 := rfl
@[simp] theorem withAgenda_res2 (s : State) (es : List Event) : (s.withAgenda es).res2 = s.res2 := rfl
@[simp] theorem withAgenda_rcnt (s : State) (es : List Event) : (s.withAgenda es).rcnt = s.rcnt := rfl
@[simp] theorem withAgenda_rtag (s : State) (es : List Event) : (s.withAgenda es).rtag = s.rtag := rfl
@[simp] theorem withAgenda_rv (s : State) (es : List Event) : (s.withAgenda es).rv = s.rv := rfl
@[simp] theorem withAgenda_ctrl (s : State) (es : List Event) : (s.withAgenda es).ctrl = s.ctrl := rfl
@[simp] theorem withAgenda_status (s : State) (es : List Event) : (s.withAgenda es).status = s.status := rfl
@[simp] theorem withAgenda_cmd (s : State) (es : List Event) : (s.withAgenda es).cmd = s.cmd := rfl
@[simp] theorem withAgenda_err (s : State) (es : List Event) : (s.withAgenda es).err = s.err := rfl
@[simp] theorem withAgenda_work (s : State) (es : List Event) : (s.withAgenda es).work = s.work := rfl
@[simp] theorem withAgenda_request (s : State) (es : List Event) : (s.withAgenda es).request = s.request := rfl
@[simp] theorem withAgenda_env (s : State) (es : List Event) : (s.withAgenda es).env = { s.env with agenda := es } := rfl

/-! ### `withRst` -/

@[simp] theorem withRst_limbs (s : State) (b : Bool) : (s.withRst b).limbs = s.limbs := rfl
@[simp] theorem withRst_op0 (s : State) (b : Bool) : (s.withRst b).op0 = s.op0 := rfl
@[simp] theorem withRst_op1 (s : State) (b : Bool) : (s.withRst b).op1 = s.op1 := rfl
@[simp] theorem withRst_op2 (s : State) (b : Bool) : (s.withRst b).op2 = s.op2 := rfl
@[simp] theorem withRst_res0 (s : State) (b : Bool) : (s.withRst b).res0 = s.res0 := rfl
@[simp] theorem withRst_res1 (s : State) (b : Bool) : (s.withRst b).res1 = s.res1 := rfl
@[simp] theorem withRst_res2 (s : State) (b : Bool) : (s.withRst b).res2 = s.res2 := rfl
@[simp] theorem withRst_rcnt (s : State) (b : Bool) : (s.withRst b).rcnt = s.rcnt := rfl
@[simp] theorem withRst_rtag (s : State) (b : Bool) : (s.withRst b).rtag = s.rtag := rfl
@[simp] theorem withRst_rv (s : State) (b : Bool) : (s.withRst b).rv = s.rv := rfl
@[simp] theorem withRst_ctrl (s : State) (b : Bool) : (s.withRst b).ctrl = s.ctrl := rfl
@[simp] theorem withRst_status (s : State) (b : Bool) : (s.withRst b).status = s.status := rfl
@[simp] theorem withRst_cmd (s : State) (b : Bool) : (s.withRst b).cmd = s.cmd := rfl
@[simp] theorem withRst_err (s : State) (b : Bool) : (s.withRst b).err = s.err := rfl
@[simp] theorem withRst_work (s : State) (b : Bool) : (s.withRst b).work = s.work := rfl
@[simp] theorem withRst_request (s : State) (b : Bool) : (s.withRst b).request = s.request := rfl
@[simp] theorem withRst_env (s : State) (b : Bool) : (s.withRst b).env = { s.env with rstAsserted := b } := rfl

/-! ### Reset -/

@[simp] theorem resetBlock_resetBlock (s : State) : resetBlock (resetBlock s) = resetBlock s := rfl

theorem holdInReset_released {s : State} (h : s.env.rstAsserted = false) : holdInReset s = s := by
  simp [holdInReset, h]

theorem holdInReset_asserted {s : State} (h : s.env.rstAsserted = true) : holdInReset s = resetBlock s := by
  simp [holdInReset, h]

@[simp] theorem holdInReset_limbs (s : State) : (holdInReset s).limbs = s.limbs := by unfold holdInReset; split <;> rfl

@[simp] theorem holdInReset_env (s : State) : (holdInReset s).env = s.env := by unfold holdInReset; split <;> rfl

@[simp] theorem holdInReset_resetBlock (s : State) : holdInReset (resetBlock s) = resetBlock s := by
  unfold holdInReset; split <;> rfl

/-! ### `withStage` -/

@[simp] theorem withStage_limbs (s : State) (m : MrStage) : (s.withStage m).limbs = s.limbs := rfl
@[simp] theorem withStage_op0 (s : State) (m : MrStage) : (s.withStage m).op0 = s.op0 := rfl
@[simp] theorem withStage_op1 (s : State) (m : MrStage) : (s.withStage m).op1 = s.op1 := rfl
@[simp] theorem withStage_op2 (s : State) (m : MrStage) : (s.withStage m).op2 = s.op2 := rfl
@[simp] theorem withStage_res0 (s : State) (m : MrStage) : (s.withStage m).res0 = s.res0 := rfl
@[simp] theorem withStage_res1 (s : State) (m : MrStage) : (s.withStage m).res1 = s.res1 := rfl
@[simp] theorem withStage_res2 (s : State) (m : MrStage) : (s.withStage m).res2 = s.res2 := rfl
@[simp] theorem withStage_rcnt (s : State) (m : MrStage) : (s.withStage m).rcnt = s.rcnt := rfl
@[simp] theorem withStage_rtag (s : State) (m : MrStage) : (s.withStage m).rtag = s.rtag := rfl
@[simp] theorem withStage_rv (s : State) (m : MrStage) : (s.withStage m).rv = s.rv := rfl
@[simp] theorem withStage_ctrl (s : State) (m : MrStage) : (s.withStage m).ctrl = s.ctrl := rfl
@[simp] theorem withStage_status (s : State) (m : MrStage) : (s.withStage m).status = s.status := rfl
@[simp] theorem withStage_cmd (s : State) (m : MrStage) : (s.withStage m).cmd = s.cmd := rfl
@[simp] theorem withStage_err (s : State) (m : MrStage) : (s.withStage m).err = s.err := rfl
@[simp] theorem withStage_work (s : State) (m : MrStage) : (s.withStage m).work = some (.millerRabin m) := rfl
@[simp] theorem withStage_request (s : State) (m : MrStage) : (s.withStage m).request = s.request := rfl
@[simp] theorem withStage_env (s : State) (m : MrStage) : (s.withStage m).env = s.env := rfl

/-! ### `recordRounds` -/

@[simp] theorem recordRounds_limbs (r : Rounds) (s : State) : (recordRounds r s).limbs = s.limbs := rfl
@[simp] theorem recordRounds_op0 (r : Rounds) (s : State) : (recordRounds r s).op0 = s.op0 := rfl
@[simp] theorem recordRounds_op1 (r : Rounds) (s : State) : (recordRounds r s).op1 = s.op1 := rfl
@[simp] theorem recordRounds_op2 (r : Rounds) (s : State) : (recordRounds r s).op2 = s.op2 := rfl
@[simp] theorem recordRounds_res0 (r : Rounds) (s : State) : (recordRounds r s).res0 = s.res0 := rfl
@[simp] theorem recordRounds_res1 (r : Rounds) (s : State) : (recordRounds r s).res1 = s.res1 := rfl
@[simp] theorem recordRounds_res2 (r : Rounds) (s : State) : (recordRounds r s).res2 = s.res2 := rfl
@[simp] theorem recordRounds_rcnt (r : Rounds) (s : State) : (recordRounds r s).rcnt = s.rcnt := rfl
@[simp] theorem recordRounds_rtag (r : Rounds) (s : State) : (recordRounds r s).rtag = s.rtag := rfl
@[simp] theorem recordRounds_rv (r : Rounds) (s : State) : (recordRounds r s).rv = s.rv := rfl
@[simp] theorem recordRounds_ctrl (r : Rounds) (s : State) : (recordRounds r s).ctrl = s.ctrl := rfl
@[simp] theorem recordRounds_status (r : Rounds) (s : State) : (recordRounds r s).status = s.status := rfl
@[simp] theorem recordRounds_cmd (r : Rounds) (s : State) : (recordRounds r s).cmd = s.cmd := rfl
@[simp] theorem recordRounds_err (r : Rounds) (s : State) : (recordRounds r s).err = s.err := rfl
@[simp] theorem recordRounds_work (r : Rounds) (s : State) : (recordRounds r s).work = s.work := rfl
@[simp] theorem recordRounds_request (r : Rounds) (s : State) : (recordRounds r s).request = s.request := rfl
@[simp] theorem recordRounds_env (r : Rounds) (s : State) : (recordRounds r s).env = { s.env with
      script := r.script
      asked := List.replicate (r.asks - s.request.isSome.toNat) (mrRequest s.op0) ++ s.env.asked } := rfl

/-! ### The phase -/

@[simp] theorem phase_complete (r : Results) (s : State) (h : s.status.fault = false) :
    (complete r s).status.phase = .idle := by
  simp [Status.phase, h]

@[simp] theorem phase_raiseFault (c : Cause) (s : State) : (raiseFault c s).status.phase = .faulted := rfl

@[simp] theorem phase_accept (w : Word) (s : State) : (accept w s).status.phase = .busy := rfl

@[simp] theorem phase_dropWrite (s : State) : (dropWrite s).status.phase = s.status.phase := rfl

@[simp] theorem phase_writeOneToClear (st : Status) (w : Word) : (st.writeOneToClear w).phase = st.phase := rfl

@[simp] theorem phase_resetBlock (s : State) : (resetBlock s).status.phase = .idle := rfl

theorem phase_busy_iff (st : Status) : st.phase = .busy ↔ st.busy = true := by
  cases hb : st.busy <;> cases hf : st.fault <;> simp [Status.phase, hb, hf]

theorem phase_idle_iff (st : Status) : st.phase = .idle ↔ st.busy = false ∧ st.fault = false := by
  cases hb : st.busy <;> cases hf : st.fault <;> simp [Status.phase, hb, hf]

theorem phase_faulted_iff (st : Status) : st.phase = .faulted ↔ st.busy = false ∧ st.fault = true := by
  cases hb : st.busy <;> cases hf : st.fault <;> simp [Status.phase, hb, hf]

/-! ### Signed registers -/

@[simp] theorem ofInt_mag (v : Int) : (SignMag.ofInt v).mag = v.natAbs := rfl

@[simp] theorem ofInt_sign (v : Int) : (SignMag.ofInt v).sign = decide (v < 0) := rfl

@[simp] theorem ofInt_zero : SignMag.ofInt 0 = ⟨false, 0⟩ := rfl

end Sys2Proof.Machine
end

