-- ==== Sys2Proof/Laws/Ops.lean ====
section
/-! SUPPORT. What each shared operation can do, said once: proofs cite these and do not unfold the operation again. -/

namespace Sys2Proof.Machine

/-! ### The host port -/

theorem hostWrite_next {off : Offset} {w : Word} {s t : State} (h : hostWrite off w s = .next t) :
    aligned off = true ∧ t = writeTarget (target s.limbs off) w s := by
  unfold hostWrite at h
  split at h
  · cases h; exact ⟨‹_›, rfl⟩
  · cases h

theorem hostRead_next {off : Offset} {s t : State} (h : hostRead off s = .next t) :
    aligned off = true ∧ t = { s with env := { s.env with
      observed := (off, s.readValue off) :: s.env.observed
      fresh := s.env.fresh + (s.readsUnspecified off).toNat } } := by
  unfold hostRead at h
  split at h
  · cases h; exact ⟨‹_›, rfl⟩
  · cases h

theorem writeCmd_cases (w : Word) (s : State) :
    (s.status.phase = .idle ∧ writeCmd w s = accept w s) ∨
    (s.status.phase ≠ .idle ∧ writeCmd w s = dropWrite s) := by
  unfold writeCmd; cases h : s.status.phase <;> simp

theorem writeLimb_cases (x : BigReg) (k : Nat) (w : Word) (s : State) :
    (x.isResult = true ∧ writeLimb x k w s = s) ∨
    (x.isResult = false ∧ s.status.phase = .idle ∧ writeLimb x k w s = s.setOperandLimb x k w) ∨
    (x.isResult = false ∧ s.status.phase ≠ .idle ∧ writeLimb x k w s = dropWrite s) := by
  unfold writeLimb
  cases hx : x.isResult <;> cases h : s.status.phase <;> simp

theorem writeCtrl_cases (w : Word) (s : State) :
    (w.getLsbD 31 = true ∧ writeCtrl w s = resetBlock s) ∨
    (w.getLsbD 31 = false ∧ writeCtrl w s = { s with ctrl := Ctrl.ofWord w }) := by
  unfold writeCtrl; cases h : w.getLsbD 31 <;> simp

/-- A write never goes further than this: the target decides, and most targets ignore it. -/
theorem writeTarget_cases (t : Target) (w : Word) (s : State) :
    writeTarget t w s = s ∨
    (t = .ctrl ∧ writeTarget t w s = writeCtrl w s) ∨
    (t = .status ∧ writeTarget t w s = writeStatus w s) ∨
    (t = .cmd ∧ writeTarget t w s = writeCmd w s) ∨
    ∃ x k, t = .limb x k ∧ writeTarget t w s = writeLimb x k w s := by
  cases t <;> simp [writeTarget]

/-! ### The sampler port -/

theorem deliver_next {a : Nat} {s t : State} (h : deliver a s = .next t) :
    (∃ round v, s.work = some (.millerRabin (.draw round v)) ∧ (mrRequest s.op0).admits a = true ∧
      ∃ hc : 0 < s.op0,
        t = { s with work := some (.millerRabin (.power round v a (expInit a v.d s.op0 hc))), request := none }) ∨
    t = s := by
  unfold deliver at h
  split at h
  · rename_i round v hw
    split at h
    · rename_i ha; cases h; exact .inl ⟨round, v, hw, ha, pos_of_admits ha, rfl⟩
    · cases h
  · cases h; exact .inr rfl

theorem samplerAnswer_next {n a : Nat} {s t : State} (h : samplerAnswer n a s = .next t) :
    (s.request.isSome = true ∧ n = s.env.asked.length ∧ deliver a s = .next t) ∨
    ((s.request = none ∨ n ≠ s.env.asked.length) ∧ t = s) := by
  unfold samplerAnswer at h
  split at h
  · cases h; exact .inr ⟨.inl ‹_›, rfl⟩
  · rename_i q hq
    split at h
    · exact .inl ⟨by simp [hq], ‹_›, h⟩
    · cases h; exact .inr ⟨.inr ‹_›, rfl⟩

/-! ### The round loop -/

/-- The rounds ask at most once per round left, leave a suffix of the script, and hold only for want of an answer. -/
theorem mrRounds_spec (c : Nat) (hc : 0 < c) (v : RewriteVars) : ∀ (left : Nat) (script : List Nat),
    (mrRounds c hc v left script).asks ≤ left ∧
    (mrRounds c hc v left script).script <:+ script ∧
    ∀ n, (mrRounds c hc v left script).ending = .hold n →
      1 ≤ n ∧ n ≤ left ∧ (mrRounds c hc v left script).script = []
  | 0, script => by simp [mrRounds]
  | left + 1, [] => by simp [mrRounds]
  | left + 1, a :: script => by
    have ih := mrRounds_spec c hc v left script
    have hs : script <:+ a :: script := List.suffix_cons a script
    unfold mrRounds
    split
    · split
      · exact ⟨by simp, hs, by simp⟩
      · refine ⟨by simpa using ih.1, ih.2.1.trans hs, fun n hn => ?_⟩
        have := ih.2.2 n hn
        exact ⟨this.1, by omega, this.2.2⟩
    · exact ⟨by simp, hs, by simp⟩

/-- How the rounds can end a move of the sequencer. -/
theorem endRounds_next {r : Rounds} {s t : State} (h : endRounds r s = .next t) :
    (r.ending = .prime ∧ t = complete { tag := .pos } (recordRounds r s)) ∨
    (r.ending = .composite ∧ t = complete { tag := .neg } (recordRounds r s)) ∨
    ∃ left, r.ending = .hold left ∧ t =
      { recordRounds r s with
        work := some (.millerRabin (.draw (Config.mrRounds + 1 - left) (mrVars (mrStage s))))
        request := some (mrRequest s.op0) } := by
  unfold endRounds at h
  split at h
  · cases h; exact .inl ⟨‹_›, rfl⟩
  · cases h; exact .inr (.inl ⟨‹_›, rfl⟩)
  · rename_i left hl; cases h; exact .inr (.inr ⟨left, hl, rfl⟩)
  · cases h

/-- Every way `MillerRabin` can end a move. -/
theorem millerRabin_next {s t : State} (h : millerRabin s = .next t) :
    ((s.op0 = 2 ∨ s.op0 = 3) ∧ t = complete { tag := .pos } s) ∨
    (s.op0 ≠ 2 ∧ s.op0 % 2 = 0 ∧ t = complete { tag := .neg } s) ∨
    (s.op0 = 1 ∧ t = raiseFault .candidateDomain s) ∨
    (∃ hc : 0 < s.op0, 5 ≤ s.op0 ∧ s.op0 % 2 = 1 ∧
      endRounds (mrRun s.op0 hc (mrStage s) s.env.script) s = .next t) := by
  unfold millerRabin at h
  split at h
  · cases h; exact .inl ⟨‹_›, rfl⟩
  · split at h
    · rename_i h1 h2
      cases h; simp [isEven] at h2; exact .inr (.inl ⟨by omega, h2, rfl⟩)
    · split at h
      · cases h; exact .inr (.inr (.inl ⟨‹_›, rfl⟩))
      · rename_i h1 h2 h3
        simp [isEven] at h2
        exact .inr (.inr (.inr ⟨_, by omega, h2, h⟩))

/-! ### The sequencer and the step -/

theorem sequencerMove_next {move : Instr → State → StepResult} {s t : State} (h : sequencerMove move s = .next t) :
    (s.status.phase ≠ .busy ∧ t = s) ∨
    (s.status.phase = .busy ∧ (∃ e, decode s.cmd = .error e) ∧ t = raiseFault .illegalCmd s) ∨
    (s.status.phase = .busy ∧ ∃ i, decode s.cmd = .ok i ∧ move i s = .next t) := by
  unfold sequencerMove at h
  cases hp : s.status.phase with
  | idle => simp only [hp] at h; cases h; exact .inl ⟨by simp, rfl⟩
  | faulted => simp only [hp] at h; cases h; exact .inl ⟨by simp, rfl⟩
  | busy =>
    simp only [hp] at h
    cases hd : decode s.cmd with
    | error e => simp only [hd] at h; cases h; exact .inr (.inl ⟨rfl, ⟨e, rfl⟩, rfl⟩)
    | ok i => simp only [hd] at h; exact .inr (.inr ⟨rfl, i, rfl, h⟩)

/-- What an event does is its own act, or, while `rst` is asserted, the reset. -/
theorem perform_next {e : Event} {s t : State} (h : perform e s = .next t) :
    ∃ u, act e s = .next u ∧ t = holdInReset u := by
  unfold perform at h
  split at h
  · cases h; exact ⟨_, ‹_›, rfl⟩
  · cases h
  · cases h

theorem perform_of_act {e : Event} {s t : State} (h : act e s = .next t) : perform e s = .next (holdInReset t) := by
  simp [perform, h]

/-- With the reset input released, an event does its own act. -/
theorem perform_released {e : Event} {s t : State} (h : act e s = .next t) (hr : t.env.rstAsserted = false) :
    perform e s = .next t := by
  rw [perform_of_act h, holdInReset_released hr]

/-- A step performs one event on a state that differs only in what is still to come. -/
theorem step_cases (s : State) :
    (s.env.agenda = [] ∧ step s = perform .run s) ∨
    ∃ e rest, s.env.agenda = e :: rest ∧ step s = perform e (s.withAgenda rest) := by
  unfold step
  cases h : s.env.agenda with
  | nil => exact .inl ⟨rfl, rfl⟩
  | cons e rest => exact .inr ⟨e, rest, rfl, rfl⟩

end Sys2Proof.Machine
end

