-- ==== Sys2Proof/Laws/Commands.lean ====
section
/-! SUPPORT. Every way a command's run can end a move of the sequencer, said once for all commands. -/

namespace Sys2Proof.Machine

/-- A run ends in the command's fault, in a completion, or, in Miller–Rabin, waiting for the sampler; `r` holds what the
rounds did to the sampler's side. -/
theorem exec_next {i : Instr} {s t : State} (h : exec i s = .next t) :
    (∃ c, c ≠ .noFault ∧ t = raiseFault c s) ∨
    (∃ r, t = complete r s) ∨
    ((i = .mrtest ∨ i = .isprime) ∧
      ∃ hc, endRounds (mrRun s.op0 hc (mrStage s) s.env.script) s = .next t) := by
  have mr : ∀ {u}, (i = .mrtest ∨ i = .isprime) → millerRabin s = .next u →
      (∃ c, c ≠ .noFault ∧ u = raiseFault c s) ∨ (∃ r, u = complete r s) ∨
      ((i = .mrtest ∨ i = .isprime) ∧ ∃ hc, endRounds (mrRun s.op0 hc (mrStage s) s.env.script) s = .next u) := by
    intro u hi hu
    rcases millerRabin_next hu with ⟨-, rfl⟩ | ⟨-, -, rfl⟩ | ⟨-, rfl⟩ | ⟨hc, -, -, hr⟩
    · exact .inr (.inl ⟨_, rfl⟩)
    · exact .inr (.inl ⟨_, rfl⟩)
    · exact .inl ⟨.candidateDomain, by decide, rfl⟩
    · exact .inr (.inr ⟨hi, hc, hr⟩)
  cases i with
  | modexp =>
    simp only [exec, execModexp] at h
    split at h
    · cases h; exact .inl ⟨.modulusZero, by decide, rfl⟩
    · cases h; exact .inr (.inl ⟨_, rfl⟩)
  | trialdiv => simp only [exec, execTrialdiv] at h; cases h; exact .inr (.inl ⟨_, rfl⟩)
  | rewrite =>
    simp only [exec, execRewrite] at h
    split at h
    · cases h; exact .inl ⟨.rewriteZero, by decide, rfl⟩
    · cases h; exact .inr (.inl ⟨_, rfl⟩)
  | mrtest => exact mr (.inl rfl) h
  | isprime =>
    simp only [exec, execIsprime] at h
    split at h
    · exact mr (.inr rfl) h
    · split at h
      · cases h; exact .inr (.inl ⟨_, rfl⟩)
      · cases h; exact .inr (.inl ⟨_, rfl⟩)
      · exact mr (.inr rfl) h
  | egcd => simp only [exec, execEgcd] at h; cases h; exact .inr (.inl ⟨_, rfl⟩)
  | invmod =>
    simp only [exec, execInvmod] at h
    split at h
    · cases h; exact .inl ⟨.invmodModulusZero, by decide, rfl⟩
    · cases h; exact .inr (.inl ⟨_, rfl⟩)

end Sys2Proof.Machine
end

