-- ==== Sys2Proof/Laws/Host.lean ====
section
/-! SUPPORT. What the parts of a host sequence can do, said once. -/

namespace Sys2Proof.Machine

section
variable {α β : Type} {next : α → State → HostResult β} {s t : State}

@[simp] theorem andThen_ok (a : α) (s : State) (next : α → State → HostResult β) :
    andThen (.ok a, s) next = next a s := rfl

@[simp] theorem andThen_error (e : HostFailure) (s : State) (next : α → State → HostResult β) :
    andThen (.error e, s) next = (.error e, s) := rfl

/-- Where a sequence of two parts succeeds, both did. -/
theorem andThen_eq_ok {r : HostResult α} {b : β} (h : andThen r next = (.ok b, t)) :
    ∃ a s, r = (.ok a, s) ∧ next a s = (.ok b, t) := by
  obtain ⟨e | a, s⟩ := r
  · cases h
  · exact ⟨a, s, rfl, h⟩

end

@[simp] theorem performAll_nil (s : State) : performAll [] s = .next s := rfl

theorem performAll_cons {e : Event} {es : List Event} {s t : State} (h : perform e s = .next t) :
    performAll (e :: es) s = performAll es t := by simp [performAll, h]

/-- A sequence of events is one part of it, then the other. -/
theorem performAll_append {es fs : List Event} : ∀ {s t : State}, performAll es s = .next t →
    performAll (es ++ fs) s = performAll fs t := by
  induction es with
  | nil => intro s t h; cases h; rfl
  | cons e es ih =>
    intro s t h
    simp only [performAll, List.cons_append] at h ⊢
    cases hp : perform e s with
    | next u => simp only [hp] at h ⊢; exact ih h
    | fault r => simp only [hp] at h; cases h
    | refused r => simp only [hp] at h; cases h

/-- Events either all happen, or the sequence stops where it was. -/
theorem hostDoes_cases (es : List Event) (s : State) :
    (∃ t, performAll es s = .next t ∧ hostDoes es s = (.ok (), t)) ∨ hostDoes es s = (.error .stopped, s) := by
  unfold hostDoes
  cases performAll es s with
  | next t => exact .inl ⟨t, rfl, rfl⟩
  | fault r => exact .inr rfl
  | refused r => exact .inr rfl

/-- A read at an aligned offset always succeeds, and changes only the record of what was read. -/
theorem perform_rd {off : Offset} {s : State} (ha : aligned off = true) (hr : s.env.rstAsserted = false) :
    ∃ env : Env, perform (rd off) s = .next { s with env := env } ∧ env.rstAsserted = false := by
  have hact : act (rd off) s = .next { s with env := { s.env with
      observed := (off, s.readValue off) :: s.env.observed
      fresh := s.env.fresh + (s.readsUnspecified off).toNat } } := by simp [act, rd, hostAccess, hostRead, ha]
  exact ⟨_, perform_released hact hr, hr⟩

/-- So do any number of them. -/
theorem performAll_rd : ∀ {offs : List Offset} {s : State}, (∀ off ∈ offs, aligned off = true) →
    s.env.rstAsserted = false →
    ∃ env : Env, performAll (offs.map rd) s = .next { s with env := env } ∧ env.rstAsserted = false
  | [], s, _, hr => ⟨s.env, rfl, hr⟩
  | off :: offs, s, ha, hr => by
    obtain ⟨env, h, hr'⟩ := perform_rd (ha off (by simp)) hr
    obtain ⟨env', h', hr''⟩ := performAll_rd (offs := offs) (s := { s with env := env })
      (fun o ho => ha o (List.mem_cons_of_mem _ ho)) hr'
    exact ⟨env', by rw [List.map_cons, performAll_cons h, h'], hr''⟩

/-- `RD` gives the word of the state before it. -/
theorem readWord_released {off : Offset} {s : State} (ha : aligned off = true) (hr : s.env.rstAsserted = false) :
    ∃ env : Env, readWord off s = (.ok (s.readValue off), { s with env := env }) ∧ env.rstAsserted = false := by
  obtain ⟨env, h, hr'⟩ := performAll_rd (offs := [off]) (s := s) (by simpa using ha) hr
  refine ⟨env, ?_, hr'⟩
  simp only [List.map_cons, List.map_nil] at h
  simp [readWord, hostDoes, h]

theorem aligned_offset {x : BigReg} {k : Nat} (hk : k < 256) : aligned (x.offset k) = true := by
  have : (x.base + 4 * k) % 2 ^ 13 = x.base + 4 * k := Nat.mod_eq_of_lt (by cases x <;> simp only [BigReg.base] <;> omega)
  simp only [aligned, BigReg.offset, BitVec.toNat_ofNat, this, beq_iff_eq]
  cases x <;> simp only [BigReg.base] <;> omega

/-- The offset of a limb names that limb (R63, R65). -/
theorem target_offset {limbs k : Nat} (x : BigReg) (hk : k < limbs) (hl : limbs ≤ 256) :
    target limbs (x.offset k) = .limb x k := by
  have hn : (x.offset k).toNat = x.base + 4 * k := by
    simp only [BigReg.offset, BitVec.toNat_ofNat]
    exact Nat.mod_eq_of_lt (by cases x <;> simp only [BigReg.base] <;> omega)
  have hlow : ¬ x.base + 4 * k < 0x400 := by cases x <;> simp only [BigReg.base] <;> omega
  have hdiv : (x.base + 4 * k) / 0x400 = x.base / 0x400 := by cases x <;> simp only [BigReg.base] <;> omega
  have hmod : (x.base + 4 * k) % 0x400 / 4 = k := by cases x <;> simp only [BigReg.base] <;> omega
  have hwin : windowAt (x.base / 0x400) = some x := by cases x <;> rfl
  simp only [target, hn, hdiv, hmod, hwin, if_neg hlow, if_pos hk]

/-- What a limb reads as: its word, or, while its register is unspecified, the next free word (R61). -/
theorem readValue_limb {s : State} (x : BigReg) {k : Nat} (hk : k < s.limbs) (hl : s.limbs ≤ 256) :
    s.readValue (x.offset k) =
      if x.isResult && s.rv == .unspecified then Config.unspecifiedWord s.env.fresh else limbOf (s.big x) k := by
  simp only [State.readValue, State.readsUnspecified, target_offset x hk hl, Target.isResult, State.targetValue]

@[simp] theorem afterDrawn_limbs (s : State) (n : Nat) : (s.afterDrawn n).limbs = s.limbs := rfl
@[simp] theorem afterDrawn_rv (s : State) (n : Nat) : (s.afterDrawn n).rv = s.rv := rfl
@[simp] theorem afterDrawn_big (s : State) (n : Nat) (x : BigReg) : (s.afterDrawn n).big x = s.big x := by cases x <;> rfl
@[simp] theorem afterDrawn_fresh (s : State) (n : Nat) : (s.afterDrawn n).env.fresh = s.env.fresh + n := rfl

/-- With valid results a fetch is the sum of the limbs, and no free word enters it. -/
theorem fetch_valid {s : State} (x : BigReg) (hl : s.limbs ≤ 256) (hv : s.rv = .valid) :
    fetch x s = ((List.range s.limbs).map fun k => (limbOf (s.big x) k).toNat * 2 ^ (32 * k)).sum := by
  unfold fetch
  congr 1
  refine List.map_congr_left fun k hk => ?_
  rw [readValue_limb x (s := s.afterDrawn k) (List.mem_range.1 hk) hl]
  simp [hv]

/-- `RD` of a limb: the word it reads as, and one free word fewer if it was one. -/
theorem readWord_limb {s : State} (x : BigReg) {k : Nat} (hk : k < s.limbs) (hl : s.limbs ≤ 256)
    (hr : s.env.rstAsserted = false) :
    ∃ env : Env, readWord (x.offset k) s = (.ok (s.readValue (x.offset k)), { s with env := env }) ∧
      env.rstAsserted = false ∧ env.fresh = s.env.fresh + (x.isResult && s.rv == .unspecified).toNat := by
  have hact : act (rd (x.offset k)) s = .next { s with env := { s.env with
      observed := (x.offset k, s.readValue (x.offset k)) :: s.env.observed
      fresh := s.env.fresh + (s.readsUnspecified (x.offset k)).toNat } } := by
    simp [act, rd, hostAccess, hostRead, aligned_offset (x := x) (show k < 256 by omega)]
  refine ⟨{ s.env with
    observed := (x.offset k, s.readValue (x.offset k)) :: s.env.observed
    fresh := s.env.fresh + (s.readsUnspecified (x.offset k)).toNat }, ?_, hr, ?_⟩
  · simp only [readWord, hostDoes, performAll, perform_released hact hr, andThen_ok]
  · simp only [State.readsUnspecified, target_offset x hk hl, Target.isResult]

/-- Limbs read one after the other are the words of the states in between. -/
theorem fetchLimbs_released {x : BigReg} : ∀ {n i : Nat} {s : State}, i + n ≤ s.limbs → s.limbs ≤ 256 →
    s.env.rstAsserted = false →
    ∃ env : Env, fetchLimbs x (List.range' i n) s =
        (.ok ((List.range n).map fun j =>
          ((s.afterDrawn j).readValue (x.offset (i + j))).toNat * 2 ^ (32 * (i + j))).sum, { s with env := env }) ∧
      env.rstAsserted = false
  | 0, i, s, _, _, hr => ⟨s.env, rfl, hr⟩
  | n + 1, i, s, hi, hl, hr => by
    obtain ⟨env, hw, hr', hf⟩ := readWord_limb (s := s) x (show i < s.limbs by omega) hl hr
    obtain ⟨env', hrest, hr''⟩ := fetchLimbs_released (x := x) (n := n) (i := i + 1) (s := { s with env := env })
      (show i + 1 + n ≤ s.limbs by omega) hl hr'
    refine ⟨env', ?_, hr''⟩
    have hsame : ∀ j < n,
        (State.afterDrawn { s with env := env } j).readValue (x.offset (i + 1 + j)) =
          (s.afterDrawn (j + 1)).readValue (x.offset (i + (j + 1))) := by
      intro j hj
      rw [show i + 1 + j = i + (j + 1) by omega,
        readValue_limb x (s := State.afterDrawn { s with env := env } j) (show i + (j + 1) < s.limbs by omega) hl,
        readValue_limb x (s := s.afterDrawn (j + 1)) (show i + (j + 1) < s.limbs by omega) hl]
      simp only [afterDrawn_rv, afterDrawn_fresh, afterDrawn_big]
      cases hu : (x.isResult && s.rv == .unspecified) with
      | false => cases x <;> rfl
      | true =>
        rw [hu] at hf
        simp only [hf, Bool.toNat_true, if_true, Nat.add_assoc, Nat.add_comm 1 j]
    have hsum : ((List.range n).map fun j =>
          ((State.afterDrawn { s with env := env } j).readValue (x.offset (i + 1 + j))).toNat * 2 ^ (32 * (i + 1 + j))) =
        (List.range n).map fun j =>
          ((s.afterDrawn (j + 1)).readValue (x.offset (i + (j + 1)))).toNat * 2 ^ (32 * (i + (j + 1))) :=
      List.map_congr_left fun j hj => by
        rw [hsame j (List.mem_range.1 hj), show i + 1 + j = i + (j + 1) by omega]
    rw [hsum] at hrest
    rw [List.range'_succ, fetchLimbs, hw, andThen_ok, hrest, andThen_ok, List.range_succ_eq_map, List.map_cons,
      List.map_map, List.sum_cons]
    rfl

/-- `FETCH X` gives the number of the state it begins in, in a build whose windows hold every limb. -/
theorem fetchRead_released {x : BigReg} {s : State} (hl : s.limbs ≤ 256) (hr : s.env.rstAsserted = false) :
    ∃ env : Env, fetchRead x s = (.ok (fetch x s), { s with env := env }) ∧ env.rstAsserted = false := by
  obtain ⟨env, h, hr'⟩ := fetchLimbs_released (x := x) (n := s.limbs) (i := 0) (s := s) (by omega) hl hr
  refine ⟨env, ?_, hr'⟩
  rw [fetchRead, List.range_eq_range', h]
  simp [fetch]

/-! ### Polling and concluding -/

/-- `STATUS` reads as itself, whatever `RV` says (R61). -/
theorem readValue_status (s : State) : s.readValue 0x00C = s.status.word := rfl

/-- The bits of `STATUS` (R33). -/
theorem status_word_bits (st : Status) :
    st.word.getLsbD 0 = st.busy ∧ st.word.getLsbD 1 = st.done ∧ st.word.getLsbD 2 = st.fault := by
  obtain ⟨b, d, f, a⟩ := st
  cases b <;> cases d <;> cases f <;> cases a <;> decide

/-- The first poll that finds the block not `BUSY` ends the wait. -/
theorem wait_done {es : List Event} {rest : List (List Event)} {s t : State} (h : performAll es s = .next t)
    (hr : t.env.rstAsserted = false) (hb : t.status.busy = false) :
    ∃ env : Env, wait (es :: rest) s = (.ok t.status.word, { t with env := env }) ∧ env.rstAsserted = false := by
  obtain ⟨env, hread, hr'⟩ := readWord_released (off := 0x00C) (s := t) (by decide) hr
  rw [readValue_status] at hread
  refine ⟨env, ?_, hr'⟩
  simp only [wait, hostDoes, h, andThen_ok, hread, (status_word_bits t.status).1, hb, Bool.false_eq_true, if_false]

/-- After a completion the host reads `RTAG` (R244, step 5). -/
theorem conclude_done {m : Manner} {s : State} (hr : s.env.rstAsserted = false) (hack : m.ack = false)
    (hf : s.status.fault = false) (hv : s.rv = .valid) :
    ∃ env : Env, conclude m s.status.word s = (.ok s.rtag.word, { s with env := env }) ∧ env.rstAsserted = false := by
  obtain ⟨env, hread, hr'⟩ := readWord_released (off := 0x014) (s := s) (by decide) hr
  have hval : s.readValue 0x014 = s.rtag.word := by
    simp only [State.readValue, State.readsUnspecified, hv]
    rfl
  rw [hval] at hread
  refine ⟨env, ?_, hr'⟩
  simp only [conclude, (status_word_bits s.status).2.2, hf, hread, hack, hostDoes, andThen_ok, performAll_nil,
    Bool.false_eq_true, if_false]

/-- A candidate the search goes on with by itself has at most so many bits. -/
theorem nextCandidate_of_giveUp {h : HostChoices} (hg : ∀ b c, h.outgrown b c = none) {bitLength c c' : Nat}
    (hn : h.nextCandidate bitLength c = some c') : c' = c + 2 ∧ c' < 2 ^ bitLength := by
  unfold HostChoices.nextCandidate at hn
  split at hn
  · cases hn; exact ⟨rfl, ‹_›⟩
  · rw [hg] at hn; cases hn

end Sys2Proof.Machine
end

