-- ==== Sys2Proof/Laws/Loops.lean ====
section
/-! SUPPORT. What a loop of the pseudocode does, once for all engines, and that each engine's fuel is enough. -/

namespace Sys2Proof.Machine

section
variable {α : Type} {next : α → Option α}

theorem loop_of_none {v : α} (h : next v = none) (n : Nat) : loop next n v = v := by
  cases n <;> simp [loop, h]

theorem loop_succ_of_some {v v' : α} (h : next v = some v') (n : Nat) :
    loop next (n + 1) v = loop next n v' := by
  simp [loop, h]

/-- What every iteration keeps, the loop keeps. -/
theorem loop_invariant {P : α → Prop} (step : ∀ v v', P v → next v = some v' → P v') :
    ∀ (n : Nat) {v : α}, P v → P (loop next n v)
  | 0, _, hv => hv
  | n + 1, v, hv => by
    cases h : next v with
    | none => rwa [loop_of_none h]
    | some v' => rw [loop_succ_of_some h]; exact loop_invariant step n (step v v' hv h)

/-- With a measure that every iteration lowers, enough fuel ends the loop at its own test. -/
theorem loop_ends {P : α → Prop} {m : α → Nat} (step : ∀ v v', P v → next v = some v' → P v' ∧ m v' < m v) :
    ∀ (n : Nat) {v : α}, P v → m v ≤ n → next (loop next n v) = none
  | 0, v, hv, hn => by
    cases h : next v with
    | none => simpa [loop] using h
    | some v' => have := (step v v' hv h).2; omega
  | n + 1, v, hv, hn => by
    cases h : next v with
    | none => rwa [loop_of_none h]
    | some v' =>
      obtain ⟨hv', hlt⟩ := step v v' hv h
      rw [loop_succ_of_some h]; exact loop_ends step n hv' (by omega)

/-- With a measure that every iteration lowers, any two amounts of enough fuel give the same. -/
theorem loop_fuel {P : α → Prop} {m : α → Nat} (step : ∀ v v', P v → next v = some v' → P v' ∧ m v' < m v) :
    ∀ (n k : Nat) {v : α}, P v → m v ≤ n → m v ≤ k → loop next n v = loop next k v
  | 0, k, v, hv, hn, _ => by
    have h : next v = none := loop_ends step 0 hv hn
    rw [loop_of_none h, loop_of_none h]
  | n + 1, k, v, hv, hn, hk => by
    cases h : next v with
    | none => rw [loop_of_none h, loop_of_none h]
    | some v' =>
      obtain ⟨hv', hlt⟩ := step v v' hv h
      obtain ⟨k, rfl⟩ : ∃ j, k = j + 1 := ⟨k - 1, by omega⟩
      rw [loop_succ_of_some h, loop_succ_of_some h]
      exact loop_fuel step n k hv' (by omega) (by omega)

end

/-! ### The units give the operations they are named after; the proof of a positive divisor does not matter -/

@[simp] theorem bigDiv_eq (a b : Nat) (hb : 0 < b) : bigDiv a b hb = a / b := rfl

@[simp] theorem bigRem_eq (a b : Nat) (hb : 0 < b) : bigRem a b hb = a % b := rfl

@[simp] theorem mulMod_eq (a b m : Nat) (hm : 0 < m) : mulMod a b m hm = a * b % m := rfl

/-! ### Each engine's loop: what an iteration is, and that it lowers the measure its fuel is -/

theorem expNext_eq_none {m : Nat} {hm : 0 < m} {v : ExpVars} : expNext m hm v = none ↔ v.e = 0 := by
  unfold expNext; split <;> simp_all

theorem expNext_lowers {m : Nat} {hm : 0 < m} {v v' : ExpVars} (h : expNext m hm v = some v') : v'.e < v.e := by
  unfold expNext at h
  split at h
  · cases h
  · cases h; simp only [shr1]; omega

theorem rewriteNext_eq_none {v : RewriteVars} : rewriteNext v = none ↔ v.d % 2 = 1 := by
  unfold rewriteNext isEven
  by_cases h : v.d % 2 = 0 <;> simp [h]
  omega

theorem rewriteNext_lowers {v v' : RewriteVars} (hd : v.d ≠ 0) (h : rewriteNext v = some v') :
    v'.d ≠ 0 ∧ v'.d < v.d := by
  unfold rewriteNext isEven at h
  split at h
  · rename_i he; cases h; simp only [shr1]; simp at he; omega
  · cases h

theorem trialNext_lowers {c k k' : Nat} (h : trialNext c k = some k') :
    k' = k + 1 ∧ Config.nSmallPrimes - k' < Config.nSmallPrimes - k := by
  unfold trialNext at h
  split at h
  · rename_i hk
    have hk : k < 100 := hk
    split at h
    · cases h
    · cases h; refine ⟨rfl, ?_⟩; simp only [Config.nSmallPrimes]; omega
  · cases h

theorem egcdNext_eq_none {v : EgcdVars} : egcdNext v = none ↔ v.r = 0 := by
  unfold egcdNext; split <;> simp_all

theorem egcd_remainder (a r : Nat) (hr : 0 < r) : bigSubNat a (bigMulNat (bigDiv a r hr) r) = a % r := by
  have := Nat.div_add_mod a r
  simp only [bigSubNat, bigMulNat, bigDiv_eq, Nat.mul_comm (a / r) r]; omega

theorem egcdNext_lowers {v v' : EgcdVars} (h : egcdNext v = some v') : v'.r < v.r := by
  unfold egcdNext at h
  split at h
  · cases h
  · cases h; rw [egcd_remainder]; exact Nat.mod_lt _ (by omega)

theorem invNext_eq_none {v : InvVars} : invNext v = none ↔ v.r = 0 := by
  unfold invNext; split <;> simp_all

theorem invNext_lowers {v v' : InvVars} (h : invNext v = some v') : v'.r < v.r := by
  unfold invNext at h
  split at h
  · cases h
  · cases h; rw [egcd_remainder]; exact Nat.mod_lt _ (by omega)

end Sys2Proof.Machine
end

