-- ==== Sys2Proof/Laws/PerInstr.lean ====
section
/-! SUPPORT. Statements about every command as syntax, one lemma per constructor. -/

/-- The fields the decoder cuts out of a command's word are the command's fields, and they are legal (R90, R91). -/
def Sys2Proof.Laws.FieldsSurvive.Statement (i : Sys2Proof.Instr) : Prop :=
  Sys2Proof.fieldsOf (Sys2Proof.encode i) = i.fields ∧ Sys2Proof.WellFormed i

theorem Sys2Proof.Laws.FieldsSurvive.modexp : Sys2Proof.Laws.FieldsSurvive.Statement .modexp := by
  unfold Sys2Proof.Laws.FieldsSurvive.Statement; decide

theorem Sys2Proof.Laws.FieldsSurvive.trialdiv : Sys2Proof.Laws.FieldsSurvive.Statement .trialdiv := by
  unfold Sys2Proof.Laws.FieldsSurvive.Statement; decide

theorem Sys2Proof.Laws.FieldsSurvive.rewrite : Sys2Proof.Laws.FieldsSurvive.Statement .rewrite := by
  unfold Sys2Proof.Laws.FieldsSurvive.Statement; decide

theorem Sys2Proof.Laws.FieldsSurvive.mrtest : Sys2Proof.Laws.FieldsSurvive.Statement .mrtest := by
  unfold Sys2Proof.Laws.FieldsSurvive.Statement; decide

theorem Sys2Proof.Laws.FieldsSurvive.isprime : Sys2Proof.Laws.FieldsSurvive.Statement .isprime := by
  unfold Sys2Proof.Laws.FieldsSurvive.Statement; decide

theorem Sys2Proof.Laws.FieldsSurvive.egcd : Sys2Proof.Laws.FieldsSurvive.Statement .egcd := by
  unfold Sys2Proof.Laws.FieldsSurvive.Statement; decide

theorem Sys2Proof.Laws.FieldsSurvive.invmod : Sys2Proof.Laws.FieldsSurvive.Statement .invmod := by
  unfold Sys2Proof.Laws.FieldsSurvive.Statement; decide
end

