-- ==== Sys2Proof/Tests/Slice0.lean ====
section
/-! SUPPORT. Small tests against the vectors of spec/95_test_vectors.md and the worked traces of the rules, a smoke test of
`WellFormed`, and for each statement with hypotheses a state that meets them. -/

-- One theorem after the other: the stacks of parallel elaboration alone pass the check's memory limit.
set_option Elab.async false

namespace Sys2Proof.Tests

open Sys2Proof.Machine Sys2Proof.Safety

/-- A command word just accepted, with these operands and this script of the sampler. -/
def started (w : Word) (a b c : Nat) (script : List Nat) : State :=
  accept w { State.reset with op0 := a, op1 := b, op2 := c, env := ⟨[], script, [], [], 0, false⟩ }

/-- A test of the next state. -/
def after (o : StepResult) (p : State → Bool) : Bool :=
  match o with
  | .next t => p t
  | .fault _ => false
  | .refused _ => false

theorem after_spec {o : StepResult} {p : State → Bool} (h : after o p = true) : ∃ t, o = .next t ∧ p t = true := by
  cases o with
  | next t => exact ⟨t, rfl, h⟩
  | fault _ => cases h
  | refused _ => cases h

/-- The smallest build, idle after reset. -/
def small : State := { State.reset with limbs := 2 }

/-- The same state with these events to come. -/
def withEvents (s : State) (es : List Event) : State := s.withAgenda es

/-! ### Well-formedness and decoding (R90 to R94) -/

theorem test_wellFormed_refuses_zeroField : (⟨1, 0x1⟩ : Fields).zeroOk = false ∧ (⟨1, 0x1⟩ : Fields).wellFormed = false := by
  decide
theorem test_wellFormed_refuses_opcode_0 : (⟨0, 0x0⟩ : Fields).opcodeOk = false ∧ (⟨0, 0x0⟩ : Fields).wellFormed = false := by
  decide
theorem test_wellFormed_refuses_opcode_8 : (⟨0, 0x8⟩ : Fields).opcodeOk = false ∧ (⟨0, 0x8⟩ : Fields).wellFormed = false := by
  decide
theorem test_wellFormed_modexp : WellFormed .modexp := by decide
theorem test_encode_invmod : encode .invmod = 0b00000000000000000000000000000111 := by decide
theorem test_decode_rewrite_bits : decode 0b00000000000000000000000000000011 = .ok .rewrite := by decide
theorem test_decode_isprime_bits : decode 0b00000000000000000000000000000101 = .ok .isprime := by decide
theorem test_decode_egcd_bits : decode 0b00000000000000000000000000000110 = .ok .egcd := by decide
theorem test_decodeTableWord : decodeTableWord 32 4 = some .mrtest ∧ decodeTableWord 32 0x11 = none := by decide

/-! ### The commands, on the spec's vectors -/

/-- V5, R115. -/
theorem test_modexp_4_13_497 : after (exec .modexp (started 1 4 13 497 [])) (fun t => t.res0 == 445 && t.rtag == .pos) = true := by
  decide
/-- V8 (conflict C1). -/
theorem test_modexp_modulus_1 : after (exec .modexp (started 1 5 0 1 [])) (fun t => t.res0 == 0 && t.rtag == .pos) = true := by
  decide
/-- V23: equality comes before divisibility. -/
theorem test_trialdiv_2 : after (exec .trialdiv (started 2 2 0 0 [])) (fun t => t.rtag == .pos) = true := by decide
/-- V27. -/
theorem test_trialdiv_304679 :
    after (exec .trialdiv (started 2 304679 0 0 [])) (fun t => t.rtag == .undecided) = true := by decide +kernel
/-- V2. -/
theorem test_rewrite_28 : after (exec .rewrite (started 3 28 0 0 [])) (fun t => t.rcnt == 2 && t.res0 == 7) = true := by
  decide
/-- V37: two draws. -/
theorem test_mrtest_221 : after (exec .mrtest (started 4 221 0 0 [174, 137, 5]))
    (fun t => t.rtag == .neg && t.env.script == [5] && t.env.asked == [⟨2, 219⟩, ⟨2, 219⟩]) = true := by decide +kernel
/-- V52. -/
theorem test_mrtest_1_faults : after (exec .mrtest (started 4 1 0 0 []))
    (fun t => t.err.code == 0x04 && t.status.word == 0x00000004) = true := by decide
/-- V45: two passes, then composite. -/
theorem test_isprime_1194649 : after (exec .isprime (started 5 1194649 0 0 [2, 2, 3]))
    (fun t => t.rtag == .neg && t.env.asked.length == 3) = true := by decide +kernel
/-- V46: 128 draws. -/
theorem test_isprime_547 : after (exec .isprime (started 5 547 0 0 (List.replicate 128 2)))
    (fun t => t.rtag == .pos && t.env.asked.length == 128) = true := by decide +kernel
/-- V1. -/
theorem test_egcd_240_46 : after (exec .egcd (started 6 240 46 0 []))
    (fun t => t.res0 == 2 && t.res1 == ⟨true, 9⟩ && t.res2 == ⟨false, 47⟩ && rsignWord t.res1 t.res2 == 1) = true := by
  decide
/-- V55: the zero coefficient has sign 0. -/
theorem test_egcd_0_0 : after (exec .egcd (started 6 0 0 0 []))
    (fun t => t.res0 == 0 && t.res1 == ⟨false, 1⟩ && t.res2 == ⟨false, 0⟩) = true := by decide
/-- V67: the raw coefficient -2, normalised. -/
theorem test_invmod_3_7 : after (exec .invmod (started 7 3 7 0 [])) (fun t => t.res0 == 5 && t.rtag == .pos) = true := by
  decide
/-- V70 (conflict C7). -/
theorem test_invmod_1_1 : after (exec .invmod (started 7 1 1 0 [])) (fun t => t.res0 == 0 && t.rtag == .pos) = true := by
  decide

/-! ### One iteration, on the spec's traces -/

/-- R115, iteration 3. -/
theorem test_modexp_iteration : expNext 497 (by decide) ⟨4, 256, 3⟩ = some ⟨30, 429, 1⟩ := by decide
/-- R115: the four iterations, and the completion. -/
theorem test_modexp_ticks : after (ticks .modexp 4 (started 1 4 13 497 [])) (fun t => t.status.busy) = true ∧
    after (ticks .modexp 5 (started 1 4 13 497 [])) (fun t => t.res0 == 445 && t.status.done) = true := by decide +kernel
/-- R176, iteration 4. -/
theorem test_egcd_iteration : egcdNext ⟨6, 4, -4, 5, 21, -26, some 1⟩ = some ⟨4, 2, 5, -9, -26, 47, some 1⟩ := by decide
/-- R182, iteration 2. -/
theorem test_invmod_iteration : invNext ⟨3120, 17, 0, 1, some 0⟩ = some ⟨17, 9, 1, -183, some 183⟩ := by decide

/-! ### The host port -/

/-- V40, in a build of `W = 128`. -/
theorem test_limb_order : after
    (performAll (load 4 .op0 0x0123456789ABCDEF0011223344556677) { State.reset with limbs := 4 })
    (fun t => t.op0 == 0x0123456789ABCDEF0011223344556677 && t.readValue 0x408 == 0x89ABCDEF) = true := by decide +kernel
/-- V41: limb 63, and the reserved word after it. -/
theorem test_top_limb : after (hostWrite 0x4FC 0x80000000 State.reset) (fun t => t.op0 == 2 ^ 2047) = true ∧
    after (hostWrite 0x500 5 State.reset) (fun t => t == State.reset) = true := by decide +kernel
/-- V42. -/
theorem test_constants : State.reset.readValue 0x000 = 0x52534131 ∧ State.reset.readValue 0x004 = 0x64800040 := by
  decide +kernel
/-- V87. -/
theorem test_status_write : (⟨false, true, false, true⟩ : Status).writeOneToClear 0xFFFFFFF5 = ⟨false, true, false, true⟩ := by
  decide
/-- V88 and V89. -/
theorem test_ctrl_write : after (hostWrite 0x008 0x7FFFFFFF State.reset) (fun t => t.ctrl.word == 3) = true ∧
    after (hostWrite 0x008 0x80000003 (started 1 4 13 497 [])) (fun t => t == State.reset) = true := by decide +kernel
/-- V91 and V92. -/
theorem test_irq :
    after (exec .modexp { started 1 4 13 497 [] with ctrl := ⟨true, false⟩ }) (fun t => t.irq) = true ∧
    after (exec .modexp { started 1 4 13 0 [] with ctrl := ⟨true, false⟩ }) (fun t => !t.irq) = true := by decide
/-- V96: decode comes before the operand check. -/
theorem test_decode_first : after (perform .run (started 0x10 3 1 0 []))
    (fun t => t.err == .illegalCmd && t.cmd == 0x10) = true := by decide +kernel
/-- R69: no meaning for a misaligned access. -/
theorem test_misaligned : (match hostRead 0x402 State.reset with | .refused r => r == .misalignedAccess | _ => false) = true := by
  decide
/-- R65: which window shows which result register. -/
theorem test_result_windows :
    ({ State.reset with res0 := 7, res1 := ⟨true, 8⟩, res2 := ⟨false, 9⟩ } : State).readValue 0x1000 = 7 ∧
    ({ State.reset with res0 := 7, res1 := ⟨true, 8⟩, res2 := ⟨false, 9⟩ } : State).readValue 0x1400 = 8 ∧
    ({ State.reset with res0 := 7, res1 := ⟨true, 8⟩, res2 := ⟨false, 9⟩ } : State).readValue 0x1800 = 9 := by decide +kernel
/-- R240: while `rst` is asserted a write has no effect; once it is released the next one has. -/
theorem test_held_in_reset : after (performAll [.rst true, wr 0x400 5, cmd .egcd, .rst false, wr 0x404 1] small)
    (fun t => t.op0 == 2 ^ 32 && t.cmd == 0 && t.status.phase == .idle) = true := by decide +kernel
/-- R240: the late answer to the request that reset abandoned (number 1) is discarded, the next one's (number 2) is not. -/
theorem test_late_answer : after
    (performAll ([.run, softReset] ++ load 2 .op0 547 ++ [cmd .mrtest, .run, .answer 1 3])
      { started 4 547 0 0 [] with limbs := 2 })
    (fun t => t.request == some ⟨2, 545⟩ && t.env.asked.length == 2 &&
      after (perform (.answer 2 3) t) (fun u => u.request == none)) = true := by decide +kernel
/-- P5: a write while `FAULTED` is dropped. -/
theorem test_dropped_write : after (hostWrite 0xC00 7 (raiseFault .modulusZero (started 1 3 1 0 [])))
    (fun t => t.status.word == 0x0000000C && t.readValue 0xC00 == 0) = true := by decide +kernel
/-- P6: the command waits for its first answer, and goes on with it. -/
theorem test_hold_and_answer : after (performAll [.run, wr 0x400 9, .answer 1 2] (started 4 547 0 0 []))
    (fun t => t.status.word == 0x00000009 && t.op0 == 547 && t.request == none && t.env.asked == [⟨2, 545⟩]) = true := by
  decide +kernel
/-- The first step after placing a command runs it. -/
theorem test_withFetchWord : after (step (State.reset.withFetchWord 32 1))
    (fun t => t.err == .modulusZero && t.cmd == 1) = true := by decide +kernel

/-! ### The host's side -/

/-- The value of a hexadecimal digit. -/
def unhex (c : Char) : Option Nat := (List.range 16).find? fun n => Nat.digitChar n == c

/-- Two digits a byte, most significant first. -/
def hexOf (bytes : List Byte) : String :=
  String.ofList (bytes.flatMap fun b => [Nat.digitChar (b.toNat / 16), Nat.digitChar (b.toNat % 16)])

/-- Horner's rule over hexadecimal digits. -/
def unhexFrom (acc : Nat) : List Char → Option Nat
  | [] => some acc
  | c :: cs => match unhex c with
    | some n => unhexFrom (acc * 16 + n) cs
    | none => none

theorem unhex_digitChar : ∀ n < 16, unhex (Nat.digitChar n) = some n := by decide

theorem unhexFrom_hex : ∀ (bytes : List Byte) (acc : Nat),
    unhexFrom acc (bytes.flatMap fun b => [Nat.digitChar (b.toNat / 16), Nat.digitChar (b.toNat % 16)]) =
      some (bytes.foldl (fun n b => n * 256 + b.toNat) acc)
  | [], _ => rfl
  | b :: bs, acc => by
    have hb : b.toNat < 256 := b.isLt
    simp only [List.flatMap_cons, List.cons_append, List.nil_append, unhexFrom,
      unhex_digitChar (b.toNat / 16) (by omega), unhex_digitChar (b.toNat % 16) (by omega), List.foldl_cons]
    rw [unhexFrom_hex bs]
    congr 2
    omega

/-- UTF-8, as an example of a text encoding. -/
def utf8 (text : String) : List Byte := text.toByteArray.data.toList.map UInt8.toBitVec

/-- Back, where the bytes are valid. -/
def unUtf8 (bytes : List Byte) : Option String := String.fromUTF8? ⟨(bytes.map UInt8.ofBitVec).toArray⟩

theorem unUtf8_utf8 (text : String) : unUtf8 (utf8 text) = some text := by
  have h : (⟨((utf8 text).map UInt8.ofBitVec).toArray⟩ : ByteArray) = text.toByteArray := by
    have : ∀ l : List UInt8, (l.map UInt8.toBitVec).map UInt8.ofBitVec = l := by
      intro l; simp [Function.comp_def]
    unfold utf8
    rw [this]
  unfold unUtf8
  rw [h]
  simp [String.fromUTF8?]
  exact ⟨text.isValidUTF8, rfl⟩

/-- Some way to settle the host's open points. -/
def someChoices : HostChoices where
  sampleTopBit := true
  outgrown _ _ := none
  modZero p := p
  half k := k / 2
  half_rounds k := by omega
  eighth k := (k + 7) / 8
  eighth_rounds k := by omega
  zeroBytes := [0]
  zeroBytes_value := by decide
  hexOfBytes := hexOf
  parseHex s := unhexFrom 0 s.toList
  parseHex_hexOfBytes bytes := by simp only [hexOf, String.toList_ofList]; exact unhexFrom_hex bytes 0
  bytesOfText := utf8
  textOfBytes := unUtf8
  textOfBytes_bytesOfText := unUtf8_utf8
  hexDigits n := String.ofList (Nat.toDigits 16 n)
  sizeDigits n := String.ofList (Nat.toDigits 10 n)

/-- P3: the toy key. -/
theorem test_toy_key : (keysOfPrimes .prompt 12 17 61 53 small).1.toOption = some (⟨17, 3233, 12⟩, ⟨2753, 3233⟩) := by
  decide +kernel
/-- V9, with `irq` instead of polls, and `ACK` in the end. -/
theorem test_call_irq : (call ⟨[[]], [[.tick], [.run]], true, true⟩ .modexp [65, 17, 3233]
    { small with ctrl := ⟨true, false⟩ }).1 = .ok 1 := by decide +kernel
/-- R244, step 5: a fault is read from `ERR`, and the block is reset. -/
theorem test_call_fault : (call .prompt .modexp [3, 1, 0] small).1 = .error (.blockFault 2) ∧
    (call .prompt .modexp [3, 1, 0] small).2.status = ⟨false, false, false, false⟩ := by decide +kernel
/-- R244, step 1: from `BUSY` the older command (4^13 mod 497) ends first, and the new one's result is fetched. -/
theorem test_call_from_busy : (andThen (call .prompt .modexp [65, 17, 3233] { started 1 4 13 497 [] with limbs := 2 })
    fun _ t => fetchRead .res0 t).1 = .ok 2790 := by decide +kernel
/-- R244, step 1: from `FAULTED` the block is reset first. -/
theorem test_call_from_fault : (andThen (call .prompt .modexp [65, 17, 3233]
    { raiseFault .modulusZero (started 1 3 1 0 []) with limbs := 2 }) fun _ t => fetchRead .res0 t).1 = .ok 2790 := by
  decide +kernel
/-- R191, R246: `DONE` cleared after the completion and before the poll does not lose the result. -/
theorem test_call_ack_before_poll : (andThen (call ⟨[[]], [[.run, ackDone]], false, false⟩ .modexp [65, 17, 3233] small)
    fun _ t => fetchRead .res0 t).1 = .ok 2790 := by decide +kernel
/-- R95, V1: `FETCH RES1` with `RD RSIGN` gives -9, `FETCH RES2` +47. -/
theorem test_fetch_signed :
    (andThen (call .prompt .egcd [240, 46] small) fun _ t => fetchSigned .res1 t).1 = .ok (-9) ∧
    (andThen (call .prompt .egcd [240, 46] small) fun _ t => fetchSigned .res2 t).1 = .ok 47 := by decide +kernel
/-- R26: an early `FETCH` sees a fresh word for each limb. -/
theorem test_fetch_early : (fetchRead .res0 (accept 1 small)).2.env.observed =
    [(0x1004, Config.unspecifiedWord 1), (0x1000, Config.unspecifiedWord 0)] := rfl
/-- R191: a sample of 9 bits without its top bit is none where the top bit is forced. -/
theorem test_sample : someChoices.admitsSample 9 509 = true ∧ someChoices.admitsSample 9 255 = false ∧
    someChoices.admitsSample 9 512 = false := by decide
/-- R192: 500 is forced to 501, tested, rejected, and 503 is accepted; a candidate past 9 bits ends this host's search. -/
theorem test_big_prime : (bigPrime someChoices 9 ⟨500, [.prompt, .prompt]⟩ small).1.toOption = some 503 ∧
    (bigPrime someChoices 9 ⟨511, [.prompt, .prompt]⟩ small).1 = .error .candidateOutgrown := by decide +kernel
/-- R193: 499 mod 3 is 1, so 499 is discarded and 503 is the answer of the second attempt. -/
theorem test_rsa_prime : (rsaPrime someChoices 9 3 [⟨499, [.prompt]⟩, ⟨503, [.prompt]⟩] small).1.toOption = some (503, []) := by
  decide +kernel
/-- V3: the bytes of "hello", and the ciphertext integer of the scenario. -/
theorem test_hello_bytes : natOfBytes [0x68, 0x65, 0x6C, 0x6C, 0x6F] = 448378203247 ∧
    448378203247 ^ 3 = 0x115C68778FE82BCADA7BD0DA12A24F := by decide +kernel
/-- The key size 1024 admits 127 bytes and no more (V7). -/
theorem test_longest_message : someChoices.eighth 1024 = 128 := by decide

/-! ### Witnesses: the hypotheses of each statement can be met -/

theorem sound_reset : Sound State.reset :=
  ⟨by decide, by decide +kernel, trivial⟩

theorem sound_started : Sound (started 5 547 3 5 []) :=
  ⟨by decide, by decide +kernel, trivial⟩

theorem usable_reset : Usable State.reset := ⟨by decide, sound_reset, rfl⟩

theorem test_witness_illegal : State.reset.status.phase = .idle ∧ State.reset.env.rstAsserted = false ∧ (0x00000000 : Word).toNat = 0 ∧
    8 ≤ (0x00000008 : Word).toNat ∧ 8 ≤ (0x00000011 : Word).toNat := by decide
theorem test_witness_stepRuns : (started 1 4 13 497 []).status.phase = .busy ∧ decode (started 1 4 13 497 []).cmd = .ok .modexp ∧
    (started 1 4 13 497 []).env.rstAsserted = false ∧ (started 1 4 13 497 []).env.agenda = [] ∧
    ((started 1 4 13 497 []).withRst true).env.rstAsserted = true ∧ after (step ((started 1 4 13 497 []).withRst true))
      (fun t => t == State.reset.withRst true) = true ∧
    (withEvents (started 1 4 13 497 []) [.run]).env.agenda = [.run] := by decide +kernel
theorem test_witness_acceptedRuns : (withEvents State.reset [wr 0x010 (encode .egcd), .run]).status.phase = .idle ∧
    (withEvents State.reset [wr 0x010 (encode .egcd), .run]).env.agenda = wr 0x010 (encode .egcd) :: .run :: [] := by decide
theorem test_witness_eventsInOrder : (withEvents State.reset [ackDone, .rst true]).env.agenda = [ackDone] ++ [.rst true] ∧
    ∃ t, performAll [ackDone] ((withEvents State.reset [ackDone, .rst true]).withAgenda [.rst true]) = .next t := ⟨rfl, _, rfl⟩
theorem test_witness_resetValues : (State.reset.withRst true).env.rstAsserted = true ∧
    ∃ t, perform (wr 0x400 5) (State.reset.withRst true) = .next t := ⟨rfl, _, rfl⟩
theorem test_witness_softReset : (0x80000003 : Word).getLsbD 31 = true ∧ (0x7FFFFFFF : Word).getLsbD 31 = false := by decide
theorem test_witness_reads : State.reset.rv = .valid ∧ LegalBuild State.reset ∧ State.reset.rcnt < 2 ^ 32 ∧
    (63 : Nat) < State.reset.limbs := by decide
theorem test_witness_fetch : State.reset.big .res1 < 2 ^ State.reset.width := by decide +kernel
theorem test_witness_reserved : aligned 0x024 = true ∧ aligned 0x3FC = true ∧ aligned 0x500 = true ∧ aligned 0x1C00 = true ∧
    aligned 0x1FFC = true ∧ State.reset.limbs ≤ (0x500 : Offset).toNat % 0x400 / 4 := by decide
theorem test_witness_earlyReads : (started 1 4 13 497 []).rv = .unspecified ∧ aligned 0x014 = true ∧ aligned 0x10FC = true ∧
    (0x10FC : Offset).toNat % 0x400 / 4 < (started 1 4 13 497 []).limbs ∧ aligned 0x1100 = true := by decide
theorem test_witness_readChanges : ∃ t, hostRead 0x00C State.reset = .next t := ⟨_, rfl⟩
theorem test_witness_hostWrite : (0x008 : Offset).toNat % 4 = 0 ∧ (0x00C : Offset).toNat % 4 = 0 ∧ (0x010 : Offset).toNat % 4 = 0 ∧
    (0x400 : Offset).toNat % 4 = 0 ∧ (0x7FC : Offset).toNat % 4 = 0 ∧ (0xCFC : Offset).toNat % 4 = 0 ∧
    (0x1000 : Offset).toNat % 4 = 0 := by decide
theorem test_witness_dropped : (started 1 4 13 497 []).status.phase ≠ .idle ∧ (0xCFC : Offset).toNat % 0x400 / 4 < (started 1 4 13 497 []).limbs ∧
    (started 1 4 13 497 []).status.accerr = false ∧ (started 1 4 13 497 []).status.fault = false ∧
    after (hostWrite 0xCFC 1 (started 1 4 13 497 [])) (fun t => t.status.accerr) = true := by decide +kernel
theorem test_witness_misaligned : (0x402 : Offset).toNat % 4 ≠ 0 := by decide
theorem test_witness_cmdWrite : State.reset.status.phase = .idle ∧ (started 1 4 13 497 []).status.phase ≠ .idle := by decide
theorem test_witness_modexp : JustAccepted (started 1 4 13 497 []) ∧ (started 1 4 13 497 []).op2 ≠ 0 ∧
    JustAccepted (started 1 4 13 0 []) ∧ (started 1 4 13 0 []).op2 = 0 := by decide
theorem test_witness_expLoop : (0 : Nat) < 497 ∧ ExpSound 4 13 497 (expInit 4 13 497 (by decide)) ∧
    ∃ v, expNext 497 (by decide) (expInit 4 13 497 (by decide)) = some v :=
  ⟨by decide, by unfold ExpSound; decide, _, rfl⟩
theorem test_witness_trialdiv : JustAccepted (started 2 541 0 0 []) ∧ 541 ∈ smallPrimes ∧ 91 ∉ smallPrimes ∧
    (∃ p ∈ smallPrimes, p ∣ 91) ∧ 547 ∉ smallPrimes ∧ ¬ ∃ p ∈ smallPrimes, p ∣ 547 := by decide +kernel
theorem test_witness_trialComposite : 2 ≤ 298109 ∧ 298109 < 299209 ∧ 298109 = 541 * 551 + 18 ∧ ¬ Nat.Prime 4 :=
  ⟨by decide, by decide, by decide, by decide⟩
theorem test_witness_rewrite : JustAccepted (started 3 28 0 0 []) ∧ 7 % 2 = 1 ∧ (started 3 28 0 0 []).op0 = 2 ^ 2 * 7 ∧
    (started 3 0 0 0 []).op0 = 0 := by decide
theorem test_witness_mrtestSpecial : (started 4 2 0 0 []).op0 = 2 ∧ (started 4 4 0 0 []).op0 % 2 = 0 ∧
    (started 4 1 0 0 []).op0 = 1 := by decide

theorem survives_5_2 : InRange 5 2 ∧ Survives 5 2 :=
  ⟨by decide, ⟨2, 1⟩, by unfold Decomposed; decide, .inr ⟨1, by decide, by decide⟩⟩

theorem not_survives_9_2 : ¬ Survives 9 2 := by
  rintro ⟨⟨s, d⟩, ⟨hd, hodd⟩, h⟩
  simp only at hd hodd h
  have hs : s ≤ 3 := by
    by_contra hlt
    have h16 : 2 ^ 4 ≤ 2 ^ s := Nat.pow_le_pow_right (by decide) (by omega)
    have : 2 ^ s * 1 ≤ 2 ^ s * d := Nat.mul_le_mul_left _ (by omega)
    omega
  interval_cases s
  · omega
  · omega
  · omega
  · obtain rfl : d = 1 := by omega
    revert h; decide

theorem test_witness_probablyPrime : JustAccepted (started 4 5 0 0 (List.replicate 128 2)) ∧
    (started 4 5 0 0 (List.replicate 128 2)).env.script = List.replicate 128 2 ++ [] ∧
    (List.replicate 128 2).length = 128 ∧ ∀ a ∈ List.replicate 128 2, InRange 5 a ∧ Survives 5 a :=
  ⟨⟨rfl, rfl⟩, (List.append_nil _).symm, by simp, fun _ h => (List.eq_of_mem_replicate h) ▸ survives_5_2⟩
theorem test_witness_composite : JustAccepted (started 4 9 0 0 [2]) ∧ 5 ≤ 9 ∧ 9 % 2 = 1 ∧
    (started 4 9 0 0 [2]).env.script = [] ++ 2 :: [] ∧ InRange 9 2 ∧ ¬ Survives 9 2 :=
  ⟨⟨rfl, rfl⟩, by decide, by decide, rfl, by decide, not_survives_9_2⟩
theorem test_witness_hold : JustAccepted (started 4 5 0 0 [2]) ∧ (started 4 5 0 0 [2]).status.busy = true ∧
    (started 4 5 0 0 [2]).env.rstAsserted = false ∧
    (started 4 5 0 0 [2]).cmd = encode .mrtest ∧ (started 4 5 0 0 [2]).env.script = [2] ∧
    ∀ b ∈ [2], InRange 5 b ∧ Survives 5 b :=
  ⟨⟨rfl, rfl⟩, rfl, rfl, rfl, rfl, by simpa using survives_5_2⟩
theorem test_witness_hold_isprime : JustAccepted (started 5 547 0 0 []) ∧ (started 5 547 0 0 []).status.busy = true ∧
    (started 5 547 0 0 []).env.rstAsserted = false ∧ (started 5 547 0 0 []).cmd = encode .isprime ∧
    (started 5 547 0 0 []).env.script = [] ∧ (¬ ∃ p ∈ smallPrimes, p ∣ (started 5 547 0 0 []).op0) ∧ InRange 547 2 := by
  decide +kernel
theorem test_witness_outOfRange : (started 4 5 0 0 [2, 4]).env.script = [2] ++ 4 :: [] ∧ ¬ InRange 5 4 ∧
    (∀ b ∈ [2], InRange 5 b ∧ Survives 5 b) ∧
    (started 5 547 0 0 [546]).env.script = [] ++ 546 :: [] ∧ ¬ InRange 547 546 :=
  ⟨rfl, by decide, by simpa using survives_5_2, rfl, by decide⟩

/-- `MRTEST` on 5, waiting for its first answer. -/
def waiting : State :=
  { started 4 5 0 0 [] with
    work := some (.millerRabin (.draw 1 ⟨2, 1⟩))
    request := some ⟨2, 3⟩
    env := ⟨[], [], [⟨2, 3⟩], [], 0, false⟩ }

theorem test_witness_outOfRange_event : Coherent waiting ∧ waiting.request = some ⟨2, 3⟩ ∧ ¬ (2 ≤ 4 ∧ 4 ≤ 3) ∧
    waiting.env.rstAsserted = false ∧ 0 ≠ waiting.env.asked.length ∧ State.reset.request = none := by decide +kernel
theorem test_witness_primes : Nat.Prime (started 4 2 0 0 []).op0 ∧ WorkSound (started 4 2 0 0 []) ∧
    ∃ t, exec .mrtest (started 4 2 0 0 []) = .next t ∧ (started 4 2 0 0 []).status.busy = true ∧ t.status.busy = false :=
  ⟨Nat.prime_two, trivial, _, rfl, rfl, rfl⟩
/-- The general path: from the start, and in the middle of the first round. -/
theorem test_witness_primes_general : Nat.Prime 5 ∧ WorkSound (started 4 5 0 0 (List.replicate 128 2)) ∧
    (∃ t, exec .mrtest (started 4 5 0 0 (List.replicate 128 2)) = .next t ∧ (!t.status.busy) = true) ∧
    WorkSound waiting ∧ ∃ t, exec .mrtest { waiting with env := ⟨[], List.replicate 128 3, [⟨2, 3⟩], [], 0, false⟩ } = .next t ∧
      (!t.status.busy) = true :=
  ⟨by norm_num, trivial, after_spec (by decide +kernel),
    ⟨by decide, by decide, ⟨by decide, by decide⟩, by decide, by decide⟩, after_spec (by decide +kernel)⟩
theorem test_witness_primes_isprime : Nat.Prime 547 ∧ WorkSound (started 5 547 0 0 (List.replicate 128 2)) ∧
    ∃ t, exec .isprime (started 5 547 0 0 (List.replicate 128 2)) = .next t ∧ (!t.status.busy) = true :=
  ⟨by norm_num, trivial, after_spec (by decide +kernel)⟩
theorem test_witness_isprime : JustAccepted (started 5 547 0 0 (List.replicate 128 2)) ∧
    Nat.Prime 547 ∧ 541 < 547 ∧ 547 < 299209 ∧ (started 5 547 0 0 (List.replicate 128 2)).env.script = List.replicate 128 2 ++ [] ∧
    (∀ a ∈ List.replicate 128 2, InRange 547 a) ∧ Nat.Prime 541 ∧ ¬ Nat.Prime 91 ∧ (started 5 0 0 0 []).op0 = 0 ∧
    (started 5 1 0 0 []).op0 = 1 :=
  ⟨⟨rfl, rfl⟩, by norm_num, by decide, by decide, (List.append_nil _).symm,
    fun _ h => (List.eq_of_mem_replicate h) ▸ (by decide), by norm_num, by norm_num, rfl, rfl⟩
theorem test_witness_egcd : JustAccepted (started 6 240 46 0 []) ∧ 0 < Nat.gcd 240 46 ∧
    (∃ t, exec .egcd (started 6 240 46 0 []) = .next t) ∧ (started 6 5 0 0 []).op1 = 0 ∧ (started 6 0 5 0 []).op0 = 0 ∧
    (started 6 7 7 0 []).op0 = (started 6 7 7 0 []).op1 := ⟨⟨rfl, rfl⟩, by decide, ⟨_, rfl⟩, rfl, rfl, rfl⟩
theorem test_witness_invmod : JustAccepted (started 7 17 3120 0 []) ∧ Nat.gcd 17 3120 = 1 ∧ Nat.gcd 3 3120 ≠ 1 ∧
    (started 7 17 3120 0 []).op1 ≠ 0 ∧ (started 7 17 0 0 []).op1 = 0 := by decide
theorem test_witness_frame : ∃ t, exec .invmod (started 7 3 7 0 []) = .next t := ⟨_, rfl⟩
theorem test_witness_resultTable : (started 1 4 13 497 []).status.busy = true ∧ (started 1 4 13 497 []).status.fault = false ∧
    ∃ t, exec .modexp (started 1 4 13 497 []) = .next t ∧ t.status.busy = false ∧ t.status.fault = false :=
  ⟨rfl, rfl, _, rfl, rfl, rfl⟩
theorem test_witness_faultedCommand : (started 1 4 13 0 []).status.fault = false ∧
    ∃ t, exec .modexp (started 1 4 13 0 []) = .next t ∧ t.status.fault = true := ⟨rfl, _, rfl, rfl⟩
theorem test_witness_ignoresFlags : (started 6 12 18 0 []).work = ({ started 6 12 18 0 [] with ctrl := ⟨true, true⟩ } : State).work ∧
    (started 6 12 18 0 []).status.busy = true ∧
    ∃ u, exec .egcd (started 6 12 18 0 []) = .next u ∧ u.status.busy = false := ⟨rfl, rfl, _, rfl, rfl⟩
theorem test_witness_invariants : Coherent State.reset ∧ Sound State.reset ∧ faultExplained State.reset = true ∧
    step State.reset = .next State.reset := ⟨by decide, sound_reset, rfl, rfl⟩
theorem test_witness_invariants_busy : Coherent (started 5 547 3 5 []) ∧ Sound (started 5 547 3 5 []) ∧
    faultExplained (started 5 547 3 5 []) = true ∧ ∃ t, step (started 5 547 3 5 []) = .next t ∧ t.request.isSome = true :=
  ⟨by decide, sound_started, rfl, _, rfl, by decide +kernel⟩
theorem test_witness_phase : FlagsExclusive (withEvents State.reset [wr 0x010 1]).status ∧
    ∃ t, step (withEvents State.reset [wr 0x010 1]) = .next t ∧
      t.status.phase ≠ (withEvents State.reset [wr 0x010 1]).status.phase := ⟨by decide, _, rfl, by decide⟩
theorem test_witness_sticky : Coherent (raiseFault .modulusZero (started 1 4 13 0 [])) ∧
    (raiseFault .modulusZero (started 1 4 13 0 [])).status.fault = true ∧
    resets (raiseFault .modulusZero (started 1 4 13 0 [])) = false ∧
    ∃ t, step (raiseFault .modulusZero (started 1 4 13 0 [])) = .next t := ⟨by decide, rfl, rfl, _, rfl⟩
theorem test_witness_operands : ∃ t, step (withEvents State.reset [wr 0x400 5]) = .next t ∧ t.op0 ≠ 0 :=
  ⟨_, rfl, by decide +kernel⟩
theorem test_witness_results : ∃ t, step (started 1 4 13 497 []) = .next t ∧ t.res0 ≠ (started 1 4 13 497 []).res0 :=
  ⟨_, rfl, by decide⟩
theorem test_witness_err : ∃ t, step (started 0 0 0 0 []) = .next t ∧ t.err ≠ (started 0 0 0 0 []).err := ⟨_, rfl, by decide⟩
theorem test_witness_iteration_coherent : Coherent (started 6 240 46 0 []) ∧ WorkSound (started 6 240 46 0 []) ∧
    (started 6 240 46 0 []).status.busy = true ∧ Coherent waiting ∧ waiting.status.busy = true :=
  ⟨by decide +kernel, trivial, rfl, by decide +kernel, rfl⟩
theorem test_witness_iteration : WorkSound (started 6 240 46 0 []) ∧ (started 6 240 46 0 []).status.busy = true ∧
    ∃ t, tick .egcd (started 6 240 46 0 []) = .next t ∧ t.status.busy = true := ⟨trivial, rfl, _, rfl, rfl⟩
/-- An iteration that is refused: the answer 4 to `RandRange(2, 3)`. -/
theorem test_witness_iteration_refused : (∃ v, waiting.work = some (.millerRabin (.draw 1 v)) ∧ Decomposed 5 v) ∧
    (match tick .mrtest { waiting with env := ⟨[], [4], [⟨2, 3⟩], [], 0, false⟩ } with
      | .refused r => r == .samplerOutOfRange
      | _ => false) = true := ⟨⟨⟨2, 1⟩, rfl, by unfold Decomposed; decide⟩, by decide +kernel⟩
theorem test_witness_load : LegalBuild State.reset ∧ Fits State.reset ∧ State.reset.status.phase = .idle ∧
    State.reset.env.rstAsserted = false ∧
    2 ^ 2047 < 2 ^ State.reset.width := ⟨by decide, by decide +kernel, rfl, rfl, by decide +kernel⟩

theorem usable_started : Usable (started 1 4 13 497 []) := ⟨by decide, ⟨by decide, by decide +kernel, trivial⟩, rfl⟩

theorem test_witness_transaction : Usable State.reset ∧ 497 < 2 ^ State.reset.width ∧
    (∃ u, perform .run State.reset = .next u ∧ u.status.phase ≠ .busy) ∧ Usable (started 1 4 13 497 []) ∧
    ∃ u, perform .run (started 1 4 13 497 []) = .next u ∧ (u.status.phase != .busy) = true :=
  ⟨usable_reset, by decide +kernel, ⟨_, rfl, by decide⟩, usable_started, after_spec (by decide +kernel)⟩
theorem test_witness_keys : Nat.Prime 5 ∧ Nat.Prime 11 ∧ (5 - 1) * (11 - 1) < 2 ^ State.reset.width ∧
    Nat.gcd 3 ((5 - 1) * (11 - 1)) = 1 ∧ Nat.gcd 5 ((5 - 1) * (11 - 1)) ≠ 1 :=
  ⟨by norm_num, by norm_num, by decide +kernel, by decide, by decide⟩
/-- Two samples of 9 bits, 509 and (502 made odd) 503, give a key of 18 bits. -/
theorem test_witness_keySearch : (∀ b c, someChoices.outgrown b c = none) ∧
    (genKeys someChoices (.search [⟨509, [.prompt]⟩, ⟨502, [.prompt]⟩]) .prompt 18 3 small).1.toOption =
      some (⟨3, 509 * 503, 18⟩, ⟨170011, 509 * 503⟩) := ⟨fun _ _ => rfl, by decide +kernel⟩
theorem test_witness_roundTrip : Nat.Prime 3 ∧ Nat.Prime 11 ∧ 3 * 11 < 2 ^ State.reset.width ∧
    7 * 3 % ((3 - 1) * (11 - 1)) = 1 % ((3 - 1) * (11 - 1)) ∧ 5 < 3 * 11 :=
  ⟨by norm_num, by norm_num, by decide +kernel, by decide, by decide⟩
/-- The text "A" with the toy key at key size 16. -/
theorem test_witness_decrypt : Nat.Prime 61 ∧ Nat.Prime 53 ∧ 61 * 53 < 2 ^ State.reset.width ∧
    2753 * 17 % ((61 - 1) * (53 - 1)) = 1 % ((61 - 1) * (53 - 1)) ∧
    (someChoices.bytesOfText "A").length < someChoices.eighth 16 ∧ natOfBytes (someChoices.bytesOfText "A") < 61 * 53 ∧
    someChoices.bytesOfText "A" ≠ [] ∧ (someChoices.bytesOfText "A").head? ≠ some 0 :=
  ⟨by norm_num, by norm_num, by decide +kernel, by decide, by decide +kernel, by decide +kernel, by decide +kernel,
    by decide +kernel⟩
theorem test_witness_tooLong : someChoices.eighth 8 ≤ (someChoices.bytesOfText "A").length ∧
    128 ≤ (someChoices.bytesOfText (String.ofList (List.replicate 128 'a'))).length := by decide +kernel
theorem test_witness_hello : Nat.Prime 999983 ∧ Nat.Prime 999959 ∧ 0x68656C6C6F < 999983 * 999959 ∧
    999983 * 999959 < 2 ^ State.reset.width ∧
    666626667171 * 3 % ((999983 - 1) * (999959 - 1)) = 1 % ((999983 - 1) * (999959 - 1)) ∧
    someChoices.bytesOfText "hello" = [0x68, 0x65, 0x6C, 0x6C, 0x6F] :=
  ⟨by norm_num, by norm_num, by decide, by decide +kernel, by decide, by decide +kernel⟩

end Sys2Proof.Tests
end

/-! # The state: reset, `CTRL`, `irq`, and what no command changes (rules R32, R43, R45, R47) -/

namespace Sys2Proof.Machine

/-! ### The two registers that drive `irq`, at the host port -/

@[simp] theorem hostWrite_ctrl (w : Word) (s : State) : hostWrite 0x008 w s = .next (writeCtrl w s) := rfl

@[simp] theorem hostWrite_status (w : Word) (s : State) : hostWrite 0x00C w s = .next (writeStatus w s) := rfl

/-- `CTRL` reads as itself, whatever `RV` says (R61). -/
theorem readValue_ctrl (s : State) : s.readValue 0x008 = s.ctrl.word := rfl

/-- The bits of `CTRL` (R32). -/
theorem ctrl_word_bits (c : Ctrl) : c.word.getLsbD 0 = c.ieDone ∧ c.word.getLsbD 1 = c.ieFault := by
  obtain ⟨d, f⟩ := c
  cases d <;> cases f <;> decide

/-- `SRST` and the reserved bits of `CTRL` read 0 (R32). -/
theorem ctrl_word_high (c : Ctrl) (i : Nat) : c.word.getLsbD (i + 2) = false := by
  have hlt : c.word.toNat < 2 ^ 2 := by
    obtain ⟨d, f⟩ := c
    cases d <;> cases f <;> decide
  exact Nat.testBit_lt_two_pow (hlt.trans_le (Nat.pow_le_pow_right (by decide) (by omega)))

/-- Of a word written to `CTRL`, bits [1:0] read back and no others (R32): the mask 3 is `CTRL` with both enables on. -/
theorem ctrl_ofWord_word (w : Word) : (Ctrl.ofWord w).word = w &&& 3 := by
  have hmask : (3 : Word) = Ctrl.word ⟨true, true⟩ := by decide
  rw [hmask]
  refine BitVec.eq_of_getLsbD_eq fun i _ => ?_
  rw [BitVec.getLsbD_and]
  match i with
  | 0 => rw [(ctrl_word_bits _).1, (ctrl_word_bits _).1, Bool.and_true]; rfl
  | 1 => rw [(ctrl_word_bits _).2, (ctrl_word_bits _).2, Bool.and_true]; rfl
  | i + 2 => rw [ctrl_word_high, ctrl_word_high, Bool.and_false]

/-! ### What a move of the sequencer can leave behind -/

/-- The states a move of the sequencer can lead to: the fault entry (R214), the completion (R44), or the command still
under way, with the sampler's side moved on by the draws made (R42, R78). -/
inductive MoveEnd (s : State) : State → Prop where
  | faulted (c : Cause) (hc : c ≠ .noFault) : MoveEnd s (raiseFault c s)
  | completed (r : Results) (script : List Nat) (asked : List Request) :
      MoveEnd s (complete r { s with env := { s.env with script := script, asked := asked } })
  | underWay (w : Work) (q : Option Request) (script : List Nat) (asked : List Request) :
      MoveEnd s { s with work := some w, request := q, env := { s.env with script := script, asked := asked } }

/-- A completion without a draw. -/
theorem moveEnd_complete (r : Results) (s : State) : MoveEnd s (complete r s) :=
  .completed r s.env.script s.env.asked

/-- An iteration that moves only the working variables. -/
theorem moveEnd_iterated (w : Work) (s : State) : MoveEnd s { s with work := some w } :=
  .underWay w s.request s.env.script s.env.asked

/-- A run of any command ends so. -/
theorem exec_moveEnd {i : Instr} {s t : State} (h : exec i s = .next t) : MoveEnd s t := by
  rcases exec_next h with ⟨c, hc, rfl⟩ | ⟨r, rfl⟩ | ⟨-, _, hr⟩
  · exact .faulted c hc
  · exact moveEnd_complete r s
  · rcases endRounds_next hr with ⟨-, rfl⟩ | ⟨-, rfl⟩ | ⟨left, -, rfl⟩
    · exact .completed _ _ _
    · exact .completed _ _ _
    · exact .underWay _ _ _ _

theorem tickDraw_moveEnd {round : Nat} {m : MrStage} {s t : State} (h : tickDraw round (s.withStage m) = .next t) :
    MoveEnd s t := by
  unfold tickDraw at h
  split at h
  · cases h; exact moveEnd_complete _ s
  · split at h
    · cases h; exact .underWay _ _ _ _
    · split at h
      · cases h; exact moveEnd_iterated _ s
      · rcases deliver_next h with ⟨_, _, -, -, _, rfl⟩ | rfl <;> exact .underWay _ _ _ _

theorem tickVerdict_moveEnd {round : Nat} {v : RewriteVars} {verdict : RoundVerdict} {s t : State}
    (h : tickVerdict round v verdict s = .next t) : MoveEnd s t := by
  cases verdict with
  | pass => cases h; exact moveEnd_iterated _ s
  | composite => cases h; exact moveEnd_complete _ s

theorem tickStage_moveEnd {m : MrStage} {s t : State} {hc : 0 < s.op0} (h : tickStage m s hc = .next t) :
    MoveEnd s t := by
  cases m with
  | rewrite v =>
    simp only [tickStage] at h
    split at h <;> (cases h; exact moveEnd_iterated _ s)
  | draw round v => exact tickDraw_moveEnd h
  | power round v a p =>
    simp only [tickStage] at h
    split at h
    · cases h; exact moveEnd_iterated _ s
    · split at h
      · exact tickVerdict_moveEnd h
      · cases h; exact moveEnd_iterated _ s
  | square round v a j x =>
    simp only [tickStage] at h
    split at h
    · split at h
      · exact tickVerdict_moveEnd h
      · split at h
        · exact tickVerdict_moveEnd h
        · cases h; exact moveEnd_iterated _ s
    · exact tickVerdict_moveEnd h

theorem tickMillerRabin_moveEnd {s t : State} (h : tickMillerRabin s = .next t) : MoveEnd s t := by
  unfold tickMillerRabin at h
  split at h
  · cases h; exact moveEnd_complete _ s
  · split at h
    · cases h; exact moveEnd_complete _ s
    · split at h
      · cases h; exact .faulted _ (by decide)
      · exact tickStage_moveEnd h

/-- So does one iteration of any command. -/
theorem tick_moveEnd {i : Instr} {s t : State} (h : tick i s = .next t) : MoveEnd s t := by
  cases i with
  | modexp =>
    simp only [tick, tickModexp] at h
    split at h
    · cases h; exact .faulted _ (by decide)
    · split at h
      · cases h; exact moveEnd_iterated _ s
      · cases h; exact moveEnd_complete _ s
  | trialdiv =>
    simp only [tick, tickTrialdiv] at h
    split at h
    · cases h; exact moveEnd_iterated _ s
    · cases h; exact moveEnd_complete _ s
  | rewrite =>
    simp only [tick, tickRewrite] at h
    split at h
    · cases h; exact .faulted _ (by decide)
    · split at h
      · cases h; exact moveEnd_iterated _ s
      · cases h; exact moveEnd_complete _ s
  | mrtest => exact tickMillerRabin_moveEnd h
  | isprime =>
    simp only [tick, tickIsprime] at h
    split at h
    · exact tickMillerRabin_moveEnd h
    · split at h
      · cases h; exact moveEnd_iterated _ s
      · split at h
        · cases h; exact moveEnd_complete _ s
        · cases h; exact moveEnd_complete _ s
        · exact tickMillerRabin_moveEnd h
  | egcd =>
    simp only [tick, tickEgcd] at h
    split at h
    · cases h; exact moveEnd_iterated _ s
    · cases h; exact moveEnd_complete _ s
  | invmod =>
    simp only [tick, tickInvmod] at h
    split at h
    · cases h; exact .faulted _ (by decide)
    · split at h
      · cases h; exact moveEnd_iterated _ s
      · cases h; exact moveEnd_complete _ s

/-- However a move ends, it leaves the operands, `CMD`, `CTRL`, `ACCERR`, the build and the host's side alone. -/
theorem MoveEnd.frame {s t : State} (h : MoveEnd s t) :
    t.op0 = s.op0 ∧ t.op1 = s.op1 ∧ t.op2 = s.op2 ∧ t.cmd = s.cmd ∧ t.ctrl = s.ctrl ∧
    t.status.accerr = s.status.accerr ∧ t.limbs = s.limbs ∧
    t.env = { s.env with script := t.env.script, asked := t.env.asked } := by
  cases h <;> exact ⟨rfl, rfl, rfl, rfl, rfl, rfl, rfl, rfl⟩

theorem MoveEnd.rstAsserted {s t : State} (h : MoveEnd s t) : t.env.rstAsserted = s.env.rstAsserted := by
  cases h <;> rfl

/-! ### The level of `rst` is nobody's but `rst`'s own -/

/-- No host write touches the world outside. -/
@[simp] theorem writeTarget_env (x : Target) (w : Word) (s : State) : (writeTarget x w s).env = s.env := by
  rcases writeTarget_cases x w s with h | ⟨-, h⟩ | ⟨-, h⟩ | ⟨-, h⟩ | ⟨y, k, -, h⟩ <;> rw [h]
  · rcases writeCtrl_cases w s with ⟨-, h⟩ | ⟨-, h⟩ <;> rw [h]
    exact resetBlock_env s
  · exact writeStatus_env w s
  · rcases writeCmd_cases w s with ⟨-, h⟩ | ⟨-, h⟩ <;> rw [h]
    · exact accept_env w s
    · exact dropWrite_env s
  · rcases writeLimb_cases y k w s with ⟨-, h⟩ | ⟨-, -, h⟩ | ⟨-, -, h⟩ <;> rw [h]
    · cases y <;> rfl
    · exact dropWrite_env s

theorem hostAccess_rstAsserted {a : HostAccess} {s t : State} (h : hostAccess a s = .next t) :
    t.env.rstAsserted = s.env.rstAsserted := by
  cases a with
  | read off => obtain ⟨-, rfl⟩ := hostRead_next h; rfl
  | write off w => obtain ⟨-, rfl⟩ := hostWrite_next h; rw [writeTarget_env]

theorem samplerAnswer_rstAsserted {n a : Nat} {s t : State} (h : samplerAnswer n a s = .next t) :
    t.env.rstAsserted = s.env.rstAsserted := by
  rcases samplerAnswer_next h with ⟨-, -, hd⟩ | ⟨-, rfl⟩
  · rcases deliver_next hd with ⟨_, _, -, -, _, rfl⟩ | rfl <;> rfl
  · rfl

theorem sequencerMove_rstAsserted {move : Instr → State → StepResult} {s t : State}
    (hmove : ∀ {i}, move i s = .next t → MoveEnd s t) (h : sequencerMove move s = .next t) :
    t.env.rstAsserted = s.env.rstAsserted := by
  rcases sequencerMove_next h with ⟨-, rfl⟩ | ⟨-, -, rfl⟩ | ⟨-, i, -, hi⟩
  · rfl
  · rfl
  · exact (hmove hi).rstAsserted

/-- An event resets the block by changing `rst`, or leaves `rst` at its level (R240). -/
theorem act_next_rst {e : Event} {s t : State} (h : act e s = .next t) :
    (∃ b, e = .rst b ∧ t = resetBlock (s.withRst b)) ∨ t.env.rstAsserted = s.env.rstAsserted := by
  cases e with
  | host a => exact .inr (hostAccess_rstAsserted h)
  | rst b => cases h; exact .inl ⟨b, rfl, rfl⟩
  | answer n a => exact .inr (samplerAnswer_rstAsserted h)
  | run => exact .inr (sequencerMove_rstAsserted exec_moveEnd h)
  | tick => exact .inr (sequencerMove_rstAsserted tick_moveEnd h)

/-! ### Reset -/

/-- The registers that are fields of bits read 0 after reset (R47). -/
theorem reset_words :
    State.reset.ctrl.word = 0 ∧ State.reset.status.word = 0 ∧ State.reset.err.word = 0 ∧ State.reset.rtag.word = 0 ∧
    rsignWord State.reset.res1 State.reset.res2 = 0 := by decide

/-- Asserting `rst`, or releasing it, resets the block, whatever the block was doing (R240). -/
@[simp] theorem perform_rst (b : Bool) (s : State) : perform (.rst b) s = .next (resetBlock (s.withRst b)) := by
  rw [perform_of_act (t := resetBlock (s.withRst b)) rfl, holdInReset_resetBlock]

/-- While `rst` is asserted, whatever happens ends in a reset block (R240). -/
theorem perform_asserted {e : Event} {s t : State} (hr : s.env.rstAsserted = true) (h : perform e s = .next t) :
    ∃ u, t = resetBlock u := by
  obtain ⟨u, hu, rfl⟩ := perform_next h
  rcases act_next_rst hu with ⟨b, -, rfl⟩ | hsame
  · exact ⟨_, holdInReset_resetBlock _⟩
  · exact ⟨u, holdInReset_asserted (hsame.trans hr)⟩

/-- A pulse of `rst` on a block whose `rst` is released is the reset, and nothing else (R240, R241). -/
theorem performAll_rst_pulse {s : State} (hr : s.env.rstAsserted = false) :
    performAll [.rst true, .rst false] s = .next (resetBlock s) := by
  have hsame : resetBlock ((resetBlock (s.withRst true)).withRst false) = resetBlock s := by
    simp [resetBlock, State.withRst, ← hr]
  rw [performAll_cons (perform_rst true s), performAll_cons (perform_rst false _), performAll_nil, hsame]

/-! ### The obligations -/

/-- Settles O15: the branch of `writeCtrl` that bit 31 selects, and the pulse of `rst` it then equals. -/
theorem ctrlWriteStoresEnables : Obligations.CtrlWriteStoresEnables := by
  intro s v
  obtain ⟨hctrl, -⟩ := reset_words
  rcases writeCtrl_cases v s with ⟨hv, hw⟩ | ⟨hv, hw⟩
  · refine ⟨fun h => absurd (h.symm.trans hv) (by decide), fun _ =>
      ⟨resetBlock s, ?_, rfl, hctrl, performAll_rst_pulse⟩⟩
    rw [hostWrite_ctrl, hw]
  · refine ⟨fun _ => ⟨{ s with ctrl := Ctrl.ofWord v }, ?_, rfl, rfl, rfl, ?_, rfl⟩,
      fun h => absurd (h.symm.trans hv) (by decide)⟩
    · rw [hostWrite_ctrl, hw]
    · rw [readValue_ctrl, ctrl_ofWord_word]

/-- Settles O39: a run is a move of the sequencer, and no end of one touches what the frame names. -/
theorem commandFrame : Obligations.CommandFrame := fun _ _ _ h => (exec_moveEnd h).frame

/-- Settles O6: each of the three ways in gives a state of the form `resetBlock u`, whose every field is the table's. -/
theorem resetValues : Obligations.ResetValues := by
  refine ⟨fun s b => ⟨_, perform_rst b s, rfl⟩, fun t ht => ?_⟩
  have hreset : ∃ u, t = resetBlock u := by
    rcases ht with rfl | ⟨s, b, h⟩ | ⟨s, e, hr, h⟩
    · exact ⟨State.reset, rfl⟩
    · rw [perform_rst] at h; cases h; exact ⟨_, rfl⟩
    · exact perform_asserted hr h
  obtain ⟨u, rfl⟩ := hreset
  obtain ⟨hctrl, hstatus, herr, hrtag, hrsign⟩ := reset_words
  exact ⟨⟨rfl, rfl, rfl⟩, rfl, ⟨rfl, rfl, rfl, rfl⟩, hrsign, rfl, hrtag, rfl, hctrl, ⟨hstatus, rfl⟩, rfl, herr,
    rfl, rfl, rfl, rfl, rfl⟩

/-- Settles O17: the bits that `STATUS` and `CTRL` read as are the flags and enables of `irq`. -/
theorem irqFollowsStatusAndEnables : Obligations.IrqFollowsStatusAndEnables := by
  intro s
  obtain ⟨-, hdone, hfault⟩ := status_word_bits s.status
  obtain ⟨hieDone, hieFault⟩ := ctrl_word_bits s.ctrl
  refine ⟨?_, _, hostWrite_status _ s, fun h => ?_⟩
  · rw [readValue_status, readValue_ctrl, hdone, hfault, hieDone, hieFault]
    simp [State.irq]
  · have hcleared : (writeStatus 0x00000002 s).status.done = false := by simp [Status.writeOneToClear]
    rw [State.irq, hcleared, Bool.false_and, Bool.false_or, Bool.and_eq_true] at h
    exact h.1

end Sys2Proof.Machine

/-! # The register window: limbs, the write map, and the writes that are dropped (rules R62 to R67) -/

namespace Sys2Proof.Machine

/-! ### Limbs of a value -/

/-- A limb is 32 bits of the value (R63). -/
theorem limbOf_toNat (v k : Nat) : (limbOf v k).toNat = v / 2 ^ (32 * k) % 2 ^ 32 := BitVec.toNat_ofNat _ _

/-- The lowest `n` limbs add up to the value's lowest `32 * n` bits (R63). -/
theorem sum_limbOf (v n : Nat) :
    ((List.range n).map fun k => (limbOf v k).toNat * 2 ^ (32 * k)).sum = v % 2 ^ (32 * n) := by
  induction n with
  | zero => simp [Nat.mod_one]
  | succ n ih =>
    rw [List.sum_range_succ, ih, limbOf_toNat, pow_mul, pow_mul, Nat.mod_pow_succ (b := 2 ^ 32),
      Nat.mul_comm (_ % 2 ^ 32)]

/-- With valid results every limb reads as its bits of the register (R61, R63). -/
theorem readValue_limb_valid {s : State} (x : BigReg) {k : Nat} (hk : k < s.limbs) (hl : s.limbs ≤ 256)
    (hv : s.rv = .valid) : (s.readValue (x.offset k)).toNat = s.big x / 2 ^ (32 * k) % 2 ^ 32 := by
  rw [readValue_limb x hk hl, hv, ← limbOf_toNat]
  simp

/-! ### What an offset names (R29, R39, R65) -/

theorem windowAt_eq_some_iff {p : Nat} {x : BigReg} : windowAt p = some x ↔ x.base = 0x400 * p := by
  constructor
  · intro h
    unfold windowAt at h
    split at h <;> cases h <;> rfl
  · intro h
    have hp : p = x.base / 0x400 := by omega
    subst hp
    cases x <;> rfl

/-- An offset names a 32-bit register, a limb in the window it falls into, or, from 0x400 up, nothing: above the windows,
or at a limb index the build has not. -/
theorem target_cases (limbs : Nat) (off : Offset) :
    (off.toNat < 0x400 ∧ target limbs off = smallTarget off.toNat) ∨
    (∃ x : BigReg, x.base = 0x400 * (off.toNat / 0x400) ∧ off.toNat % 0x400 / 4 < limbs ∧
      target limbs off = .limb x (off.toNat % 0x400 / 4)) ∨
    (0x400 ≤ off.toNat ∧ (0x1C00 ≤ off.toNat ∨ limbs ≤ off.toNat % 0x400 / 4) ∧ target limbs off = .reserved) := by
  unfold target
  by_cases hsmall : off.toNat < 0x400
  · exact .inl ⟨hsmall, if_pos hsmall⟩
  · simp only [if_neg hsmall]
    cases hw : windowAt (off.toNat / 0x400) with
    | some x =>
      by_cases hk : off.toNat % 0x400 / 4 < limbs
      · exact .inr (.inl ⟨x, windowAt_eq_some_iff.1 hw, hk, if_pos hk⟩)
      · exact .inr (.inr ⟨by omega, .inr (by omega), if_neg hk⟩)
    | none =>
      refine .inr (.inr ⟨by omega, .inl ?_, rfl⟩)
      by_contra hlow
      have hp : off.toNat / 0x400 < 7 := by omega
      have hp' : 0 < off.toNat / 0x400 := by omega
      generalize off.toNat / 0x400 = p at hw hp hp'
      interval_cases p <;> cases hw

/-- Below the windows, writes reach `CTRL`, `STATUS` and `CMD` only (R62). -/
theorem writeTarget_smallTarget (n : Nat) (w : Word) (s : State) :
    writeTarget (smallTarget n) w s =
      if n = 0x008 then writeCtrl w s else if n = 0x00C then writeStatus w s
      else if n = 0x010 then writeCmd w s else s := by
  unfold smallTarget
  split <;> simp_all [writeTarget]

theorem writeCmd_eq_ite (w : Word) (s : State) :
    writeCmd w s = if s.status.phase = .idle then accept w s else dropWrite s := by
  rcases writeCmd_cases w s with ⟨hp, h⟩ | ⟨hp, h⟩ <;> simp only [h, hp, if_true, if_false]

theorem writeLimb_result {x : BigReg} (hx : x.isResult = true) (k : Nat) (w : Word) (s : State) :
    writeLimb x k w s = s := if_pos hx

theorem writeLimb_operand {x : BigReg} (hx : x.isResult = false) (k : Nat) (w : Word) (s : State) :
    writeLimb x k w s = if s.status.phase = .idle then s.setOperandLimb x k w else dropWrite s := by
  rcases writeLimb_cases x k w s with ⟨h, -⟩ | ⟨-, hp, h⟩ | ⟨-, hp, h⟩
  · exact absurd (hx.symm.trans h) (by decide)
  · rw [h, if_pos hp]
  · rw [h, if_neg hp]

/-- The windows of the operand registers are those below 0x1000 (R65). -/
theorem isResult_eq_false_iff (x : BigReg) : x.isResult = false ↔ x.base < 0x1000 := by cases x <;> decide

theorem base_lower_bound (x : BigReg) : 0x400 ≤ x.base := by cases x <;> decide

/-- Which operand register a limb write at byte offset `n` changes (R62, R65). -/
theorem setOperandLimb_at {x : BigReg} {n : Nat} (hx : x.isResult = false) (hn : x.base = 0x400 * (n / 0x400))
    (s : State) (k : Nat) (w : Word) :
    s.setOperandLimb x k w =
      if n < 0x800 then { s with op0 := setLimb s.op0 k w }
      else if n < 0xC00 then { s with op1 := setLimb s.op1 k w }
      else { s with op2 := setLimb s.op2 k w } := by
  cases x with
  | op0 =>
    simp only [BigReg.base] at hn
    rw [if_pos (by omega)]
    rfl
  | op1 =>
    simp only [BigReg.base] at hn
    rw [if_neg (by omega), if_pos (by omega)]
    rfl
  | op2 =>
    simp only [BigReg.base] at hn
    rw [if_neg (by omega), if_neg (by omega)]
    rfl
  | res0 | res1 | res2 => cases hx

/-! ### The writes that can be dropped (R41, R67) -/

/-- Whether a write to the target is dropped in any phase but `IDLE`. -/
def Target.guarded : Target → Bool
  | .cmd => true
  | .limb x _ => !x.isResult
  | .id | .param | .ctrl | .status | .rtag | .err | .rcnt | .rsign | .reserved => false

theorem smallTarget_guarded (n : Nat) : (smallTarget n).guarded = true ↔ n = 0x010 := by
  unfold smallTarget
  split <;> simp_all [Target.guarded]

/-- The guarded offsets are `CMD` and the limbs of the operand windows (R67). -/
theorem target_guarded_iff (limbs : Nat) (off : Offset) :
    (target limbs off).guarded = true ↔
      off.toNat = 0x010 ∨ 0x400 ≤ off.toNat ∧ off.toNat < 0x1000 ∧ off.toNat % 0x400 / 4 < limbs := by
  rcases target_cases limbs off with ⟨hn, h⟩ | ⟨x, hx, hk, h⟩ | ⟨hn, hout, h⟩
  · rw [h, smallTarget_guarded]
    omega
  · have hlow := base_lower_bound x
    rw [h, Target.guarded, Bool.not_eq_true', isResult_eq_false_iff]
    omega
  · rw [h]
    simp only [Target.guarded, Bool.false_eq_true, false_iff]
    omega

/-- A guarded write outside `IDLE` is dropped. -/
theorem writeTarget_guarded {x : Target} {s : State} (w : Word) (hx : x.guarded = true) (hp : s.status.phase ≠ .idle) :
    writeTarget x w s = dropWrite s := by
  cases x with
  | cmd => exact (writeCmd_eq_ite w s).trans (if_neg hp)
  | limb x k => exact (writeLimb_operand (by simpa [Target.guarded] using hx) k w s).trans (if_neg hp)
  | id | param | ctrl | status | rtag | err | rcnt | rsign | reserved => cases hx

@[simp] theorem setOperandLimb_status (s : State) (x : BigReg) (k : Nat) (w : Word) :
    (s.setOperandLimb x k w).status = s.status := by cases x <;> rfl

@[simp] theorem setOperandLimb_err (s : State) (x : BigReg) (k : Nat) (w : Word) :
    (s.setOperandLimb x k w).err = s.err := by cases x <;> rfl

/-- A write is dropped, resets the block, or sets neither `ACCERR` nor `FAULT` and leaves `ERR` alone. -/
theorem writeTarget_effect (x : Target) (w : Word) (s : State) :
    (x.guarded = true ∧ s.status.phase ≠ .idle ∧ writeTarget x w s = dropWrite s) ∨
    writeTarget x w s = resetBlock s ∨
    ((writeTarget x w s).status.fault = s.status.fault ∧ (writeTarget x w s).err = s.err ∧
      ((writeTarget x w s).status.accerr = true → s.status.accerr = true)) := by
  rcases writeTarget_cases x w s with h | ⟨-, h⟩ | ⟨-, h⟩ | ⟨rfl, h⟩ | ⟨y, k, rfl, h⟩ <;> rw [h]
  · exact .inr (.inr ⟨rfl, rfl, id⟩)
  · rcases writeCtrl_cases w s with ⟨-, h⟩ | ⟨-, h⟩ <;> rw [h]
    · exact .inr (.inl rfl)
    · exact .inr (.inr ⟨rfl, rfl, id⟩)
  · exact .inr (.inr ⟨rfl, rfl, fun hacc => (Bool.and_eq_true _ _ ▸ hacc).1⟩)
  · rcases writeCmd_cases w s with ⟨-, h⟩ | ⟨hp, h⟩ <;> rw [h]
    · exact .inr (.inr ⟨rfl, rfl, id⟩)
    · exact .inl ⟨rfl, hp, rfl⟩
  · rcases writeLimb_cases y k w s with ⟨-, h⟩ | ⟨-, -, h⟩ | ⟨hy, hp, h⟩ <;> rw [h]
    · exact .inr (.inr ⟨rfl, rfl, id⟩)
    · simp
    · exact .inl ⟨by rw [Target.guarded, hy]; rfl, hp, rfl⟩

/-! ### The obligations -/

/-- Settles O8: the offsets are those of the six windows, and a fetch adds up all the limbs of a value that has no more. -/
theorem limbReads : Obligations.LimbReads := by
  rintro s ⟨-, hl⟩ hv
  have limb (x : BigReg) {k : Nat} (hk : k < s.limbs) := readValue_limb_valid x hk hl hv
  refine ⟨fun k hk => ⟨limb .op0 hk, limb .op1 hk, limb .op2 hk, limb .res0 hk, limb .res1 hk, limb .res2 hk⟩,
    fun x hx => ?_⟩
  rw [fetch_valid x hl hv, sum_limbOf, Nat.mod_eq_of_lt hx]

/-- Settles O12: the write map of each kind of offset: a 32-bit register, a limb, and no register at all. -/
theorem hostWriteMap : Obligations.HostWriteMap := by
  intro s off v ha
  have haligned : aligned off = true := by simpa [aligned] using ha
  rw [hostWrite, if_pos haligned]
  congr 1
  rcases target_cases s.limbs off with ⟨hn, h⟩ | ⟨x, hx, hk, h⟩ | ⟨hn, hout, h⟩ <;> rw [h]
  · have hwindow : ¬ (0x400 ≤ off.toNat ∧ off.toNat < 0x1000 ∧ off.toNat % 0x400 / 4 < s.limbs) := by omega
    rw [writeTarget_smallTarget, writeCmd_eq_ite, if_neg hwindow]
    rfl
  · have hlow := base_lower_bound x
    rw [if_neg (by omega), if_neg (by omega), if_neg (by omega)]
    cases hres : x.isResult with
    | true =>
      have hbase : ¬ x.base < 0x1000 := by simp [← isResult_eq_false_iff, hres]
      rw [if_neg (by omega)]
      exact writeLimb_result hres _ v s
    | false =>
      have hbase := (isResult_eq_false_iff x).1 hres
      rw [if_pos ⟨by omega, by omega, hk⟩, ← setOperandLimb_at hres hx]
      exact writeLimb_operand hres _ v s
  · have hwindow : ¬ (0x400 ≤ off.toNat ∧ off.toNat < 0x1000 ∧ off.toNat % 0x400 / 4 < s.limbs) := by omega
    rw [if_neg (by omega), if_neg (by omega), if_neg (by omega), if_neg hwindow]
    rfl

/-- Settles O14: outside `IDLE` exactly the guarded writes are dropped; a reset clears `ACCERR`, `FAULT` and `ERR`, and no
other write sets one of them. -/
theorem droppedWrites : Obligations.DroppedWrites := by
  intro s t off v h
  obtain ⟨-, rfl⟩ := hostWrite_next h
  have hread : ∀ u, hostRead off s = .next u → u.status = s.status ∧ u.err = s.err := by
    intro u hu
    obtain ⟨-, rfl⟩ := hostRead_next hu
    exact ⟨rfl, rfl⟩
  rw [← target_guarded_iff]
  refine ⟨fun ⟨hp, hg⟩ => writeTarget_guarded v hg hp, ?_⟩
  rcases writeTarget_effect (target s.limbs off) v s with ⟨hg, hp, he⟩ | he | ⟨hfault, herr, hacc⟩
  · rw [he]
    exact ⟨fun _ _ => ⟨hp, hg⟩, id, .inl rfl, hread⟩
  · rw [he]
    exact ⟨fun _ hset => (Bool.false_ne_true hset).elim, fun _ => rfl, .inr rfl, hread⟩
  · exact ⟨fun hclear hset => (Bool.false_ne_true (hclear.symm.trans (hacc hset))).elim, hfault.trans, .inl herr, hread⟩

end Sys2Proof.Machine

/-! # The encoding: the opcode map and illegal words (rules R90 to R94) -/

namespace Sys2Proof

/-! ### The two fields of a word (R90) -/

/-- The two fields are the whole word. -/
theorem fieldsOf_append (w : Word) : (fieldsOf w).zero ++ (fieldsOf w).opcode = w :=
  (BitVec.extractLsb'_append_extractLsb'_eq_extractLsb' rfl).trans BitVec.extractLsb'_eq_self

@[simp] theorem Instr.fields_zero (i : Instr) : i.fields.zero = 0 := by cases i <;> rfl

/-! ### The decoder against the encoder (R91, R92) -/

theorem decodeOpcode_opcode {op : BitVec 4} {i : Instr} (h : decodeOpcode op = .ok i) : op = i.fields.opcode := by
  unfold decodeOpcode at h
  split at h <;> cases h <;> exact BitVec.eq_of_toNat_eq ‹_›

/-- What decodes to a command has that command's fields: `ZERO` is 0 and `OPCODE` is the command's. -/
theorem decode_fields {w : Word} {i : Instr} (h : decode w = .ok i) :
    (fieldsOf w).zero = i.fields.zero ∧ (fieldsOf w).opcode = i.fields.opcode := by
  unfold decode at h
  split at h
  · rename_i hzero
    exact ⟨(eq_of_beq hzero).trans i.fields_zero.symm, decodeOpcode_opcode h⟩
  · cases h

@[simp] theorem decode_encode (i : Instr) : decode (encode i) = .ok i := by
  cases i with
  | modexp => exact decode_modexp
  | trialdiv => exact decode_trialdiv
  | rewrite => exact decode_rewrite
  | mrtest => exact decode_mrtest
  | isprime => exact decode_isprime
  | egcd => exact decode_egcd
  | invmod => exact decode_invmod

theorem decode_eq_ok_iff {w : Word} {i : Instr} : decode w = .ok i ↔ w = encode i := by
  constructor
  · intro h
    obtain ⟨hzero, hopcode⟩ := decode_fields h
    rw [← fieldsOf_append w, hzero, hopcode, encode]
  · rintro rfl
    exact decode_encode i

/-! ### Illegal words (R94) -/

theorem encode_toNat_bounds (i : Instr) : 1 ≤ (encode i).toNat ∧ (encode i).toNat ≤ 7 := by
  cases i <;> decide

/-- A word other than 1 to 7 is no command. -/
theorem decode_eq_error {w : Word} (hw : w.toNat = 0 ∨ 8 ≤ w.toNat) : ∃ e, decode w = .error e := by
  cases h : decode w with
  | error e => exact ⟨e, rfl⟩
  | ok i =>
    obtain rfl := decode_eq_ok_iff.1 h
    have := encode_toNat_bounds i
    omega

end Sys2Proof

namespace Sys2Proof.Machine

@[simp] theorem hostWrite_cmd (w : Word) (s : State) : hostWrite 0x010 w s = .next (writeCmd w s) := rfl

/-- In `IDLE`, with `rst` released, a write to `CMD` is the acceptance of the word (R41). -/
theorem perform_wr_cmd {s : State} (w : Word) (hp : s.status.phase = .idle) (hr : s.env.rstAsserted = false) :
    perform (wr 0x010 w) s = .next (accept w s) := by
  have hact : act (wr 0x010 w) s = .next (accept w s) := by
    rw [show act (wr 0x010 w) s = hostWrite 0x010 w s from rfl, hostWrite_cmd, writeCmd_eq_ite, if_pos hp]
  exact perform_released hact hr

/-- Whatever move is asked for, on an illegal word it is the fault entry: the word is decoded first (R91, R216). -/
theorem sequencerMove_illegal {s : State} {e : DecodeError} (move : Instr → State → StepResult)
    (hp : s.status.phase = .busy) (hd : decode s.cmd = .error e) :
    sequencerMove move s = .next (raiseFault .illegalCmd s) := by
  simp only [sequencerMove, hp, hd]

/-! ### The obligations -/

/-- Settles O1: the decoder inverts the encoder, whose words are the rows of the map. -/
theorem opcodeMapBothWays : Obligations.OpcodeMapBothWays := by
  refine fun w i => ⟨decode_eq_ok_iff, ?_⟩
  cases i <;> simp [encode, Instr.fields]

/-- Settles O3: the accepted state is `BUSY` with the word in `CMD`, and there both moves are the fault entry. -/
theorem illegalWordLatchedThenFaults : Obligations.IllegalWordLatchedThenFaults := by
  intro s w hp hr hw
  obtain ⟨e, hd⟩ := decode_eq_error hw
  have hmove (move : Instr → State → StepResult) :
      sequencerMove move (accept w s) = .next (raiseFault .illegalCmd (accept w s)) :=
    sequencerMove_illegal move (phase_accept w s) hd
  exact ⟨accept w s, perform_wr_cmd w hp hr, rfl, rfl, perform_released (hmove exec) hr,
    perform_released (hmove tick) hr, rfl, rfl, rfl⟩

end Sys2Proof.Machine

/-! # Modular exponentiation: the loop of `ModExp` and `MODEXP` (rules R110 to R114) -/

namespace Sys2Proof.Machine

open Sys2Proof.Safety

/-! ### One iteration of the loop (R111) -/

/-- What an iteration does: the bit of the exponent it takes is `v.e % 2`. -/
theorem expNext_some {m : Nat} {hm : 0 < m} {v v' : ExpVars} (h : expNext m hm v = some v') :
    v'.result = (if v.e % 2 = 1 then v.result * v.b % m else v.result) ∧ v'.b = v.b * v.b % m ∧ v'.e = v.e / 2 := by
  unfold expNext at h
  split at h
  · cases h
  · cases h
    simp [isOdd, shr1]

/-- Multiplying in the bit: for a bit of 0 the factor is 1. -/
theorem expNext_result_modEq {m : Nat} {hm : 0 < m} {v v' : ExpVars} (h : expNext m hm v = some v') :
    v'.result ≡ v.result * v.b ^ (v.e % 2) [MOD m] := by
  obtain ⟨hresult, -, -⟩ := expNext_some h
  rw [hresult]
  rcases Nat.mod_two_eq_zero_or_one v.e with hbit | hbit
  · rw [hbit, if_neg (by decide), pow_zero, mul_one]
  · rw [hbit, if_pos rfl, pow_one]
    exact Nat.mod_modEq _ m

/-- The result stays reduced, whether the bit multiplies it or not. -/
theorem expNext_result_lt {m : Nat} {hm : 0 < m} {v v' : ExpVars} (h : expNext m hm v = some v')
    (hv : v.result < m) : v'.result < m := by
  obtain ⟨hresult, -, -⟩ := expNext_some h
  rw [hresult]
  split
  · exact Nat.mod_lt _ hm
  · exact hv

/-- The product of R112 keeps its residue: the lowest bit of `e` goes into the result, the others into the square. -/
theorem expNext_product_modEq {m : Nat} {hm : 0 < m} {v v' : ExpVars} (h : expNext m hm v = some v') :
    v'.result * v'.b ^ v'.e ≡ v.result * v.b ^ v.e [MOD m] := by
  obtain ⟨-, hb, he⟩ := expNext_some h
  have hsquare : v'.b ≡ v.b ^ 2 [MOD m] := by
    rw [hb, ← pow_two]
    exact Nat.mod_modEq _ m
  calc v'.result * v'.b ^ v'.e
      ≡ v.result * v.b ^ (v.e % 2) * (v.b ^ 2) ^ v'.e [MOD m] := (expNext_result_modEq h).mul (hsquare.pow _)
    _ = v.result * v.b ^ v.e := by rw [he, mul_assoc, ← pow_mul, ← pow_add, Nat.mod_add_div]

/-! ### The invariant (R112, R113) -/

theorem expSound_expInit (base exponent : Nat) {m : Nat} (hm : 0 < m) :
    ExpSound base exponent m (expInit base exponent m hm) :=
  ⟨Nat.mod_lt 1 hm, by simp [expInit], le_rfl, .inr rfl⟩

theorem expSound_expNext {base exponent m : Nat} {hm : 0 < m} {v v' : ExpVars} (hv : ExpSound base exponent m v)
    (h : expNext m hm v = some v') : ExpSound base exponent m v' := by
  obtain ⟨hresult, hproduct, he, -⟩ := hv
  obtain ⟨-, hb, -⟩ := expNext_some h
  exact ⟨expNext_result_lt h hresult, (expNext_product_modEq h).trans hproduct, (expNext_lowers h).le.trans he,
    .inl (hb ▸ Nat.mod_lt _ hm)⟩

theorem expSound_expLoop {base exponent m : Nat} {hm : 0 < m} {v : ExpVars} (hv : ExpSound base exponent m v) :
    ExpSound base exponent m (expLoop m hm v) :=
  loop_invariant (fun _ _ hv h => expSound_expNext hv h) v.e hv

/-! ### The exit (R112, R113) -/

/-- The fuel is enough: the loop ends at its own test. -/
theorem expLoop_e {m : Nat} (hm : 0 < m) (v : ExpVars) : (expLoop m hm v).e = 0 :=
  expNext_eq_none.1 (loop_ends (P := fun _ => True) (fun _ _ _ h => ⟨trivial, expNext_lowers h⟩) v.e trivial le_rfl)

/-- From wherever the invariant holds, the loop ends with the power: with `e = 0` the product of R112 is the result. -/
theorem expLoop_result {base exponent m : Nat} {hm : 0 < m} {v : ExpVars} (hv : ExpSound base exponent m v) :
    (expLoop m hm v).result = base ^ exponent % m := by
  obtain ⟨hresult, hproduct, -, -⟩ := expSound_expLoop (hm := hm) hv
  rwa [expLoop_e, pow_zero, mul_one, Nat.mod_eq_of_lt hresult] at hproduct

theorem modExp_eq (base exponent : Nat) {m : Nat} (hm : 0 < m) : modExp base exponent m hm = base ^ exponent % m :=
  expLoop_result (expSound_expInit base exponent hm)

/-! ### The command (R111) -/

theorem execModexp_of_zero {s : State} (h : s.op2 = 0) : execModexp s = .next (raiseFault .modulusZero s) := dif_pos h

theorem execModexp_of_pos {s : State} (hm : 0 < s.op2) :
    execModexp s = .next (complete (modexpResults (expLoop s.op2 hm (modexpVars s hm))) s) := dif_neg hm.ne'

/-- A command just accepted starts from the operands. -/
theorem modexpVars_of_accepted {s : State} (h : s.work = some .accepted) (hm : 0 < s.op2) :
    modexpVars s hm = expInit s.op0 s.op1 s.op2 hm := by
  rw [modexpVars, h]

/-! ### The obligations -/

/-- Settles O22: the start, one iteration, and the exit of the loop. -/
theorem modExpLoopInvariant : Obligations.ModExpLoopInvariant := fun base exponent _ hm =>
  ⟨expSound_expInit base exponent hm, fun _ _ hv h => expSound_expNext hv h,
    fun v hv => ⟨expLoop_e hm v, expLoop_result hv⟩⟩

/-- Settles O21: from acceptance the loop runs from its start, and ends with the power. -/
theorem modexpComputesPower : Obligations.ModexpComputesPower := by
  rintro s ⟨hwork, -⟩
  refine ⟨execModexp_of_zero, fun h => ?_⟩
  have hm : 0 < s.op2 := Nat.pos_of_ne_zero h
  have hresult : (expLoop s.op2 hm (modexpVars s hm)).result = s.op0 ^ s.op1 % s.op2 := by
    rw [modexpVars_of_accepted hwork hm]
    exact modExp_eq s.op0 s.op1 hm
  exact (execModexp_of_pos hm).trans (by rw [modexpResults, hresult])

end Sys2Proof.Machine

/-! # Primality: trial division, the rewrite decomposition, Miller–Rabin and the whole test (rules R131 to R147) -/

namespace Sys2Proof.Machine

open Sys2Proof.Safety

/-! ### The table (R131) -/

/-- The least factor of a composite is at most its root: why a sieve may stop there (R131, R134). -/
theorem minFac_lt_of_not_prime {n k : Nat} (hn : 0 < n) (hk : n < k ^ 2) (hprime : ¬ n.Prime) : n.minFac < k :=
  lt_of_pow_lt_pow_left₀ 2 (Nat.zero_le k) ((Nat.minFac_sq_le_self hn hprime).trans_lt hk)

/-- The sieve by the numbers from 2 to 23: what it leaves below `24^2` is prime. -/
def passesSieve (p : Nat) : Bool := decide (2 ≤ p) && (List.range' 2 22).all fun q => p % q != 0 || p == q

theorem passesSieve_iff {p : Nat} : passesSieve p = true ↔ 2 ≤ p ∧ ∀ q, 2 ≤ q → q < 24 → q ∣ p → p = q := by
  simp [passesSieve, Nat.dvd_iff_mod_eq_zero, imp_iff_not_or, or_assoc]

theorem passesSieve_iff_prime {p : Nat} (hp : p < 24 ^ 2) : passesSieve p = true ↔ p.Prime := by
  rw [passesSieve_iff]
  constructor
  · rintro ⟨h2, hsieve⟩
    have hfactor : p.minFac.Prime := Nat.minFac_prime (by omega)
    by_contra hprime
    have hself : p = p.minFac :=
      hsieve p.minFac hfactor.two_le (minFac_lt_of_not_prime (by omega) hp hprime) p.minFac_dvd
    exact hprime (hself ▸ hfactor)
  · intro hprime
    exact ⟨hprime.two_le, fun q hq _ hdvd => ((hprime.eq_one_or_self_of_dvd q hdvd).resolve_left (by omega)).symm⟩

/-- The table is what the sieve leaves below 547. -/
theorem smallPrimes_eq_sieve : smallPrimes = (List.range 547).filter passesSieve := by decide +kernel

/-- The first prime that is not in the table is at least 547. -/
theorem mem_smallPrimes_iff {p : Nat} : p ∈ smallPrimes ↔ p.Prime ∧ p < 547 := by
  rw [smallPrimes_eq_sieve, List.mem_filter, List.mem_range, and_comm]
  exact and_congr_left fun hp => passesSieve_iff_prime (hp.trans (by decide))

theorem le_of_mem_smallPrimes : ∀ p ∈ smallPrimes, p ≤ 541 := by decide

theorem sortedLT_smallPrimes : smallPrimes.SortedLT := by
  rw [smallPrimes_eq_sieve]
  exact (List.pairwise_lt_range.filter _).sortedLT

theorem prime_of_mem_smallPrimes {p : Nat} (hp : p ∈ smallPrimes) : p.Prime := (mem_smallPrimes_iff.1 hp).1

/-- Below 547² a composite has a factor in the table (R134, R147). -/
theorem exists_smallPrime_dvd_of_not_prime {c : Nat} (h2 : 2 ≤ c) (hc : c < 547 ^ 2) (hprime : ¬ c.Prime) :
    ∃ p ∈ smallPrimes, p ∣ c := by
  have hfactor : c.minFac.Prime := Nat.minFac_prime (by omega)
  exact ⟨c.minFac, mem_smallPrimes_iff.2 ⟨hfactor, minFac_lt_of_not_prime (by omega) hc hprime⟩, c.minFac_dvd⟩

/-- The only small prime that can divide a prime is that prime. -/
theorem eq_of_smallPrime_dvd_prime {p c : Nat} (hp : p ∈ smallPrimes) (hc : c.Prime) (hdvd : p ∣ c) : c = p :=
  ((Nat.prime_dvd_prime_iff_eq (prime_of_mem_smallPrimes hp) hc).1 hdvd).symm

theorem not_smallPrime_dvd_one : ¬ ∃ p ∈ smallPrimes, p ∣ 1 := fun ⟨_, hp, hdvd⟩ =>
  (prime_of_mem_smallPrimes hp).one_lt.ne' (Nat.dvd_one.1 hdvd)

/-! ### Trial division (R132) -/

/-- At an index of the table: the loop ends there when the entry is the candidate or divides it. -/
theorem trialNext_of_lt (c : Nat) {k : Nat} (hk : k < smallPrimes.length) :
    trialNext c k = if c = smallPrimes[k] ∨ smallPrimes[k] ∣ c then none else some (k + 1) :=
  (dif_pos hk).trans (if_congr (or_congr_right Nat.dvd_iff_mod_eq_zero.symm) rfl rfl)

theorem trialVerdictAt_of_lt (c : Nat) {k : Nat} (hk : k < smallPrimes.length) :
    trialVerdictAt c k = if c = smallPrimes[k] then .accept else if smallPrimes[k] ∣ c then .reject else .undecided :=
  (dif_pos hk).trans (if_congr .rfl rfl (if_congr Nat.dvd_iff_mod_eq_zero.symm rfl rfl))

theorem trialVerdictAt_of_ge (c : Nat) {k : Nat} (hk : smallPrimes.length ≤ k) : trialVerdictAt c k = .undecided :=
  dif_neg (not_lt.2 hk)

theorem trialSound_zero (c : Nat) : TrialSound c 0 := ⟨Nat.zero_le _, by simp⟩

theorem trialSound_trialNext {c k k' : Nat} (hs : TrialSound c k) (h : trialNext c k = some k') : TrialSound c k' := by
  obtain ⟨-, hbefore⟩ := hs
  have hk : k < smallPrimes.length := by
    by_contra hk
    rw [trialNext, dif_neg hk] at h
    cases h
  rw [trialNext_of_lt c hk] at h
  split at h
  · cases h
  · rename_i hentry
    cases h
    refine ⟨hk, fun p hp => ?_⟩
    rw [← List.take_append_getElem hk, List.mem_append, List.mem_singleton] at hp
    rcases hp with hp | rfl
    · exact hbefore p hp
    · exact not_or.1 hentry

theorem trialSound_trialEnd {c k : Nat} (hs : TrialSound c k) : TrialSound c (trialEnd c k) :=
  loop_invariant (fun _ _ hs h => trialSound_trialNext hs h) _ hs

/-- The fuel is enough: the loop ends at its own test. -/
theorem trialNext_trialEnd (c k : Nat) : trialNext c (trialEnd c k) = none :=
  loop_ends (P := fun _ => True) (fun _ _ _ h => ⟨trivial, (trialNext_lowers h).2⟩) _ trivial le_rfl

/-- The first entry that ends the loop decides: a small prime meets itself first, for no other prime divides it. -/
theorem trialVerdictAt_trialEnd {c k : Nat} (hs : TrialSound c k) :
    trialVerdictAt c (trialEnd c k) =
      if c ∈ smallPrimes then .accept else if ∃ p ∈ smallPrimes, p ∣ c then .reject else .undecided := by
  obtain ⟨-, hbefore⟩ := trialSound_trialEnd hs
  have hend := trialNext_trialEnd c k
  generalize trialEnd c k = e at hbefore hend
  by_cases he : e < smallPrimes.length
  · have hmem : smallPrimes[e] ∈ smallPrimes := List.getElem_mem he
    rw [trialVerdictAt_of_lt c he]
    rw [trialNext_of_lt c he] at hend
    by_cases heq : c = smallPrimes[e]
    · rw [if_pos heq, if_pos (heq ▸ hmem)]
    · have hdvd : smallPrimes[e] ∣ c := by simpa [heq] using hend
      have hc : c ∉ smallPrimes := fun hc =>
        heq (eq_of_smallPrime_dvd_prime hmem (prime_of_mem_smallPrimes hc) hdvd)
      rw [if_neg heq, if_pos hdvd, if_neg hc, if_pos ⟨_, hmem, hdvd⟩]
  · rw [not_lt] at he
    rw [List.take_of_length_le he] at hbefore
    rw [trialVerdictAt_of_ge c he, if_neg fun hc => (hbefore c hc).1 rfl,
      if_neg fun ⟨p, hp, hdvd⟩ => (hbefore p hp).2 hdvd]

theorem trialVerdictAt_one (k : Nat) : trialVerdictAt 1 k = .undecided := by
  by_cases hk : k < smallPrimes.length
  · have hmem : smallPrimes[k] ∈ smallPrimes := List.getElem_mem hk
    rw [trialVerdictAt_of_lt 1 hk, if_neg (prime_of_mem_smallPrimes hmem).one_lt.ne,
      if_neg fun hdvd => not_smallPrime_dvd_one ⟨_, hmem, hdvd⟩]
  · exact trialVerdictAt_of_ge 1 (not_lt.1 hk)

/-! ### The rewrite decomposition (R135) -/

theorem rewriteNext_even (j e : Nat) : rewriteNext ⟨j, 2 * e⟩ = some ⟨j + 1, e⟩ := by
  simp [rewriteNext, isEven, shr1]

/-- Each iteration moves one factor 2 into the count, until none is left. -/
theorem loop_rewriteNext {d : Nat} (hd : d % 2 = 1) : ∀ n k j : Nat,
    loop rewriteNext n ⟨j, 2 ^ k * d⟩ = ⟨j + min n k, 2 ^ (k - n) * d⟩
  | 0, k, j => by simp [loop]
  | n + 1, 0, j => by simpa using loop_of_none (v := ⟨j, d⟩) (rewriteNext_eq_none.2 hd) (n + 1)
  | n + 1, k + 1, j => by
    rw [pow_succ', mul_assoc, loop_succ_of_some (rewriteNext_even ..), loop_rewriteNext hd n k (j + 1),
      Nat.add_min_add_right, Nat.add_sub_add_right, Nat.add_right_comm, Nat.add_assoc]

/-- The fuel of the loop is enough, so that it ends with the decomposition. -/
theorem rewriteOf_eq {d : Nat} (hd : d % 2 = 1) (k : Nat) : rewriteOf (2 ^ k * d) = ⟨k, d⟩ := by
  have hk : k ≤ 2 ^ k * d := k.lt_two_pow_self.le.trans (Nat.le_mul_of_pos_right _ (by omega))
  calc rewriteOf (2 ^ k * d) = loop rewriteNext (2 ^ k * d) ⟨0, 2 ^ k * d⟩ := rfl
    _ = ⟨k, d⟩ := by rw [loop_rewriteNext hd, min_eq_right hk, Nat.sub_eq_zero_of_le hk, zero_add, pow_zero, one_mul]

/-- The loop test fails exactly from the `k`-th iteration on. -/
theorem rewriteNext_loop_eq_none_iff {d : Nat} (hd : d % 2 = 1) (k n : Nat) :
    rewriteNext (loop rewriteNext n (rewriteInit (2 ^ k * d))) = none ↔ k ≤ n := by
  rw [rewriteInit, loop_rewriteNext hd, rewriteNext_eq_none]
  rcases Nat.eq_zero_or_pos (k - n) with h | h
  · simp [h, hd, Nat.le_of_sub_eq_zero h]
  · obtain ⟨m, hm⟩ := Nat.exists_eq_succ_of_ne_zero h.ne'
    simp only [hm, pow_succ', mul_assoc, Nat.mul_mod_right]
    omega

/-! ### One Miller–Rabin round (R139) -/

/-- `c - 1` has only one decomposition, so the condition of R139 may be read with any that is at hand. -/
theorem decomposed_unique {c : Nat} {v w : RewriteVars} (hv : Decomposed c v) (hw : Decomposed c w) : v = w := by
  obtain ⟨hv, hvodd⟩ := hv
  obtain ⟨hw, hwodd⟩ := hw
  calc v = rewriteOf (c - 1) := by rw [hv, rewriteOf_eq hvodd]
    _ = w := by rw [hw, rewriteOf_eq hwodd]

theorem survives_iff {c a : Nat} {v : RewriteVars} (hv : Decomposed c v) :
    Survives c a ↔ a ^ v.d % c = 1 ∨ ∃ j < v.s, a ^ (2 ^ j * v.d) % c = c - 1 := by
  constructor
  · rintro ⟨w, hw, h⟩
    rwa [decomposed_unique hv hw]
  · intro h
    exact ⟨v, hv, h⟩

/-- For an odd candidate the count of factors 2 is not 0. -/
theorem decomposed_s_pos {c : Nat} {v : RewriteVars} (hv : Decomposed c v) (hc : c % 2 = 1) : 0 < v.s := by
  obtain ⟨hv, hodd⟩ := hv
  by_contra hs
  rw [Nat.eq_zero_of_not_pos hs, pow_zero, one_mul] at hv
  omega

theorem rewriteOf_decomposed {c : Nat} (hc : 2 ≤ c) : Decomposed c (rewriteOf (c - 1)) := by
  obtain ⟨k, d, hodd, hcd⟩ := Nat.exists_eq_two_pow_mul_odd (n := c - 1) (by omega)
  have hodd : d % 2 = 1 := Nat.odd_iff.1 hodd
  rw [hcd, rewriteOf_eq hodd]
  exact ⟨hcd, hodd⟩

theorem mrSquares_succ {c : Nat} (hc : 0 < c) (left x : Nat) :
    mrSquares c hc (left + 1) x =
      if x * x % c = 1 then .composite else if x * x % c = c - 1 then .pass else mrSquares c hc left (x * x % c) := rfl

/-- The inner loop passes when a squaring meets `c - 1`.  Once one meets 1, none after it does. -/
theorem mrSquares_eq_pass_iff {c : Nat} (hc : 0 < c) (h2 : 2 < c) : ∀ left x : Nat,
    mrSquares c hc left x = .pass ↔ ∃ j < left, x ^ 2 ^ (j + 1) % c = c - 1
  | 0, x => by simp [mrSquares]
  | left + 1, x => by
    have hfirst : x ^ 2 ^ (0 + 1) % c = x * x % c := by rw [zero_add, pow_one, pow_two]
    have hrest (j : Nat) : x ^ 2 ^ (j + 1 + 1) % c = (x * x % c) ^ 2 ^ (j + 1) % c := by
      rw [← Nat.pow_mod, ← pow_two, ← pow_mul, ← pow_succ']
    rw [mrSquares_succ, Nat.exists_lt_succ_left, hfirst]
    simp only [hrest]
    by_cases hone : x * x % c = 1
    · have hmod : 1 % c = 1 := Nat.mod_eq_of_lt (by omega)
      have hneg : 1 ≠ c - 1 := by omega
      simp [hone, hmod, hneg]
    · by_cases hneg : x * x % c = c - 1
      · rw [if_neg hone, if_pos hneg]
        simp [hneg]
      · rw [if_neg hone, if_neg hneg, mrSquares_eq_pass_iff hc h2 left, or_iff_right hneg]

/-- A round passes exactly on the witnesses that R139 lets pass. -/
theorem mrRound_eq_pass_iff {c a : Nat} (hc : 0 < c) {v : RewriteVars} (hv : Decomposed c v) (h2 : 2 < c)
    (hodd : c % 2 = 1) : mrRound c hc v a = .pass ↔ Survives c a := by
  obtain ⟨t, ht⟩ : ∃ t, v.s = t + 1 := Nat.exists_eq_succ_of_ne_zero (decomposed_s_pos hv hodd).ne'
  have hsquare (j : Nat) : (a ^ v.d % c) ^ 2 ^ (j + 1) % c = a ^ (2 ^ (j + 1) * v.d) % c := by
    rw [← Nat.pow_mod, ← pow_mul, mul_comm]
  rw [survives_iff hv, ht, Nat.exists_lt_succ_left, pow_zero, one_mul, ← or_assoc]
  simp only [← hsquare, mrRound, mrJudge, modExp_eq, bigSubNat, ht, Nat.add_sub_cancel]
  split
  · simp [*]
  · simp [*, mrSquares_eq_pass_iff]

/-! ### A prime is never found composite (R143) -/

/-- In a field, a root of unity of order a power of 2 is 1 or has -1 among itself and its squares. -/
theorem eq_one_or_exists_pow_eq_neg_one {K : Type*} [Field K] (x : K) : ∀ n : Nat, x ^ 2 ^ n = 1 →
    x = 1 ∨ ∃ j < n, x ^ 2 ^ j = -1
  | 0, h => .inl (by simpa using h)
  | n + 1, h => by
    rw [pow_succ, pow_mul, sq, mul_self_eq_one_iff] at h
    rcases h with h | h
    · exact (eq_one_or_exists_pow_eq_neg_one x n h).imp_right fun ⟨j, hj, hx⟩ => ⟨j, hj.trans n.lt_succ_self, hx⟩
    · exact .inr ⟨n, n.lt_succ_self, h⟩

theorem mod_eq_of_natCast_eq {c n r : Nat} (hr : r < c) (h : (n : ZMod c) = r) : n % c = r := by
  rw [(ZMod.natCast_eq_natCast_iff' ..).1 h, Nat.mod_eq_of_lt hr]

theorem survives_of_prime {c a : Nat} (hprime : c.Prime) (ha : InRange c a) : Survives c a := by
  have : Fact c.Prime := ⟨hprime⟩
  obtain ⟨hlo, hhi⟩ := ha
  have hv : Decomposed c (rewriteOf (c - 1)) := rewriteOf_decomposed hprime.two_le
  generalize rewriteOf (c - 1) = v at hv
  have hunit : (a : ZMod c) ≠ 0 := by
    rw [Ne, ZMod.natCast_eq_zero_iff]
    exact Nat.not_dvd_of_pos_of_lt (by omega) (by omega)
  have hfermat : ((a : ZMod c) ^ v.d) ^ 2 ^ v.s = 1 := by
    rw [← pow_mul, mul_comm, ← hv.1, ZMod.pow_card_sub_one_eq_one hunit]
  rw [survives_iff hv]
  rcases eq_one_or_exists_pow_eq_neg_one _ v.s hfermat with h | ⟨j, hj, h⟩
  · exact .inl (mod_eq_of_natCast_eq hprime.one_lt (by exact_mod_cast h))
  · refine .inr ⟨j, hj, mod_eq_of_natCast_eq (by omega) ?_⟩
    rw [Nat.cast_pred hprime.pos, ZMod.natCast_self, zero_sub, ← h, ← pow_mul, mul_comm, Nat.cast_pow]

/-! ### The round loop (R140, R142) -/

/-- In range is what the sampler port admits. -/
theorem mrRequest_admits_iff {c a : Nat} : (mrRequest c).admits a = true ↔ InRange c a := by
  rw [Request.admits, Bool.and_eq_true, decide_eq_true_iff, decide_eq_true_iff]
  rfl

/-- An answer that passes its round takes the loop one round further, at the cost of one request. -/
theorem mrRounds_cons {c a : Nat} (hc : 0 < c) {v : RewriteVars} (left : Nat) (script : List Nat) (ha : InRange c a)
    (hpass : mrRound c hc v a = .pass) :
    mrRounds c hc v (left + 1) (a :: script) =
      { mrRounds c hc v left script with asks := (mrRounds c hc v left script).asks + 1 } := by
  rw [mrRounds, if_pos (mrRequest_admits_iff.2 ha), hpass]

theorem mrRounds_append {c : Nat} (hc : 0 < c) {v : RewriteVars} (left : Nat) (rest : List Nat) : ∀ answers : List Nat,
    (∀ a ∈ answers, InRange c a ∧ mrRound c hc v a = .pass) →
    mrRounds c hc v (answers.length + left) (answers ++ rest) =
      { mrRounds c hc v left rest with asks := (mrRounds c hc v left rest).asks + answers.length }
  | [], _ => by simp
  | a :: answers, h => by
    obtain ⟨⟨hrange, hpass⟩, hanswers⟩ := List.forall_mem_cons.1 h
    rw [List.length_cons, Nat.add_right_comm, List.cons_append, mrRounds_cons hc _ _ hrange hpass,
      mrRounds_append hc left rest answers hanswers]
    rfl

/-! ### Where a command just accepted starts (R41) -/

section

variable {s : State}

theorem trialIndex_of_accepted (h : s.work = some .accepted) : trialIndex s = 0 := by rw [trialIndex, h]

theorem rewriteVars_of_accepted (h : s.work = some .accepted) : rewriteVars s = rewriteInit s.op0 := by
  rw [rewriteVars, h]

theorem mrStage_of_accepted (h : s.work = some .accepted) : mrStage s = .rewrite (rewriteInit (s.op0 - 1)) := by
  rw [mrStage, h, bigSubNat]

theorem pastTrial_of_accepted (h : s.work = some .accepted) : pastTrial s = false := by rw [pastTrial, h]

/-- With no request outstanding before, the log of requests grows by the draws of the rounds. -/
theorem recordRounds_of_no_request (h : s.request = none) (r : Rounds) :
    recordRounds r s = afterDraws r.asks r.script s := by
  simp [recordRounds, afterDraws, h, mrRequest, bigSubNat]

/-! ### The commands (R133, R136, R137, R138, R141, R146) -/

theorem execTrialdiv_of_accepted (h : s.work = some .accepted) :
    execTrialdiv s = .next (complete
      { tag :=
          if s.op0 ∈ smallPrimes then .pos else if ∃ p ∈ smallPrimes, p ∣ s.op0 then .neg else .undecided } s) := by
  rw [execTrialdiv, trialIndex_of_accepted h, trialVerdictAt_trialEnd (trialSound_zero _), apply_ite TrialVerdict.tag,
    apply_ite TrialVerdict.tag]
  rfl

theorem execRewrite_of_zero (h : s.op0 = 0) : execRewrite s = .next (raiseFault .rewriteZero s) := if_pos h

theorem execRewrite_of_accepted (h : s.work = some .accepted) (h0 : s.op0 ≠ 0) :
    execRewrite s = .next (complete (rewriteResults (rewriteOf s.op0)) s) := by
  rw [execRewrite, if_neg h0, rewriteVars_of_accepted h, rewriteOf]

theorem millerRabin_of_two_or_three (h : s.op0 = 2 ∨ s.op0 = 3) : millerRabin s = .next (complete { tag := .pos } s) :=
  if_pos h

theorem millerRabin_of_even (h2 : s.op0 ≠ 2) (heven : s.op0 % 2 = 0) :
    millerRabin s = .next (complete { tag := .neg } s) := by
  rw [millerRabin, if_neg (by omega), dif_pos (by simpa [isEven] using heven)]

theorem millerRabin_of_one (h : s.op0 = 1) : millerRabin s = .next (raiseFault .candidateDomain s) := by
  rw [millerRabin, if_neg (by omega), dif_neg (by simp [isEven, h]), if_pos h]

theorem millerRabin_of_odd (hc : 0 < s.op0) (h5 : 5 ≤ s.op0) (hodd : s.op0 % 2 = 1) :
    millerRabin s = endRounds (mrRun s.op0 hc (mrStage s) s.env.script) s := by
  rw [millerRabin, if_neg (by omega), dif_neg (by simp [isEven, hodd]), if_neg (by omega)]

/-- The general path from its start: 128 rounds with the decomposition of the candidate. -/
theorem millerRabin_of_accepted (h : s.work = some .accepted) (hc : 0 < s.op0) (h5 : 5 ≤ s.op0) (hodd : s.op0 % 2 = 1) :
    millerRabin s =
      endRounds (mrRounds s.op0 hc (rewriteOf (s.op0 - 1)) Config.mrRounds s.env.script) s := by
  rw [millerRabin_of_odd hc h5 hodd, mrStage_of_accepted h, mrRun, rewriteOf]

/-- When 128 answers survive, the verdict is "probably prime" after as many draws. -/
theorem millerRabin_of_survivors {answers rest : List Nat} (h : JustAccepted s) (h5 : 5 ≤ s.op0)
    (hodd : s.op0 % 2 = 1) (hscript : s.env.script = answers ++ rest) (hlength : answers.length = 128)
    (hanswers : ∀ a ∈ answers, InRange s.op0 a ∧ Survives s.op0 a) :
    millerRabin s = .next (complete { tag := .pos } (afterDraws 128 rest s)) := by
  obtain ⟨hwork, hrequest⟩ := h
  have hc : 0 < s.op0 := by omega
  have hv : Decomposed s.op0 (rewriteOf (s.op0 - 1)) := rewriteOf_decomposed (by omega)
  have hpass : ∀ a ∈ answers, InRange s.op0 a ∧ mrRound s.op0 hc (rewriteOf (s.op0 - 1)) a = .pass := fun a ha =>
    (hanswers a ha).imp_right (mrRound_eq_pass_iff hc hv (by omega) hodd).2
  have hrounds : mrRounds s.op0 hc (rewriteOf (s.op0 - 1)) Config.mrRounds s.env.script = ⟨.prime, 128, rest⟩ := by
    rw [hscript, show Config.mrRounds = answers.length + 0 from hlength.symm, mrRounds_append hc 0 rest answers hpass,
      hlength, mrRounds]
  rw [millerRabin_of_accepted hwork hc h5 hodd, hrounds, endRounds, recordRounds_of_no_request hrequest]

theorem execIsprime_of_one (h : s.op0 = 1) : execIsprime s = .next (raiseFault .candidateDomain s) := by
  rw [execIsprime, h, trialVerdictAt_one, millerRabin_of_one h, ite_self]

/-- From acceptance: the verdict of trial division, and where it leaves the candidate open, Miller–Rabin. -/
theorem execIsprime_of_accepted (h : s.work = some .accepted) :
    execIsprime s =
      if s.op0 ∈ smallPrimes then .next (complete { tag := .pos } s)
      else if ∃ p ∈ smallPrimes, p ∣ s.op0 then .next (complete { tag := .neg } s)
      else millerRabin s := by
  rw [execIsprime, pastTrial_of_accepted h, trialIndex_of_accepted h, if_neg Bool.false_ne_true,
    trialVerdictAt_trialEnd (trialSound_zero _)]
  split_ifs <;> rfl

end

/-! ### The obligations -/

/-- Settles O24: the table is what the sieve leaves, in the order of the numbers. -/
theorem smallPrimesAreFirstHundred : Obligations.SmallPrimesAreFirstHundred := by
  refine ⟨rfl, sortedLT_smallPrimes, fun p => ⟨fun hp => ?_, fun ⟨hprime, hp⟩ => ?_⟩⟩
  · exact ⟨prime_of_mem_smallPrimes hp, le_of_mem_smallPrimes p hp⟩
  · exact mem_smallPrimes_iff.2 ⟨hprime, hp.trans_lt (by decide)⟩

/-- Settles O25: the verdict of trial division from its start, in each of the three cases. -/
theorem trialdivVerdicts : Obligations.TrialdivVerdicts := by
  rintro s ⟨hwork, -⟩
  have hexec : exec .trialdiv s = _ := execTrialdiv_of_accepted hwork
  refine ⟨fun hmem => ?_, fun hmem hdvd => ?_, fun hmem hdvd => ?_⟩
  · rw [hexec, if_pos hmem]
  · rw [hexec, if_neg hmem, if_pos hdvd]
  · rw [hexec, if_neg hmem, if_neg hdvd]

/-- Settles O27: the loop moves the factors 2 into the count one by one. -/
theorem rewriteDecomposes : Obligations.RewriteDecomposes := by
  rintro s ⟨hwork, -⟩
  refine ⟨execRewrite_of_zero, fun k d hodd hop => ⟨?_, fun hfits => ?_, fun n => ?_⟩, fun h0 => ?_⟩
  · have h0 : s.op0 ≠ 0 := hop ▸ (Nat.mul_pos (Nat.two_pow_pos k) (by omega)).ne'
    exact (execRewrite_of_accepted hwork h0).trans (by rw [hop, rewriteOf_eq hodd]; rfl)
  · have hk : 2 ^ k ≤ s.op0 := hop ▸ Nat.le_mul_of_pos_right _ (by omega)
    exact Nat.le_sub_one_of_lt ((Nat.pow_lt_pow_iff_right (by decide)).1 (hk.trans_lt hfits))
  · rw [hop]
    exact rewriteNext_loop_eq_none_iff hodd k n
  · obtain ⟨k, d, hodd, hop⟩ := Nat.exists_eq_two_pow_mul_odd h0
    exact ⟨k, d, Nat.odd_iff.1 hodd, hop, hop ▸ Nat.le_mul_of_pos_left d (Nat.two_pow_pos k),
      Nat.lt_size.2 (hop ▸ Nat.le_mul_of_pos_right _ hodd.pos)⟩

/-- Settles O28: the special cases come before the rounds, and no small prime divides 1. -/
theorem mrtestSpecialCases : Obligations.MrtestSpecialCases := fun _ =>
  ⟨millerRabin_of_two_or_three, millerRabin_of_even, fun h => ⟨millerRabin_of_one h, execIsprime_of_one h⟩⟩

/-- Settles O34: trial division from its start, then Miller–Rabin as `MRTEST` begins it. -/
theorem isprimeCombinesTests : Obligations.IsprimeCombinesTests := by
  rintro s ⟨hwork, -⟩
  have hexec : exec .isprime s = _ := execIsprime_of_accepted hwork
  refine ⟨fun hmem => ?_, fun hmem hdvd => ?_, execIsprime_of_one, fun hdvd => ?_⟩
  · rw [hexec, if_pos hmem]
  · rw [hexec, if_neg hmem, if_pos hdvd]
  · rw [hexec, if_neg fun hmem => hdvd ⟨_, hmem, dvd_rfl⟩, if_neg hdvd]
    rfl

/-- Settles O35: a composite below 547² has a small prime factor, and a prime passes every round. -/
theorem isprimeExactOnSmallCandidates : Obligations.IsprimeExactOnSmallCandidates := by
  intro s hs
  obtain ⟨haccept, hreject, hone, hopen⟩ := isprimeCombinesTests s hs
  refine ⟨fun h0 => ?_, hone, fun h2 hlt hcomposite => ?_, fun _ hprime hle => ?_,
    fun answers rest _ hprime hgt hscript hlength hrange => ?_⟩
  · have hzero : s.op0 ∉ smallPrimes := fun hmem => (prime_of_mem_smallPrimes hmem).ne_zero h0
    exact hreject hzero ⟨2, by decide, h0 ▸ dvd_zero 2⟩
  · exact hreject (fun hmem => hcomposite (prime_of_mem_smallPrimes hmem))
      (exists_smallPrime_dvd_of_not_prime h2 hlt hcomposite)
  · exact haccept (mem_smallPrimes_iff.2 ⟨hprime, hle.trans_lt (by decide)⟩)
  · have hdvd : ¬ ∃ p ∈ smallPrimes, p ∣ s.op0 := fun ⟨p, hp, hdvd⟩ => by
      have := le_of_mem_smallPrimes p hp
      have := eq_of_smallPrime_dvd_prime hp hprime hdvd
      omega
    have hodd : s.op0 % 2 = 1 := hprime.eq_two_or_odd.resolve_left (by omega)
    exact (hopen hdvd).trans (millerRabin_of_survivors hs (by omega) hodd hscript hlength fun a ha =>
      ⟨hrange a ha, survives_of_prime hprime (hrange a ha)⟩)

end Sys2Proof.Machine

/-! # The inverse: the loop of `InvMod` and `INVMOD` (rules R177 to R180) -/

namespace Sys2Proof.Machine

open Sys2Proof.Safety

/-! ### One chain of coefficients (R174) -/

/-- Neighbours in the chain never have the same strict sign, so subtracting a multiple adds the magnitudes. -/
theorem natAbs_sub_mul_of_mul_nonpos {old cur : Int} (q : Nat) (h : old * cur ≤ 0) :
    (old - q * cur).natAbs = old.natAbs + q * cur.natAbs := by
  have hq : (q * cur).natAbs = q * cur.natAbs := by rw [Int.natAbs_mul, Int.natAbs_natCast]
  rw [← hq]
  rcases mul_nonpos_iff.1 h with ⟨hold, hcur⟩ | ⟨hold, hcur⟩
  · have := mul_nonpos_of_nonneg_of_nonpos q.cast_nonneg hcur
    omega
  · have := mul_nonneg q.cast_nonneg hcur
    omega

theorem chainSound_start (bound oldR : Nat) : ChainSound bound oldR bound 1 0 := by
  refine ⟨?_, ?_, le_max_right _ _, Nat.zero_le _⟩ <;> simp

/-- One division step keeps the chain: the weighted sum of the magnitudes is the same before and after. -/
theorem chainSound_step {bound oldR r : Nat} {old cur : Int} (hr : 0 < r) (h : ChainSound bound oldR r old cur) :
    ChainSound bound r (oldR % r) cur (old - (oldR / r : Nat) * cur) := by
  obtain ⟨hsum, hsigns, -, hcur⟩ := h
  have habs := natAbs_sub_mul_of_mul_nonpos (oldR / r) hsigns
  have hsum' : (old - (oldR / r : Nat) * cur).natAbs * r + cur.natAbs * (oldR % r) = bound := by
    calc (old - (oldR / r : Nat) * cur).natAbs * r + cur.natAbs * (oldR % r)
        = cur.natAbs * (r * (oldR / r) + oldR % r) + old.natAbs * r := by rw [habs]; ring
      _ = bound := by rw [Nat.div_add_mod, hsum]
  refine ⟨hsum', ?_, hcur, ?_⟩
  · calc cur * (old - (oldR / r : Nat) * cur)
        = old * cur - (oldR / r : Nat) * (cur * cur) := by ring
      _ ≤ 0 := sub_nonpos.2 (hsigns.trans (mul_nonneg (Nat.cast_nonneg _) (mul_self_nonneg _)))
  · exact (((Nat.le_mul_of_pos_right _ hr).trans (Nat.le_add_right _ _)).trans_eq hsum').trans (le_max_left _ _)

/-! ### The invariant (R179, R180) -/

/-- What an iteration does, with the units' operations written as arithmetic. -/
theorem invNext_some {v v' : InvVars} (h : invNext v = some v') :
    0 < v.r ∧ v'.oldR = v.r ∧ v'.r = v.oldR % v.r ∧ v'.oldS = v.s ∧ v'.s = v.oldS - (v.oldR / v.r : Nat) * v.s := by
  unfold invNext at h
  split at h
  · cases h
  · rename_i hr
    cases h
    exact ⟨Nat.pos_of_ne_zero hr, rfl, egcd_remainder _ _ _, rfl, rfl⟩

theorem invSound_invInit (a n : Nat) : InvSound a n (invInit a n) := by
  refine ⟨?_, ?_, rfl, chainSound_start n a⟩ <;> simp [invInit]

theorem invSound_invNext {a n : Nat} {v v' : InvVars} (hv : InvSound a n v) (h : invNext v = some v') :
    InvSound a n v' := by
  obtain ⟨hold, hcur, hgcd, hchain⟩ := hv
  obtain ⟨hr, holdR', hr', holdS', hs'⟩ := invNext_some h
  rw [InvSound, holdR', hr', holdS', hs']
  refine ⟨hcur, ?_, ?_, chainSound_step hr hchain⟩
  · have hcombination : ((v.oldR % v.r : Nat) : Int) - a * (v.oldS - (v.oldR / v.r : Nat) * v.s)
        = (v.oldR - a * v.oldS) - (v.oldR / v.r : Nat) * (v.r - a * v.s) := by
      rw [Int.natCast_emod, Int.emod_def, Int.natCast_ediv]
      ring
    exact hcombination ▸ dvd_sub hold (hcur.mul_left _)
  · rw [Nat.gcd_comm, ← Nat.gcd_rec, Nat.gcd_comm, hgcd]

theorem invSound_invLoop {a n : Nat} {v : InvVars} (hv : InvSound a n v) : InvSound a n (invLoop v) :=
  loop_invariant (fun _ _ hv h => invSound_invNext hv h) v.r hv

/-! ### The exit (R179, R180) -/

/-- The fuel is enough: the loop ends at its own test. -/
theorem invLoop_r (v : InvVars) : (invLoop v).r = 0 :=
  invNext_eq_none.1 (loop_ends (P := fun _ => True) (fun _ _ _ h => ⟨trivial, invNext_lowers h⟩) v.r trivial le_rfl)

theorem invLoop_oldR {a n : Nat} {v : InvVars} (hv : InvSound a n v) : (invLoop v).oldR = Nat.gcd a n := by
  obtain ⟨-, -, hgcd, -⟩ := invSound_invLoop hv
  rwa [invLoop_r, Nat.gcd_zero_right] at hgcd

/-- When the operands are coprime, the coefficient the loop ends with is an inverse. -/
theorem invLoop_oldS_modEq {a n : Nat} {v : InvVars} (hv : InvSound a n v) (hgcd : Nat.gcd a n = 1) :
    a * (invLoop v).oldS ≡ 1 [ZMOD n] := by
  obtain ⟨hold, -, -, -⟩ := invSound_invLoop hv
  rw [invLoop_oldR hv, hgcd, Nat.cast_one] at hold
  exact Int.modEq_iff_dvd.2 hold

/-- Modulo 1 the loop takes one iteration, which puts the 0 of the chain's start in the result's place (R177, C7). -/
theorem invLoop_invInit_one (a : Nat) : (invLoop (invInit a 1)).oldS = 0 := by
  simp [invLoop, invInit, loop, invNext]

/-- The strict bound of R180.  For `1 < n` the invariant's bound `|old_s| ≤ n` is strict, as `n` itself is no inverse;
modulo 1 every number is one, and the bound is that of the run from the start. -/
theorem natAbs_invLoop_oldS_lt {a n : Nat} (hn : 0 < n) (hgcd : Nat.gcd a n = 1) :
    (invLoop (invInit a n)).oldS.natAbs < n := by
  obtain rfl | hn1 : n = 1 ∨ 1 < n := by omega
  · rw [invLoop_invInit_one]
    exact one_pos
  · obtain ⟨-, -, -, -, -, hbound, -⟩ := invSound_invLoop (invSound_invInit a n)
    rw [max_eq_left hn1.le] at hbound
    refine hbound.lt_of_ne fun hn' => ?_
    have hdvd : (n : Int) ∣ (invLoop (invInit a n)).oldS := Int.natCast_dvd.2 hn'.symm.dvd
    have hone : (n : Int) ∣ 1 := (invLoop_oldS_modEq (invSound_invInit a n) hgcd).dvd_iff.1 (hdvd.mul_left a)
    have := Int.le_of_dvd one_pos hone
    omega

/-! ### The normalisation (R177, R180) -/

/-- One addition of `n` makes a coefficient of magnitude below `n` the residue in `[0, n)`. -/
theorem natCast_normalise {n : Nat} {c : Int} (hc : c.natAbs < n) : (normalise n c : Int) = c % n := by
  unfold normalise bigAdd
  split
  · rw [Int.toNat_of_nonneg (by omega), ← Int.add_emod_right, Int.emod_eq_of_lt (by omega) (by omega)]
  · rw [Int.toNat_of_nonneg (by omega), Int.emod_eq_of_lt (by omega) (by omega)]

theorem normalise_lt {n : Nat} {c : Int} (hc : c.natAbs < n) : normalise n c < n := by
  have := natCast_normalise hc
  have := Int.emod_lt_of_pos c (show (0 : Int) < n by omega)
  omega

theorem mul_normalise_modEq {a n : Nat} {c : Int} (hc : c.natAbs < n) (h : a * c ≡ 1 [ZMOD n]) :
    a * normalise n c ≡ 1 [MOD n] := by
  rw [← Int.natCast_modEq_iff, Nat.cast_mul, natCast_normalise hc]
  exact ((Int.mod_modEq c n).mul_left a).trans h

/-- Below `n` there is at most one inverse. -/
theorem eq_of_mul_modEq_one {a n x y : Nat} (hgcd : Nat.gcd a n = 1) (hx : x < n) (hy : y < n)
    (hax : a * x ≡ 1 [MOD n]) (hay : a * y ≡ 1 [MOD n]) : y = x :=
  (Nat.ModEq.cancel_left_of_coprime (Nat.gcd_comm a n ▸ hgcd) (hay.trans hax.symm)).eq_of_lt_of_lt hy hx

/-! ### The command (R178) -/

theorem execInvmod_of_zero {s : State} (h : s.op1 = 0) : execInvmod s = .next (raiseFault .invmodModulusZero s) :=
  if_pos h

/-- A command just accepted starts from the operands. -/
theorem execInvmod_of_accepted {s : State} (h : s.work = some .accepted) (h1 : s.op1 ≠ 0) :
    execInvmod s = .next (complete (invResults (invVerdict s.op1 (invLoop (invInit s.op0 s.op1)))) s) := by
  rw [execInvmod, if_neg h1, invVars, h]

/-- The verdict is decided by the greatest common divisor. -/
theorem invVerdict_invLoop {a n : Nat} (hn : 0 < n) :
    invVerdict n (invLoop (invInit a n)) =
      if Nat.gcd a n = 1 then some (normalise n (invLoop (invInit a n)).oldS) else none := by
  have hpos : 0 < Nat.gcd a n := Nat.gcd_pos_of_pos_right a hn
  rw [invVerdict, invLoop_oldR (invSound_invInit a n)]
  by_cases hgcd : Nat.gcd a n = 1
  · rw [if_neg (by omega), if_pos hgcd]
  · rw [if_pos (by omega), if_neg hgcd]

/-! ### The obligation -/

/-- Settles O38: the loop ends with the gcd, and for a gcd of 1 with a coefficient that one addition normalises. -/
theorem invmodDeliversInverse : Obligations.InvmodDeliversInverse := by
  rintro s ⟨hwork, -⟩
  refine ⟨execInvmod_of_zero, fun h1 hgcd => ?_, fun h1 hgcd => ?_⟩
  · exact (execInvmod_of_accepted hwork h1).trans (by
      rw [invVerdict_invLoop (Nat.pos_of_ne_zero h1), if_neg hgcd, invResults])
  · have hn : 0 < s.op1 := Nat.pos_of_ne_zero h1
    have hbound := natAbs_invLoop_oldS_lt hn hgcd
    have hinverse := mul_normalise_modEq hbound (invLoop_oldS_modEq (invSound_invInit s.op0 s.op1) hgcd)
    exact ⟨_, normalise_lt hbound, hinverse,
      fun y hy hay => eq_of_mul_modEq_one hgcd (normalise_lt hbound) hy hinverse hay,
      (execInvmod_of_accepted hwork h1).trans (by rw [invVerdict_invLoop hn, if_pos hgcd, invResults])⟩

end Sys2Proof.Machine

/-! # What a run and an iteration of a command can do (rule R91, log entry 7) -/

namespace Sys2Proof.Machine

open Sys2Proof.Safety

/-! ### An iteration does not change where a loop ends -/

section

variable {α : Type} {next : α → Option α} {P : α → Prop} {m : α → Nat}

/-- Each engine's fuel is its measure: the loop from the next value, with that value's fuel, ends in the same place. -/
theorem loop_measure_of_some (step : ∀ v v', P v → next v = some v' → P v' ∧ m v' < m v) {v v' : α} (hv : P v)
    (h : next v = some v') : loop next (m v') v' = loop next (m v) v := by
  obtain ⟨hv', hlt⟩ := step v v' hv h
  obtain ⟨k, hk⟩ : ∃ k, m v = k + 1 := ⟨m v - 1, by omega⟩
  rw [hk, loop_succ_of_some h]
  exact loop_fuel step _ k hv' le_rfl (by omega)

end

theorem expLoop_of_some {m : Nat} {hm : 0 < m} {v v' : ExpVars} (h : expNext m hm v = some v') :
    expLoop m hm v' = expLoop m hm v :=
  loop_measure_of_some (P := fun _ => True) (m := ExpVars.e) (fun _ _ _ h => ⟨trivial, expNext_lowers h⟩) trivial h

theorem rewriteLoop_of_some {v v' : RewriteVars} (hd : v.d ≠ 0) (h : rewriteNext v = some v') :
    rewriteLoop v' = rewriteLoop v :=
  loop_measure_of_some (m := RewriteVars.d) (fun _ _ hd h => rewriteNext_lowers hd h) hd h

theorem egcdLoop_of_some {v v' : EgcdVars} (h : egcdNext v = some v') : egcdLoop v' = egcdLoop v :=
  loop_measure_of_some (P := fun _ => True) (m := EgcdVars.r) (fun _ _ _ h => ⟨trivial, egcdNext_lowers h⟩) trivial h

theorem invLoop_of_some {v v' : InvVars} (h : invNext v = some v') : invLoop v' = invLoop v :=
  loop_measure_of_some (P := fun _ => True) (m := InvVars.r) (fun _ _ _ h => ⟨trivial, invNext_lowers h⟩) trivial h

theorem trialEnd_of_some {c k k' : Nat} (h : trialNext c k = some k') : trialEnd c k' = trialEnd c k :=
  loop_measure_of_some (P := fun _ => True) (m := fun k => Config.nSmallPrimes - k)
    (fun _ _ _ h => ⟨trivial, (trialNext_lowers h).2⟩) trivial h

theorem trialEnd_of_none {c k : Nat} (h : trialNext c k = none) : trialEnd c k = k := loop_of_none h _

/-! ### The run of a command -/

/-- The operand check of the command fails, with this cause (R213). -/
def OperandFault (i : Instr) (c : Cause) (s : State) : Prop :=
  (i = .modexp ∧ c = .modulusZero ∧ s.op2 = 0) ∨ (i = .rewrite ∧ c = .rewriteZero ∧ s.op0 = 0) ∨
  ((i = .mrtest ∨ i = .isprime) ∧ c = .candidateDomain ∧ s.op0 = 1) ∨
  (i = .invmod ∧ c = .invmodModulusZero ∧ s.op1 = 0)

/-- The two commands with Miller–Rabin rounds, the only ones that draw (R141, R146). -/
abbrev DrawsWitnesses (i : Instr) : Prop := i = .mrtest ∨ i = .isprime

/-- What a command that ends without a round delivers, from wherever its working variables stand. -/
inductive Computes : Instr → State → Results → Prop where
  | modexp {s : State} (hm : 0 < s.op2) :
      Computes .modexp s (modexpResults (expLoop s.op2 hm (modexpVars s hm)))
  | trialdiv (s : State) :
      Computes .trialdiv s { tag := (trialVerdictAt s.op0 (trialEnd s.op0 (trialIndex s))).tag }
  | rewrite {s : State} (h0 : s.op0 ≠ 0) : Computes .rewrite s (rewriteResults (rewriteLoop (rewriteVars s)))
  | accepts {i : Instr} (hi : DrawsWitnesses i) (s : State) : Computes i s { tag := .pos }
  | rejects {i : Instr} (hi : DrawsWitnesses i) {s : State}
      (h : s.op0 ≠ 2 ∧ s.op0 % 2 = 0 ∨ trialVerdictAt s.op0 (trialEnd s.op0 (trialIndex s)) = .reject) :
      Computes i s { tag := .neg }
  | egcd (s : State) : Computes .egcd s (egcdResults (egcdLoop (egcdVars s)))
  | invmod {s : State} (h1 : s.op1 ≠ 0) : Computes .invmod s (invResults (invVerdict s.op1 (invLoop (invVars s))))

/-- The command is at the general path of Miller–Rabin (R140): its run is the round loop. -/
structure OnGeneralPath (i : Instr) (s : State) : Prop where
  draws : DrawsWitnesses i
  run : exec i s = millerRabin s
  five_le : 5 ≤ s.op0
  odd : s.op0 % 2 = 1

theorem OnGeneralPath.pos {i : Instr} {s : State} (h : OnGeneralPath i s) : 0 < s.op0 :=
  Nat.lt_of_lt_of_le (by decide) h.five_le

theorem OnGeneralPath.exec_eq {i : Instr} {s : State} (h : OnGeneralPath i s) :
    exec i s = endRounds (mrRun s.op0 h.pos (mrStage s) s.env.script) s :=
  h.run.trans (millerRabin_of_odd h.pos h.five_le h.odd)

/-- Every way a run of a command can end. -/
inductive RunEnd (i : Instr) (s : State) : StepResult → Prop where
  | faulted {c : Cause} (h : OperandFault i c s) : RunEnd i s (.next (raiseFault c s))
  | completed {r : Results} (h : Computes i s r) : RunEnd i s (.next (complete r s))
  | rounds (h : OnGeneralPath i s) : RunEnd i s (endRounds (mrRun s.op0 h.pos (mrStage s) s.env.script) s)

/-- The candidates Miller–Rabin settles by themselves, and those of the general path (R137, R138, R140). -/
theorem candidate_cases (c : Nat) :
    (c = 2 ∨ c = 3) ∨ (c ≠ 2 ∧ c % 2 = 0) ∨ c = 1 ∨ (5 ≤ c ∧ c % 2 = 1) := by omega

theorem runEnd_of_millerRabin {i : Instr} {s : State} (hi : DrawsWitnesses i) (hrun : exec i s = millerRabin s) :
    RunEnd i s (exec i s) := by
  rcases candidate_cases s.op0 with h | ⟨h2, heven⟩ | h1 | ⟨h5, hodd⟩
  · rw [hrun, millerRabin_of_two_or_three h]
    exact .completed (.accepts hi s)
  · rw [hrun, millerRabin_of_even h2 heven]
    exact .completed (.rejects hi (.inl ⟨h2, heven⟩))
  · rw [hrun, millerRabin_of_one h1]
    exact .faulted (.inr (.inr (.inl ⟨hi, rfl, h1⟩)))
  · have hpath : OnGeneralPath i s := ⟨hi, hrun, h5, hodd⟩
    rw [hpath.exec_eq]
    exact .rounds hpath

theorem execIsprime_of_pastTrial {s : State} (h : pastTrial s = true) : execIsprime s = millerRabin s := if_pos h

/-- Before the rounds, the verdict of trial division decides (R145). -/
theorem execIsprime_of_trial {s : State} (h : pastTrial s = false) :
    (trialVerdictAt s.op0 (trialEnd s.op0 (trialIndex s)) = .accept →
      execIsprime s = .next (complete { tag := .pos } s)) ∧
    (trialVerdictAt s.op0 (trialEnd s.op0 (trialIndex s)) = .reject →
      execIsprime s = .next (complete { tag := .neg } s)) ∧
    (trialVerdictAt s.op0 (trialEnd s.op0 (trialIndex s)) = .undecided → execIsprime s = millerRabin s) := by
  refine ⟨fun hv => ?_, fun hv => ?_, fun hv => ?_⟩ <;> simp only [execIsprime, h, hv] <;> rfl

theorem execInvmod_of_pos {s : State} (h : s.op1 ≠ 0) :
    execInvmod s = .next (complete (invResults (invVerdict s.op1 (invLoop (invVars s)))) s) := if_neg h

theorem execRewrite_of_pos {s : State} (h : s.op0 ≠ 0) :
    execRewrite s = .next (complete (rewriteResults (rewriteLoop (rewriteVars s))) s) := if_neg h

theorem exec_runEnd (i : Instr) (s : State) : RunEnd i s (exec i s) := by
  cases i with
  | modexp =>
    rcases Nat.eq_zero_or_pos s.op2 with h | hm
    · rw [exec, execModexp_of_zero h]
      exact .faulted (.inl ⟨rfl, rfl, h⟩)
    · rw [exec, execModexp_of_pos hm]
      exact .completed (.modexp hm)
  | trialdiv => exact .completed (.trialdiv s)
  | rewrite =>
    by_cases h : s.op0 = 0
    · rw [exec, execRewrite_of_zero h]
      exact .faulted (.inr (.inl ⟨rfl, rfl, h⟩))
    · rw [exec, execRewrite_of_pos h]
      exact .completed (.rewrite h)
  | mrtest => exact runEnd_of_millerRabin (.inl rfl) rfl
  | isprime =>
    cases hp : pastTrial s with
    | true => exact runEnd_of_millerRabin (.inr rfl) (execIsprime_of_pastTrial hp)
    | false =>
      obtain ⟨haccept, hreject, hopen⟩ := execIsprime_of_trial hp
      cases hv : trialVerdictAt s.op0 (trialEnd s.op0 (trialIndex s)) with
      | accept =>
        rw [exec, haccept hv]
        exact .completed (.accepts (.inr rfl) s)
      | reject =>
        rw [exec, hreject hv]
        exact .completed (.rejects (.inr rfl) (.inr hv))
      | undecided => exact runEnd_of_millerRabin (.inr rfl) (hopen hv)
  | egcd => exact .completed (.egcd s)
  | invmod =>
    by_cases h : s.op1 = 0
    · rw [exec, execInvmod_of_zero h]
      exact .faulted (.inr (.inr (.inr ⟨rfl, rfl, h⟩)))
    · rw [exec, execInvmod_of_pos h]
      exact .completed (.invmod h)

/-! ### What an iteration does in each case (R111, R132, R135, R139, R171, R177) -/

section

variable {s : State}

theorem tickModexp_of_zero (h : s.op2 = 0) : tickModexp s = .next (raiseFault .modulusZero s) := dif_pos h

theorem tickModexp_of_some {hm : 0 < s.op2} {v : ExpVars} (h : expNext s.op2 hm (modexpVars s hm) = some v) :
    tickModexp s = .next { s with work := some (.modexp v) } := by
  rw [tickModexp, dif_neg hm.ne']
  simp only [h]

theorem tickModexp_of_none {hm : 0 < s.op2} (h : expNext s.op2 hm (modexpVars s hm) = none) :
    tickModexp s = .next (complete (modexpResults (modexpVars s hm)) s) := by
  rw [tickModexp, dif_neg hm.ne']
  simp only [h]

theorem tickTrialdiv_of_some {k : Nat} (h : trialNext s.op0 (trialIndex s) = some k) :
    tickTrialdiv s = .next { s with work := some (.trial k) } := by rw [tickTrialdiv, h]

theorem tickTrialdiv_of_none (h : trialNext s.op0 (trialIndex s) = none) :
    tickTrialdiv s = .next (complete { tag := (trialVerdictAt s.op0 (trialIndex s)).tag } s) := by
  rw [tickTrialdiv, h]

theorem tickRewrite_of_zero (h : s.op0 = 0) : tickRewrite s = .next (raiseFault .rewriteZero s) := if_pos h

theorem tickRewrite_of_some (h0 : s.op0 ≠ 0) {v : RewriteVars} (h : rewriteNext (rewriteVars s) = some v) :
    tickRewrite s = .next { s with work := some (.rewrite v) } := by rw [tickRewrite, if_neg h0, h]

theorem tickRewrite_of_none (h0 : s.op0 ≠ 0) (h : rewriteNext (rewriteVars s) = none) :
    tickRewrite s = .next (complete (rewriteResults (rewriteVars s)) s) := by rw [tickRewrite, if_neg h0, h]

theorem tickIsprime_of_pastTrial (h : pastTrial s = true) : tickIsprime s = tickMillerRabin s := if_pos h

theorem tickIsprime_of_some (hp : pastTrial s = false) {k : Nat} (h : trialNext s.op0 (trialIndex s) = some k) :
    tickIsprime s = .next { s with work := some (.trial k) } := by
  rw [tickIsprime, hp, if_neg Bool.false_ne_true, h]

theorem tickIsprime_of_none (hp : pastTrial s = false) (h : trialNext s.op0 (trialIndex s) = none) :
    (trialVerdictAt s.op0 (trialIndex s) = .accept → tickIsprime s = .next (complete { tag := .pos } s)) ∧
    (trialVerdictAt s.op0 (trialIndex s) = .reject → tickIsprime s = .next (complete { tag := .neg } s)) ∧
    (trialVerdictAt s.op0 (trialIndex s) = .undecided → tickIsprime s = tickMillerRabin s) := by
  refine ⟨fun hv => ?_, fun hv => ?_, fun hv => ?_⟩ <;> rw [tickIsprime, hp, if_neg Bool.false_ne_true, h, hv]

theorem tickEgcd_of_some {v : EgcdVars} (h : egcdNext (egcdVars s) = some v) :
    tickEgcd s = .next { s with work := some (.egcd v) } := by rw [tickEgcd, h]

theorem tickEgcd_of_none (h : egcdNext (egcdVars s) = none) :
    tickEgcd s = .next (complete (egcdResults (egcdVars s)) s) := by rw [tickEgcd, h]

theorem tickInvmod_of_zero (h : s.op1 = 0) : tickInvmod s = .next (raiseFault .invmodModulusZero s) := if_pos h

theorem tickInvmod_of_some (h1 : s.op1 ≠ 0) {v : InvVars} (h : invNext (invVars s) = some v) :
    tickInvmod s = .next { s with work := some (.invmod v) } := by rw [tickInvmod, if_neg h1, h]

theorem tickInvmod_of_none (h1 : s.op1 ≠ 0) (h : invNext (invVars s) = none) :
    tickInvmod s = .next (complete (invResults (invVerdict s.op1 (invVars s))) s) := by
  rw [tickInvmod, if_neg h1, h]

variable (hc : 0 < s.op0) (round : Nat) (v : RewriteVars) (a : Nat)

theorem tickStage_rewrite_of_some {v' : RewriteVars} (h : rewriteNext v = some v') :
    tickStage (.rewrite v) s hc = .next (s.withStage (.rewrite v')) := by simp only [tickStage, h]

theorem tickStage_rewrite_of_none (h : rewriteNext v = none) :
    tickStage (.rewrite v) s hc = .next (s.withStage (.draw 1 v)) := by simp only [tickStage, h]

theorem tickStage_power_of_some {p p' : ExpVars} (h : expNext s.op0 hc p = some p') :
    tickStage (.power round v a p) s hc = .next (s.withStage (.power round v a p')) := by simp only [tickStage, h]

theorem tickStage_power_of_pass {p : ExpVars} (h : expNext s.op0 hc p = none)
    (hx : p.result = 1 ∨ p.result = bigSubNat s.op0 1) :
    tickStage (.power round v a p) s hc = .next (s.withStage (.draw (round + 1) v)) := by
  simp only [tickStage, h, if_pos hx, tickVerdict]

theorem tickStage_power_of_square {p : ExpVars} (h : expNext s.op0 hc p = none)
    (hx : ¬ (p.result = 1 ∨ p.result = bigSubNat s.op0 1)) :
    tickStage (.power round v a p) s hc = .next (s.withStage (.square round v a 0 p.result)) := by
  simp only [tickStage, h, if_neg hx]

variable (x : Nat) {j : Nat}

theorem tickStage_square_of_last (hj : ¬ j < v.s - 1) :
    tickStage (.square round v a j x) s hc = .next (complete { tag := .neg } s) := if_neg hj

theorem tickStage_square_of_one (hj : j < v.s - 1) (h1 : mulMod x x s.op0 hc = 1) :
    tickStage (.square round v a j x) s hc = .next (complete { tag := .neg } s) :=
  (if_pos hj).trans (if_pos h1)

theorem tickStage_square_of_pass (hj : j < v.s - 1) (h1 : ¬ mulMod x x s.op0 hc = 1)
    (hx : mulMod x x s.op0 hc = bigSubNat s.op0 1) :
    tickStage (.square round v a j x) s hc = .next (s.withStage (.draw (round + 1) v)) :=
  (if_pos hj).trans ((if_neg h1).trans (if_pos hx))

theorem tickStage_square_of_next (hj : j < v.s - 1) (h1 : ¬ mulMod x x s.op0 hc = 1)
    (hx : ¬ mulMod x x s.op0 hc = bigSubNat s.op0 1) :
    tickStage (.square round v a j x) s hc = .next (s.withStage (.square round v a (j + 1) (mulMod x x s.op0 hc))) :=
  (if_pos hj).trans ((if_neg h1).trans (if_neg hx))

end

/-! ### One iteration of a command -/

/-- One iteration of the general path between its draws (R139, R140): the stages that do not begin with a draw. -/
inductive StageNext (c : Nat) (hc : 0 < c) : MrStage → MrStage → Prop where
  | halve {v v' : RewriteVars} (h : rewriteNext v = some v') : StageNext c hc (.rewrite v) (.rewrite v')
  | halved {v : RewriteVars} (h : rewriteNext v = none) : StageNext c hc (.rewrite v) (.draw 1 v)
  | multiply {round : Nat} {v : RewriteVars} {a : Nat} {p p' : ExpVars} (h : expNext c hc p = some p') :
      StageNext c hc (.power round v a p) (.power round v a p')
  | powerPasses {round : Nat} {v : RewriteVars} {a : Nat} {p : ExpVars} (h : expNext c hc p = none)
      (hx : p.result = 1 ∨ p.result = c - 1) : StageNext c hc (.power round v a p) (.draw (round + 1) v)
  | beginSquares {round : Nat} {v : RewriteVars} {a : Nat} {p : ExpVars} (h : expNext c hc p = none)
      (hx : ¬ (p.result = 1 ∨ p.result = c - 1)) :
      StageNext c hc (.power round v a p) (.square round v a 0 p.result)
  | squarePasses {round : Nat} {v : RewriteVars} {a j x : Nat} (hj : j < v.s - 1) (h1 : x * x % c ≠ 1)
      (hx : x * x % c = c - 1) : StageNext c hc (.square round v a j x) (.draw (round + 1) v)
  | square {round : Nat} {v : RewriteVars} {a j x : Nat} (hj : j < v.s - 1) (h1 : x * x % c ≠ 1)
      (hx : x * x % c ≠ c - 1) : StageNext c hc (.square round v a j x) (.square round v a (j + 1) (x * x % c))

/-- One iteration of a command that is no draw, with the working variables it leads to. -/
inductive Iterates : Instr → State → Work → Prop where
  | modexp {s : State} (hm : 0 < s.op2) {v : ExpVars} (h : expNext s.op2 hm (modexpVars s hm) = some v) :
      Iterates .modexp s (.modexp v)
  | trialdiv {s : State} {k : Nat} (h : trialNext s.op0 (trialIndex s) = some k) : Iterates .trialdiv s (.trial k)
  | rewrite {s : State} (h0 : s.op0 ≠ 0) {v : RewriteVars} (h : rewriteNext (rewriteVars s) = some v) :
      Iterates .rewrite s (.rewrite v)
  | trial {s : State} (hp : pastTrial s = false) {k : Nat} (h : trialNext s.op0 (trialIndex s) = some k) :
      Iterates .isprime s (.trial k)
  | stage {i : Instr} {s : State} (hpath : OnGeneralPath i s) {m : MrStage}
      (h : StageNext s.op0 hpath.pos (mrStage s) m) : Iterates i s (.millerRabin m)
  | egcd {s : State} {v : EgcdVars} (h : egcdNext (egcdVars s) = some v) : Iterates .egcd s (.egcd v)
  | invmod {s : State} (h1 : s.op1 ≠ 0) {v : InvVars} (h : invNext (invVars s) = some v) :
      Iterates .invmod s (.invmod v)

/-- Every way an iteration of a command can end: as its run does, in new working variables, or in a draw (R140). -/
inductive TickEnd (i : Instr) (s : State) : StepResult → Prop where
  | ended {t : State} (h : exec i s = .next t) (hb : t.status.busy = false) : TickEnd i s (.next t)
  | iterated {w : Work} (h : Iterates i s w) : TickEnd i s (.next { s with work := some w })
  | draws (hpath : OnGeneralPath i s) {round : Nat} {v : RewriteVars}
      (hw : s.work = some (.millerRabin (.draw round v))) (hround : round ≤ Config.mrRounds) :
      TickEnd i s (tickDraw round s)

theorem mrStage_of_work {s : State} {m : MrStage} (h : s.work = some (.millerRabin m)) : mrStage s = m := by
  rw [mrStage, h]

/-- Only a command in the round loop is at a stage other than the first. -/
theorem work_of_mrStage {s : State} {m : MrStage} (h : mrStage s = m) (hm : ∀ v, m ≠ .rewrite v) :
    s.work = some (.millerRabin m) := by
  unfold mrStage at h
  split at h
  · rename_i m' hw
    rw [hw, h]
  · exact absurd h.symm (hm _)

/-- With no request and no answer, rounds that are over are the completion. -/
theorem endRounds_prime (s : State) :
    endRounds ⟨.prime, 0, s.env.script⟩ s = .next (complete { tag := .pos } s) := by
  simp [endRounds, recordRounds]

theorem endRounds_composite (s : State) :
    endRounds ⟨.composite, 0, s.env.script⟩ s = .next (complete { tag := .neg } s) := by
  simp [endRounds, recordRounds]

theorem mrRun_power {c : Nat} (hc : 0 < c) (round : Nat) (v : RewriteVars) (a : Nat) {p : ExpVars}
    (h : expNext c hc p = none) (script : List Nat) :
    mrRun c hc (.power round v a p) script = mrAfter c hc v round (mrJudge c hc v p.result) script := by
  rw [mrRun, expLoop, loop_of_none h]

theorem mrRun_square_last {c : Nat} (hc : 0 < c) (round : Nat) {v : RewriteVars} (a : Nat) {j : Nat} (x : Nat)
    (hj : ¬ j < v.s - 1) (script : List Nat) : mrRun c hc (.square round v a j x) script = ⟨.composite, 0, script⟩ := by
  rw [mrRun, Nat.sub_eq_zero_of_le (not_lt.1 hj)]
  rfl

theorem mrRun_square {c : Nat} (hc : 0 < c) (round : Nat) {v : RewriteVars} (a : Nat) {j : Nat} (x : Nat)
    (hj : j < v.s - 1) (script : List Nat) :
    mrRun c hc (.square round v a j x) script =
      if x * x % c = 1 then ⟨.composite, 0, script⟩
      else if x * x % c = c - 1 then mrRounds c hc v (Config.mrRounds - round) script
      else mrRun c hc (.square round v a (j + 1) (x * x % c)) script := by
  obtain ⟨left, hleft⟩ : ∃ left, v.s - 1 - j = left + 1 := ⟨v.s - 1 - j - 1, by omega⟩
  rw [mrRun, hleft, mrSquares_succ, mrRun, show v.s - 1 - (j + 1) = left by omega]
  split_ifs <;> rfl

theorem mrJudge_of_pass {c : Nat} (hc : 0 < c) (v : RewriteVars) {x : Nat} (hx : x = 1 ∨ x = c - 1) :
    mrJudge c hc v x = .pass := if_pos hx

theorem mrJudge_of_square {c : Nat} (hc : 0 < c) (v : RewriteVars) {x : Nat} (hx : ¬ (x = 1 ∨ x = c - 1)) :
    mrJudge c hc v x = mrSquares c hc (v.s - 1) x := if_neg hx

/-- A stage's iteration ends the command where its run does, or goes on, or draws. -/
theorem tickStage_end {i : Instr} {s : State} (hpath : OnGeneralPath i s) :
    TickEnd i s (tickStage (mrStage s) s hpath.pos) := by
  have hexec := hpath.exec_eq
  have stage {m : MrStage} (h : StageNext s.op0 hpath.pos (mrStage s) m) : TickEnd i s (.next (s.withStage m)) :=
    .iterated (.stage hpath h)
  have composite (h : mrRun s.op0 hpath.pos (mrStage s) s.env.script = ⟨.composite, 0, s.env.script⟩) :
      TickEnd i s (.next (complete { tag := .neg } s)) :=
    .ended (hexec.trans (by rw [h, endRounds_composite])) rfl
  cases hm : mrStage s with
  | rewrite v =>
    rw [hm] at stage
    cases hv : rewriteNext v with
    | some v' => rw [tickStage_rewrite_of_some _ _ hv]; exact stage (.halve hv)
    | none => rw [tickStage_rewrite_of_none _ _ hv]; exact stage (.halved hv)
  | draw round v =>
    have hw := work_of_mrStage hm (by simp)
    have hsame : s.withStage (.draw round v) = s := by rw [State.withStage, ← hw]
    rw [tickStage, hsame]
    by_cases hround : Config.mrRounds < round
    · rw [tickDraw, if_pos hround]
      refine .ended (hexec.trans ?_) rfl
      rw [hm, mrRun, Nat.sub_eq_zero_of_le hround, mrRounds, endRounds_prime]
    · exact .draws hpath hw (not_lt.1 hround)
  | power round v a p =>
    rw [hm] at stage
    cases hp : expNext s.op0 hpath.pos p with
    | some p' => rw [tickStage_power_of_some _ _ _ _ hp]; exact stage (.multiply hp)
    | none =>
      by_cases hx : p.result = 1 ∨ p.result = bigSubNat s.op0 1
      · rw [tickStage_power_of_pass _ _ _ _ hp hx]; exact stage (.powerPasses hp hx)
      · rw [tickStage_power_of_square _ _ _ _ hp hx]; exact stage (.beginSquares hp hx)
  | square round v a j x =>
    rw [hm] at stage composite
    by_cases hj : j < v.s - 1
    · rw [mrRun_square hpath.pos round a x hj] at composite
      by_cases h1 : mulMod x x s.op0 hpath.pos = 1
      · rw [tickStage_square_of_one _ _ _ _ _ hj h1]; exact composite (if_pos h1)
      · by_cases hx : mulMod x x s.op0 hpath.pos = bigSubNat s.op0 1
        · rw [tickStage_square_of_pass _ _ _ _ _ hj h1 hx]; exact stage (.squarePasses hj h1 hx)
        · rw [tickStage_square_of_next _ _ _ _ _ hj h1 hx]; exact stage (.square hj h1 hx)
    · rw [tickStage_square_of_last _ _ _ _ _ hj]
      exact composite (mrRun_square_last hpath.pos round a x hj _)

theorem tickMillerRabin_of_odd {s : State} (hc : 0 < s.op0) (h5 : 5 ≤ s.op0) (hodd : s.op0 % 2 = 1) :
    tickMillerRabin s = tickStage (mrStage s) s hc := by
  rw [tickMillerRabin, if_neg (by omega), dif_neg (by simp [isEven, hodd]), if_neg (by omega)]

/-- The special cases of Miller–Rabin take one iteration (R137, R138). -/
theorem tickMillerRabin_special {s : State} (h : ¬ (5 ≤ s.op0 ∧ s.op0 % 2 = 1)) :
    tickMillerRabin s = millerRabin s ∧ ∃ t, millerRabin s = .next t ∧ t.status.busy = false := by
  rw [tickMillerRabin, millerRabin]
  by_cases h23 : s.op0 = 2 ∨ s.op0 = 3
  · rw [if_pos h23, if_pos h23]
    exact ⟨rfl, _, rfl, rfl⟩
  · by_cases heven : isEven s.op0 = true
    · rw [if_neg h23, if_neg h23, dif_pos heven, dif_pos heven]
      exact ⟨rfl, _, rfl, rfl⟩
    · have h1 : s.op0 = 1 := by simp [isEven] at heven; omega
      rw [if_neg h23, if_neg h23, dif_neg heven, dif_neg heven, if_pos h1, if_pos h1]
      exact ⟨rfl, _, rfl, rfl⟩

theorem tickEnd_of_millerRabin {i : Instr} {s : State} (hi : DrawsWitnesses i) (hrun : exec i s = millerRabin s) :
    TickEnd i s (tickMillerRabin s) := by
  by_cases h : 5 ≤ s.op0 ∧ s.op0 % 2 = 1
  · have hpath : OnGeneralPath i s := ⟨hi, hrun, h.1, h.2⟩
    rw [tickMillerRabin_of_odd hpath.pos hpath.five_le hpath.odd]
    exact tickStage_end hpath
  · obtain ⟨htick, t, ht, hb⟩ := tickMillerRabin_special h
    rw [htick, ht]
    exact .ended (hrun.trans ht) hb

theorem tick_end (i : Instr) (s : State) : TickEnd i s (tick i s) := by
  cases i with
  | modexp =>
    rw [tick]
    rcases Nat.eq_zero_or_pos s.op2 with h | hm
    · rw [tickModexp_of_zero h]
      exact .ended (execModexp_of_zero h) rfl
    · cases hv : expNext s.op2 hm (modexpVars s hm) with
      | some v => rw [tickModexp_of_some hv]; exact .iterated (.modexp hm hv)
      | none =>
        rw [tickModexp_of_none hv]
        exact .ended ((execModexp_of_pos hm).trans (by rw [expLoop, loop_of_none hv])) rfl
  | trialdiv =>
    rw [tick]
    cases hk : trialNext s.op0 (trialIndex s) with
    | some k => rw [tickTrialdiv_of_some hk]; exact .iterated (.trialdiv hk)
    | none => rw [tickTrialdiv_of_none hk]; exact .ended (by rw [exec, execTrialdiv, trialEnd_of_none hk]) rfl
  | rewrite =>
    rw [tick]
    by_cases h : s.op0 = 0
    · rw [tickRewrite_of_zero h]
      exact .ended (execRewrite_of_zero h) rfl
    · cases hv : rewriteNext (rewriteVars s) with
      | some v => rw [tickRewrite_of_some h hv]; exact .iterated (.rewrite h hv)
      | none =>
        rw [tickRewrite_of_none h hv]
        exact .ended ((execRewrite_of_pos h).trans (by rw [rewriteLoop, loop_of_none hv])) rfl
  | mrtest => exact tickEnd_of_millerRabin (.inl rfl) rfl
  | isprime =>
    rw [tick]
    cases hp : pastTrial s with
    | true =>
      rw [tickIsprime_of_pastTrial hp]
      exact tickEnd_of_millerRabin (.inr rfl) (execIsprime_of_pastTrial hp)
    | false =>
      cases hk : trialNext s.op0 (trialIndex s) with
      | some k => rw [tickIsprime_of_some hp hk]; exact .iterated (.trial hp hk)
      | none =>
        have hrun := execIsprime_of_trial hp
        rw [trialEnd_of_none hk] at hrun
        obtain ⟨haccept, hreject, hopen⟩ := hrun
        obtain ⟨htickAccept, htickReject, htickOpen⟩ := tickIsprime_of_none hp hk
        cases hv : trialVerdictAt s.op0 (trialIndex s) with
        | accept => rw [htickAccept hv]; exact .ended (haccept hv) rfl
        | reject => rw [htickReject hv]; exact .ended (hreject hv) rfl
        | undecided => rw [htickOpen hv]; exact tickEnd_of_millerRabin (.inr rfl) (hopen hv)
  | egcd =>
    rw [tick]
    cases hv : egcdNext (egcdVars s) with
    | some v => rw [tickEgcd_of_some hv]; exact .iterated (.egcd hv)
    | none => rw [tickEgcd_of_none hv]; exact .ended (by rw [exec, execEgcd, egcdLoop, loop_of_none hv]) rfl
  | invmod =>
    rw [tick]
    by_cases h : s.op1 = 0
    · rw [tickInvmod_of_zero h]
      exact .ended (execInvmod_of_zero h) rfl
    · cases hv : invNext (invVars s) with
      | some v => rw [tickInvmod_of_some h hv]; exact .iterated (.invmod h hv)
      | none =>
        rw [tickInvmod_of_none h hv]
        exact .ended ((execInvmod_of_pos h).trans (by rw [invLoop, loop_of_none hv])) rfl

end Sys2Proof.Machine

/-! # Every engine's loop invariant, kept by each iteration (rules R136, R139, R140, R173, R174) -/

namespace Sys2Proof.Machine

open Sys2Proof.Safety

/-! ### The engines -/

theorem rewriteSound_rewriteInit {c : Nat} (hc : c ≠ 0) : RewriteSound c (rewriteInit c) := ⟨hc, by simp [rewriteInit]⟩

/-- What an iteration of `Rewrite` does: a factor 2 moves into the count (R135). -/
theorem rewriteNext_some {v v' : RewriteVars} (h : rewriteNext v = some v') : v'.s = v.s + 1 ∧ v.d = 2 * v'.d := by
  unfold rewriteNext isEven at h
  split at h
  · rename_i heven
    cases h
    have heven : v.d % 2 = 0 := by simpa using heven
    exact ⟨rfl, by simp only [shr1]; omega⟩
  · cases h

theorem rewriteSound_rewriteNext {c : Nat} {v v' : RewriteVars} (hv : RewriteSound c v) (h : rewriteNext v = some v') :
    RewriteSound c v' := by
  obtain ⟨hd, hvalue⟩ := hv
  obtain ⟨hs', hd'⟩ := rewriteNext_some h
  exact ⟨(rewriteNext_lowers hd h).1, by rw [hvalue, hs', hd', pow_succ, mul_assoc]⟩

theorem rewriteSound_rewriteLoop {c : Nat} {v : RewriteVars} (hv : RewriteSound c v) : RewriteSound c (rewriteLoop v) :=
  loop_invariant (fun _ _ hv h => rewriteSound_rewriteNext hv h) v.d hv

/-- The fuel is enough: the loop ends with an odd number. -/
theorem rewriteLoop_odd {v : RewriteVars} (hd : v.d ≠ 0) : (rewriteLoop v).d % 2 = 1 :=
  rewriteNext_eq_none.1 (loop_ends (m := RewriteVars.d) (fun _ _ hd h => rewriteNext_lowers hd h) v.d hd le_rfl)

theorem decomposed_of_rewriteSound {c : Nat} {v : RewriteVars} (hv : RewriteSound (c - 1) v)
    (h : rewriteNext v = none) : Decomposed c v := ⟨hv.2, rewriteNext_eq_none.1 h⟩

theorem decomposed_rewriteLoop {c : Nat} {v : RewriteVars} (hv : RewriteSound (c - 1) v) :
    Decomposed c (rewriteLoop v) := ⟨(rewriteSound_rewriteLoop hv).2, rewriteLoop_odd hv.1⟩

/-- What an iteration of `ExtGcd` does, with the units' operations written as arithmetic (R171). -/
theorem egcdNext_some {v v' : EgcdVars} (h : egcdNext v = some v') :
    0 < v.r ∧ v'.oldR = v.r ∧ v'.r = v.oldR % v.r ∧ v'.oldS = v.s ∧ v'.s = v.oldS - (v.oldR / v.r : Nat) * v.s ∧
    v'.oldT = v.t ∧ v'.t = v.oldT - (v.oldR / v.r : Nat) * v.t := by
  unfold egcdNext at h
  split at h
  · cases h
  · rename_i hr
    cases h
    exact ⟨Nat.pos_of_ne_zero hr, rfl, egcd_remainder _ _ _, rfl, rfl, rfl, rfl⟩

theorem egcdSound_egcdInit (a b : Nat) : EgcdSound a b (egcdInit a b) := by
  refine ⟨by simp [egcdInit], by simp [egcdInit], rfl, chainSound_start b a, ?_, ?_, ?_, ?_⟩ <;> simp [egcdInit]

theorem egcdSound_egcdNext {a b : Nat} {v v' : EgcdVars} (hv : EgcdSound a b v) (h : egcdNext v = some v') :
    EgcdSound a b v' := by
  obtain ⟨hold, hcur, hgcd, hs, ht⟩ := hv
  obtain ⟨hr, holdR', hr', holdS', hs', holdT', ht'⟩ := egcdNext_some h
  rw [EgcdSound, holdR', hr', holdS', hs', holdT', ht']
  refine ⟨hcur, ?_, ?_, chainSound_step hr hs, chainSound_step hr ht⟩
  · calc ((v.oldR % v.r : Nat) : Int)
        = v.oldR - (v.oldR / v.r : Nat) * v.r := by
          rw [Int.natCast_emod, Int.emod_def, Int.natCast_ediv, mul_comm]
      _ = a * (v.oldS - (v.oldR / v.r : Nat) * v.s) + b * (v.oldT - (v.oldR / v.r : Nat) * v.t) := by
          rw [hold, hcur]; ring
  · rw [Nat.gcd_comm, ← Nat.gcd_rec, Nat.gcd_comm, hgcd]

theorem egcdSound_egcdLoop {a b : Nat} {v : EgcdVars} (hv : EgcdSound a b v) : EgcdSound a b (egcdLoop v) :=
  loop_invariant (fun _ _ hv h => egcdSound_egcdNext hv h) v.r hv

theorem egcdLoop_r (v : EgcdVars) : (egcdLoop v).r = 0 :=
  egcdNext_eq_none.1 (loop_ends (P := fun _ => True) (fun _ _ _ h => ⟨trivial, egcdNext_lowers h⟩) v.r trivial le_rfl)

theorem egcdLoop_oldR {a b : Nat} {v : EgcdVars} (hv : EgcdSound a b v) : (egcdLoop v).oldR = Nat.gcd a b := by
  obtain ⟨-, -, hgcd, -⟩ := egcdSound_egcdLoop hv
  rwa [egcdLoop_r, Nat.gcd_zero_right] at hgcd

/-- A stage's iteration keeps the stage's invariant; once the power is computed it is the power of R139. -/
theorem mrSound_stageNext {c : Nat} {hc : 0 < c} {m m' : MrStage} (hm : MrSound c m) (h : StageNext c hc m m') :
    MrSound c m' := by
  cases h with
  | halve h => exact rewriteSound_rewriteNext hm h
  | halved h => exact ⟨decomposed_of_rewriteSound hm h, le_rfl, by decide⟩
  | multiply h =>
    obtain ⟨hv, hlo, hhi, ha, hp⟩ := hm
    exact ⟨hv, hlo, hhi, ha, expSound_expNext hp h⟩
  | powerPasses _ _ =>
    obtain ⟨hv, -, hhi, -⟩ := hm
    exact ⟨hv, by omega, by omega⟩
  | @beginSquares round v a p h hx =>
    obtain ⟨hv, hlo, hhi, ha, hp⟩ := hm
    have hpower : p.result = a ^ v.d % c := by
      rw [← expLoop_result (hm := hc) hp, expLoop, loop_of_none h]
    rw [not_or] at hx
    exact ⟨hv, hlo, hhi, ha, Nat.zero_le _, by rw [hpower, pow_zero, one_mul], hx.1, hx.2⟩
  | squarePasses _ _ _ =>
    obtain ⟨hv, -, hhi, -⟩ := hm
    exact ⟨hv, by omega, by omega⟩
  | @square round v a j x hj h1 hx =>
    obtain ⟨hv, hlo, hhi, ha, -, hpower, -⟩ := hm
    refine ⟨hv, hlo, hhi, ha, hj, ?_, h1, hx⟩
    rw [hpower, ← Nat.mul_mod, ← pow_two, ← pow_mul, pow_succ, mul_right_comm]

/-! ### The working variables of a sound state -/

section

variable {s : State}

theorem modexpVars_sound (hs : WorkSound s) (hm : 0 < s.op2) : ExpSound s.op0 s.op1 s.op2 (modexpVars s hm) := by
  unfold modexpVars
  split
  · rename_i v hw
    rw [WorkSound, hw] at hs
    exact hs.2
  · exact expSound_expInit s.op0 s.op1 hm

theorem trialIndex_sound (hs : WorkSound s) : TrialSound s.op0 (trialIndex s) := by
  unfold trialIndex
  split
  · rename_i k hw
    rw [WorkSound, hw] at hs
    exact hs
  · exact trialSound_zero s.op0

theorem rewriteVars_sound (hs : WorkSound s) (h0 : s.op0 ≠ 0) : RewriteSound s.op0 (rewriteVars s) := by
  unfold rewriteVars
  split
  · rename_i v hw
    rw [WorkSound, hw] at hs
    exact hs.2
  · exact rewriteSound_rewriteInit h0

theorem mrStage_sound (hs : WorkSound s) (h5 : 5 ≤ s.op0) : MrSound s.op0 (mrStage s) := by
  unfold mrStage
  split
  · rename_i m hw
    rw [WorkSound, hw] at hs
    obtain ⟨-, -, hm⟩ := hs
    exact hm
  · exact rewriteSound_rewriteInit (by simp only [bigSubNat]; omega)

theorem egcdVars_sound (hs : WorkSound s) : EgcdSound s.op0 s.op1 (egcdVars s) := by
  unfold egcdVars
  split
  · rename_i v hw
    rw [WorkSound, hw] at hs
    exact hs
  · exact egcdSound_egcdInit s.op0 s.op1

theorem invVars_sound (hs : WorkSound s) : InvSound s.op0 s.op1 (invVars s) := by
  unfold invVars
  split
  · rename_i v hw
    rw [WorkSound, hw] at hs
    exact hs.2
  · exact invSound_invInit s.op0 s.op1

/-- One iteration keeps the working variables sound. -/
theorem workSound_iterates {i : Instr} {w : Work} (h : Iterates i s w) (hs : WorkSound s) :
    WorkSound { s with work := some w } := by
  cases h with
  | modexp hm h => exact ⟨hm.ne', expSound_expNext (modexpVars_sound (s := s) hs hm) h⟩
  | trialdiv h => exact trialSound_trialNext (trialIndex_sound (s := s) hs) h
  | rewrite h0 h => exact ⟨h0, rewriteSound_rewriteNext (rewriteVars_sound (s := s) hs h0) h⟩
  | trial _ h => exact trialSound_trialNext (trialIndex_sound (s := s) hs) h
  | stage hpath h => exact ⟨hpath.five_le, hpath.odd, mrSound_stageNext (mrStage_sound (s := s) hs hpath.five_le) h⟩
  | egcd h => exact egcdSound_egcdNext (egcdVars_sound (s := s) hs) h
  | invmod h1 h => exact ⟨h1, invSound_invNext (invVars_sound (s := s) hs) h⟩

end

end Sys2Proof.Machine

/-! # Iterations of a command and its run (rules R42, R250, log entry 7) -/

namespace Sys2Proof.Machine

open Sys2Proof.Safety

/-! ### An iteration that is no draw -/

/-- A stage's iteration changes neither how the rounds end nor the decomposition they use. -/
theorem mrRun_stageNext {c : Nat} {hc : 0 < c} {m m' : MrStage} (hm : MrSound c m) (h : StageNext c hc m m')
    (script : List Nat) : mrRun c hc m' script = mrRun c hc m script ∧ mrVars m' = mrVars m := by
  cases h with
  | @halve v v' h =>
    have hloop : rewriteLoop v' = rewriteLoop v := rewriteLoop_of_some hm.1 h
    exact ⟨by rw [mrRun, mrRun, hloop], hloop⟩
  | @halved v h =>
    have hloop : rewriteLoop v = v := loop_of_none h _
    exact ⟨by rw [mrRun, mrRun, hloop, Nat.add_sub_cancel], hloop.symm⟩
  | multiply h => exact ⟨by rw [mrRun, mrRun, expLoop_of_some h], rfl⟩
  | @powerPasses round v a p h hx =>
    refine ⟨?_, rfl⟩
    rw [mrRun_power hc round v a h, mrJudge_of_pass hc v hx, mrRun, mrAfter, Nat.add_sub_add_right]
  | @beginSquares round v a p h hx =>
    refine ⟨?_, rfl⟩
    rw [mrRun_power hc round v a h, mrJudge_of_square hc v hx]
    rfl
  | @squarePasses round v a j x hj h1 hx =>
    refine ⟨?_, rfl⟩
    rw [mrRun_square hc round a x hj, if_neg h1, if_pos hx, mrRun, Nat.add_sub_add_right]
  | @square round v a j x hj h1 hx =>
    refine ⟨?_, rfl⟩
    rw [mrRun_square hc round a x hj, if_neg h1, if_neg hx]

/-- How rounds end does not depend on the stage, except for the decomposition. -/
theorem endRounds_withStage (r : Rounds) {s : State} {m : MrStage} (h : mrVars m = mrVars (mrStage s)) :
    endRounds r (s.withStage m) = endRounds r s := by
  unfold endRounds
  cases r.ending with
  | prime => rfl
  | composite => rfl
  | hold left => simp only [mrStage_of_work (withStage_work s m), h]; rfl
  | outOfRange => rfl

theorem exec_of_stage {i : Instr} {s : State} {m : MrStage} (hi : DrawsWitnesses i)
    (h : s.work = some (.millerRabin m)) : exec i s = millerRabin s := by
  rcases hi with rfl | rfl
  · rfl
  · exact execIsprime_of_pastTrial (by rw [pastTrial, h])

/-- Past trial division, the general path is one of the candidate alone. -/
theorem onGeneralPath_of_stage {i : Instr} {s : State} {m : MrStage} (hi : DrawsWitnesses i)
    (h : s.work = some (.millerRabin m)) (h5 : 5 ≤ s.op0) (hodd : s.op0 % 2 = 1) : OnGeneralPath i s :=
  ⟨hi, exec_of_stage hi h, h5, hodd⟩

theorem mrStage_of_trial {s : State} (h : pastTrial s = false) : mrStage s = .rewrite (rewriteInit (s.op0 - 1)) := by
  unfold pastTrial at h
  split at h
  · cases h
  · rename_i hw
    unfold mrStage
    split
    · exact absurd ‹_› (hw _)
    · rfl

theorem millerRabin_withWork {s : State} {w : Option Work} (h : mrStage { s with work := w } = mrStage s) :
    millerRabin { s with work := w } = millerRabin s := by
  simp only [millerRabin, endRounds, h]
  rfl

/-- After an iteration the run ends as it would have before it. -/
theorem exec_iterates {i : Instr} {s : State} {w : Work} (h : Iterates i s w) (hs : WorkSound s) :
    exec i { s with work := some w } = exec i s := by
  cases h with
  | @modexp _ hm v h =>
    calc exec .modexp { s with work := some (.modexp v) }
        = .next (complete (modexpResults (expLoop s.op2 hm v)) s) :=
          execModexp_of_pos (s := { s with work := some (.modexp v) }) hm
      _ = exec .modexp s := by rw [expLoop_of_some h, exec, execModexp_of_pos hm]
  | @trialdiv _ k h =>
    calc exec .trialdiv { s with work := some (.trial k) }
        = .next (complete { tag := (trialVerdictAt s.op0 (trialEnd s.op0 k)).tag } s) := rfl
      _ = exec .trialdiv s := by rw [trialEnd_of_some h, exec, execTrialdiv]
  | @rewrite _ h0 v h =>
    calc exec .rewrite { s with work := some (.rewrite v) }
        = .next (complete (rewriteResults (rewriteLoop v)) s) := execRewrite_of_pos h0
      _ = exec .rewrite s := by rw [rewriteLoop_of_some (rewriteVars_sound hs h0).1 h, exec, execRewrite_of_pos h0]
  | @trial _ hp k h =>
    have hp' : pastTrial { s with work := some (.trial k) } = false := rfl
    have hend : trialEnd s.op0 (trialIndex { s with work := some (.trial k) }) = trialEnd s.op0 (trialIndex s) :=
      trialEnd_of_some h
    have hrounds := millerRabin_withWork (s := s) (w := some (.trial k)) (mrStage_of_trial hp).symm
    simp only [exec, execIsprime, hp, hp', hend, hrounds]
    rfl
  | @stage _ _ hpath m h =>
    have hpath' : OnGeneralPath i (s.withStage m) :=
      onGeneralPath_of_stage hpath.draws rfl hpath.five_le hpath.odd
    obtain ⟨hrun, hvars⟩ := mrRun_stageNext (mrStage_sound hs hpath.five_le) h s.env.script
    calc exec i (s.withStage m)
        = endRounds (mrRun s.op0 hpath.pos m s.env.script) (s.withStage m) := hpath'.exec_eq
      _ = exec i s := by rw [hrun, endRounds_withStage _ hvars, hpath.exec_eq]
  | @egcd _ v h =>
    calc exec .egcd { s with work := some (.egcd v) }
        = .next (complete (egcdResults (egcdLoop v)) s) := rfl
      _ = exec .egcd s := by rw [egcdLoop_of_some h, exec, execEgcd]
  | @invmod _ h1 v h =>
    calc exec .invmod { s with work := some (.invmod v) }
        = .next (complete (invResults (invVerdict s.op1 (invLoop v))) s) := execInvmod_of_pos h1
      _ = exec .invmod s := by rw [invLoop_of_some h, exec, execInvmod_of_pos h1]

end Sys2Proof.Machine

/-! # Draws, and the agreement of iterations and runs (rules R78, R140, R250, log entry 7) -/

namespace Sys2Proof.Machine

open Sys2Proof.Safety

/-! ### A draw (R78, R79, R140) -/

/-- A round that is begun makes its request. -/
theorem mrRounds_asks_pos {c : Nat} (hc : 0 < c) (v : RewriteVars) (left : Nat) (script : List Nat) :
    1 ≤ (mrRounds c hc v (left + 1) script).asks := by
  cases script with
  | nil => exact le_rfl
  | cons a script =>
    rw [mrRounds]
    split_ifs
    · cases mrRound c hc v a with
      | pass => exact Nat.le_add_left 1 _
      | composite => exact le_rfl
    · exact le_rfl

/-- The answer to a round's request takes the round to its power, at the cost of that request. -/
theorem mrRounds_answered {c a : Nat} (hc : 0 < c) (v : RewriteVars) {round : Nat} (hround : round ≤ Config.mrRounds)
    (script : List Nat) (ha : (mrRequest c).admits a = true) :
    mrRounds c hc v (Config.mrRounds + 1 - round) (a :: script) =
      { mrRun c hc (.power round v a (expInit a v.d c hc)) script with
        asks := (mrRun c hc (.power round v a (expInit a v.d c hc)) script).asks + 1 } := by
  have hpower : mrRun c hc (.power round v a (expInit a v.d c hc)) script =
      mrAfter c hc v round (mrRound c hc v a) script := rfl
  rw [Nat.sub_add_comm hround, mrRounds, if_pos ha, hpower]
  cases mrRound c hc v a <;> rfl

theorem mrRounds_outOfRange {c a : Nat} (hc : 0 < c) (v : RewriteVars) {round : Nat} (hround : round ≤ Config.mrRounds)
    (script : List Nat) (ha : ¬ (mrRequest c).admits a = true) :
    mrRounds c hc v (Config.mrRounds + 1 - round) (a :: script) = ⟨.outOfRange, 1, script⟩ := by
  rw [Nat.sub_add_comm hround, mrRounds, if_neg ha]

/-- The state in which the request of a round has just been issued (R78, R142). -/
def State.requested (s : State) : State :=
  { s with
    request := some (mrRequest s.op0)
    env := { s.env with asked := mrRequest s.op0 :: s.env.asked } }

/-- The state in which the sampler's answer has reached the round (R139). -/
def State.answered (s : State) (round : Nat) (v : RewriteVars) (a : Nat) (hc : 0 < s.op0) (script : List Nat) : State :=
  { s with
    work := some (.millerRabin (.power round v a (expInit a v.d s.op0 hc)))
    request := none
    env := { s.env with script := script } }

section

variable {s : State} {round : Nat} {v : RewriteVars} {a : Nat} {script : List Nat}

theorem tickDraw_of_over (h : Config.mrRounds < round) : tickDraw round s = .next (complete { tag := .pos } s) :=
  if_pos h

theorem tickDraw_of_no_request (hround : round ≤ Config.mrRounds) (hq : s.request = none) :
    tickDraw round s = .next s.requested := by
  rw [tickDraw, if_neg (not_lt.2 hround), hq]
  rfl

theorem tickDraw_of_no_answer (hround : round ≤ Config.mrRounds) (hq : s.request ≠ none) (hscript : s.env.script = []) :
    tickDraw round s = .next s := by
  obtain ⟨q, hq⟩ := Option.ne_none_iff_exists'.1 hq
  rw [tickDraw, if_neg (not_lt.2 hround), hq, hscript]

theorem tickDraw_of_answer (hround : round ≤ Config.mrRounds) (hq : s.request ≠ none)
    (hscript : s.env.script = a :: script) (hw : s.work = some (.millerRabin (.draw round v)))
    (ha : (mrRequest s.op0).admits a = true) (hc : 0 < s.op0) :
    tickDraw round s = .next (s.answered round v a hc script) := by
  obtain ⟨q, hq⟩ := Option.ne_none_iff_exists'.1 hq
  simp only [tickDraw, if_neg (not_lt.2 hround), hq, hscript, deliver, hw, dif_pos ha]
  rfl

theorem tickDraw_of_outOfRange (hround : round ≤ Config.mrRounds) (hq : s.request ≠ none)
    (hscript : s.env.script = a :: script) (hw : s.work = some (.millerRabin (.draw round v)))
    (ha : ¬ (mrRequest s.op0).admits a = true) : tickDraw round s = .refused .samplerOutOfRange := by
  obtain ⟨q, hq⟩ := Option.ne_none_iff_exists'.1 hq
  simp only [tickDraw, if_neg (not_lt.2 hround), hq, hscript, deliver, hw, dif_neg ha]

/-- What the start of a round does: it issues the request, waits, or goes on with the answer, which must be in range. -/
theorem tickDraw_cases (hc : 0 < s.op0) (hw : s.work = some (.millerRabin (.draw round v)))
    (hround : round ≤ Config.mrRounds) :
    (s.request = none ∧ tickDraw round s = .next s.requested) ∨
    (s.request ≠ none ∧ s.env.script = [] ∧ tickDraw round s = .next s) ∨
    ∃ a script, s.request ≠ none ∧ s.env.script = a :: script ∧
      (((mrRequest s.op0).admits a = true ∧ tickDraw round s = .next (s.answered round v a hc script)) ∨
        (¬ (mrRequest s.op0).admits a = true ∧ tickDraw round s = .refused .samplerOutOfRange)) := by
  by_cases hq : s.request = none
  · exact .inl ⟨hq, tickDraw_of_no_request hround hq⟩
  · cases hscript : s.env.script with
    | nil => exact .inr (.inl ⟨hq, rfl, tickDraw_of_no_answer hround hq hscript⟩)
    | cons a script =>
      refine .inr (.inr ⟨a, script, hq, rfl, ?_⟩)
      by_cases ha : (mrRequest s.op0).admits a = true
      · exact .inl ⟨ha, tickDraw_of_answer hround hq hscript hw ha hc⟩
      · exact .inr ⟨ha, tickDraw_of_outOfRange hround hq hscript hw ha⟩

end

/-- Issuing a request that the rounds are about to make does not change how they end. -/
theorem endRounds_requested {r : Rounds} {s : State} (hq : s.request = none) (hasks : 1 ≤ r.asks) :
    endRounds r s.requested = endRounds r s := by
  obtain ⟨n, hn⟩ : ∃ n, r.asks = n + 1 := ⟨r.asks - 1, by omega⟩
  have hrecord : recordRounds r s.requested = { recordRounds r s with request := some (mrRequest s.op0) } := by
    simp [recordRounds, State.requested, hq, hn, List.replicate_succ', List.append_assoc]
  unfold endRounds
  rw [hrecord]
  cases r.ending <;> rfl

/-- The answer to the outstanding request is one of the answers the rounds were going to use. -/
theorem endRounds_answered {r : Rounds} {s : State} {round : Nat} {v : RewriteVars} {a : Nat} {hc : 0 < s.op0}
    {script : List Nat} (hq : s.request ≠ none) (hw : s.work = some (.millerRabin (.draw round v))) :
    endRounds r (s.answered round v a hc script) = endRounds { r with asks := r.asks + 1 } s := by
  have hsome : s.request.isSome.toNat = 1 := by rw [Option.isSome_iff_ne_none.2 hq]; rfl
  have hvars : mrVars (mrStage (s.answered round v a hc script)) = mrVars (mrStage s) := by
    rw [mrStage_of_work hw]; rfl
  have hrecord : recordRounds r (s.answered round v a hc script) =
      { recordRounds { r with asks := r.asks + 1 } s with
        work := some (.millerRabin (.power round v a (expInit a v.d s.op0 hc)))
        request := none } := by
    simp [recordRounds, State.answered, hsome]
  unfold endRounds
  rw [hrecord, hvars]
  cases r.ending <;> rfl

section

variable {i : Instr} {s : State} {round : Nat} {v : RewriteVars}

/-- The run of a command at the start of a round. -/
theorem exec_of_draw (hpath : OnGeneralPath i s) (hw : s.work = some (.millerRabin (.draw round v))) :
    exec i s = endRounds (mrRounds s.op0 hpath.pos v (Config.mrRounds + 1 - round) s.env.script) s := by
  rw [hpath.exec_eq, mrStage_of_work hw]
  rfl

theorem exec_requested (hpath : OnGeneralPath i s) (hw : s.work = some (.millerRabin (.draw round v)))
    (hround : round ≤ Config.mrRounds) (hq : s.request = none) : exec i s.requested = exec i s := by
  have hpath' : OnGeneralPath i s.requested := onGeneralPath_of_stage hpath.draws hw hpath.five_le hpath.odd
  have hasks : 1 ≤ (mrRounds s.op0 hpath.pos v (Config.mrRounds + 1 - round) s.env.script).asks := by
    rw [Nat.sub_add_comm hround]
    exact mrRounds_asks_pos ..
  rw [exec_of_draw hpath hw, ← endRounds_requested hq hasks]
  exact exec_of_draw hpath' hw

theorem exec_answered (hpath : OnGeneralPath i s) (hw : s.work = some (.millerRabin (.draw round v)))
    (hround : round ≤ Config.mrRounds) (hq : s.request ≠ none) {a : Nat} {script : List Nat}
    (hscript : s.env.script = a :: script) (ha : (mrRequest s.op0).admits a = true) :
    exec i (s.answered round v a hpath.pos script) = exec i s := by
  have hpath' : OnGeneralPath i (s.answered round v a hpath.pos script) :=
    onGeneralPath_of_stage hpath.draws rfl hpath.five_le hpath.odd
  rw [exec_of_draw hpath hw, hscript, mrRounds_answered hpath.pos v hround script ha, ← endRounds_answered hq hw]
  exact hpath'.exec_eq

theorem exec_outOfRange (hpath : OnGeneralPath i s) (hw : s.work = some (.millerRabin (.draw round v)))
    (hround : round ≤ Config.mrRounds) {a : Nat} {script : List Nat} (hscript : s.env.script = a :: script)
    (ha : ¬ (mrRequest s.op0).admits a = true) : exec i s = .refused .samplerOutOfRange := by
  rw [exec_of_draw hpath hw, hscript, mrRounds_outOfRange hpath.pos v hround script ha]
  rfl

/-- With the round's request outstanding and no answer, a run changes nothing (R79). -/
theorem exec_waiting (hpath : OnGeneralPath i s) (hw : s.work = some (.millerRabin (.draw round v)))
    (hround : round ≤ Config.mrRounds) (hq : s.request = some (mrRequest s.op0)) (hscript : s.env.script = []) :
    exec i s = .next s := by
  have hleft : Config.mrRounds + 1 - (Config.mrRounds - round + 1) = round := by omega
  rw [exec_of_draw hpath hw, hscript, Nat.sub_add_comm hround, mrRounds, endRounds]
  simp only [recordRounds, mrStage_of_work hw, mrVars, hq, hleft, Option.isSome_some, Bool.toNat_true, Nat.sub_self,
    List.replicate_zero, List.nil_append]
  rw [← hw, ← hq, ← hscript]

end

/-! ### What a request needs (R46) -/

/-- Outside the draw of a round no request is outstanding. -/
theorem request_eq_none {s : State} (h : requestMatches s = true)
    (hw : ∀ round v, s.work ≠ some (.millerRabin (.draw round v))) : s.request = none := by
  unfold requestMatches at h
  split at h
  · assumption
  · split at h
    · exact absurd ‹_› (hw _ _)
    · cases h

theorem request_eq_mrRequest {s : State} (h : requestMatches s = true) (hq : s.request ≠ none) :
    s.request = some (mrRequest s.op0) ∧ s.env.asked.head? = some (mrRequest s.op0) ∧
    ∃ round v, s.work = some (.millerRabin (.draw round v)) ∧ round ≤ Config.mrRounds := by
  unfold requestMatches at h
  split at h
  · contradiction
  · rename_i q hq
    split at h
    · rename_i round v hw
      simp only [Bool.and_eq_true, beq_iff_eq, decide_eq_true_iff] at h
      obtain ⟨⟨rfl, hround⟩, hasked⟩ := h
      exact ⟨hq, hasked, round, v, hw, hround⟩
    · cases h

theorem requestMatches_of_none {s : State} (h : s.request = none) : requestMatches s = true := by
  rw [requestMatches, h]

theorem requestMatches_of_draw {s : State} {round : Nat} {v : RewriteVars}
    (hw : s.work = some (.millerRabin (.draw round v))) (hround : round ≤ Config.mrRounds)
    (hq : s.request = some (mrRequest s.op0)) (hasked : s.env.asked.head? = some (mrRequest s.op0)) :
    requestMatches s = true := by
  simp [requestMatches, hq, hw, hround, hasked]

/-- No iteration but a draw is at the start of a round. -/
theorem not_draw_of_iterates {i : Instr} {s : State} {w : Work} (h : Iterates i s w) (hi : DrawsWitnesses i)
    (round : Nat) (v : RewriteVars) : s.work ≠ some (.millerRabin (.draw round v)) := by
  intro hw
  cases h with
  | trial hp _ => rw [pastTrial, hw] at hp; cases hp
  | stage hpath h => rw [mrStage_of_work hw] at h; cases h
  | modexp _ _ | trialdiv _ | rewrite _ _ | egcd _ | invmod _ _ => rcases hi with hi | hi <;> cases hi

/-! ### How much a command still has to do -/

/-- Rounds left, where the round stands, and iterations left there. -/
def stageLeft (requested : Bool) : MrStage → Lex (Nat × Lex (Nat × Nat))
  | .rewrite v => toLex (Config.mrRounds + 2, toLex (0, v.d))
  | .draw round _ => toLex (Config.mrRounds + 1 - round, toLex (3 - requested.toNat, 0))
  | .power round _ _ p => toLex (Config.mrRounds + 1 - round, toLex (1, p.e))
  | .square round v _ j _ => toLex (Config.mrRounds + 1 - round, toLex (0, v.s - 1 - j))

/-- A measure that every iteration lowers, unless it waits for the sampler. -/
def iterationsLeft (i : Instr) (s : State) : Lex (Nat × Lex (Nat × Nat)) :=
  match i with
  | .modexp => toLex (0, toLex (0, if h : 0 < s.op2 then (modexpVars s h).e else 0))
  | .trialdiv => toLex (0, toLex (0, Config.nSmallPrimes - trialIndex s))
  | .rewrite => toLex (0, toLex (0, (rewriteVars s).d))
  | .mrtest => stageLeft s.request.isSome (mrStage s)
  | .isprime =>
    if pastTrial s then stageLeft s.request.isSome (mrStage s)
    else toLex (Config.mrRounds + 3, toLex (0, Config.nSmallPrimes - trialIndex s))
  | .egcd => toLex (0, toLex (0, (egcdVars s).r))
  | .invmod => toLex (0, toLex (0, (invVars s).r))

theorem toLex_lt_of_lt {a b c : Nat} (h : b < c) : toLex (a, toLex (0, b)) < toLex (a, toLex (0, c)) :=
  Prod.Lex.toLex_lt_toLex.2 (.inr ⟨rfl, Prod.Lex.toLex_lt_toLex.2 (.inr ⟨rfl, h⟩)⟩)

theorem stageLeft_lowers {c : Nat} {hc : 0 < c} {m m' : MrStage} {requested requested' : Bool} (hm : MrSound c m)
    (h : StageNext c hc m m') : stageLeft requested' m' < stageLeft requested m := by
  cases h with
  | halve h => exact toLex_lt_of_lt (rewriteNext_lowers hm.1 h).2
  | halved h => exact Prod.Lex.toLex_lt_toLex.2 (.inl (show Config.mrRounds + 1 - 1 < Config.mrRounds + 2 by decide))
  | multiply h =>
    exact Prod.Lex.toLex_lt_toLex.2 (.inr ⟨rfl, Prod.Lex.toLex_lt_toLex.2 (.inr ⟨rfl, expNext_lowers h⟩)⟩)
  | powerPasses _ _ =>
    obtain ⟨-, -, hround, -⟩ := hm
    exact Prod.Lex.toLex_lt_toLex.2 (.inl (show Config.mrRounds + 1 - (_ + 1) < Config.mrRounds + 1 - _ by omega))
  | beginSquares _ _ =>
    exact Prod.Lex.toLex_lt_toLex.2 (.inr ⟨rfl, Prod.Lex.toLex_lt_toLex.2 (.inl Nat.one_pos)⟩)
  | squarePasses _ _ _ =>
    obtain ⟨-, -, hround, -⟩ := hm
    exact Prod.Lex.toLex_lt_toLex.2 (.inl (show Config.mrRounds + 1 - (_ + 1) < Config.mrRounds + 1 - _ by omega))
  | @square _ v _ j _ hj _ _ => exact toLex_lt_of_lt (show v.s - 1 - (j + 1) < v.s - 1 - j by omega)

/-- Past trial division the measure is the stage's, whichever of the two commands it is. -/
theorem iterationsLeft_of_stage {i : Instr} {s : State} {m : MrStage} (hi : DrawsWitnesses i)
    (hw : s.work = some (.millerRabin m)) : iterationsLeft i s = stageLeft s.request.isSome m := by
  rcases hi with rfl | rfl
  · rw [iterationsLeft, mrStage_of_work hw]
  · rw [iterationsLeft, mrStage_of_work hw, pastTrial, hw, if_pos rfl]

theorem stageLeft_le {i : Instr} (hi : DrawsWitnesses i) (s : State) :
    stageLeft s.request.isSome (mrStage s) ≤ iterationsLeft i s := by
  rcases hi with rfl | rfl
  · exact le_rfl
  · cases hp : pastTrial s with
    | true => rw [iterationsLeft, if_pos hp]
    | false =>
      rw [iterationsLeft, hp, if_neg Bool.false_ne_true, mrStage_of_trial hp]
      exact (Prod.Lex.toLex_lt_toLex.2 (.inl (Nat.lt_succ_self _))).le

theorem iterationsLeft_iterates {i : Instr} {s : State} {w : Work} (h : Iterates i s w) (hs : WorkSound s) :
    iterationsLeft i { s with work := some w } < iterationsLeft i s := by
  cases h with
  | @modexp _ hm v h =>
    rw [iterationsLeft, iterationsLeft, dif_pos hm, dif_pos hm]
    exact toLex_lt_of_lt (expNext_lowers h)
  | trialdiv h => exact toLex_lt_of_lt (trialNext_lowers h).2
  | rewrite h0 h => exact toLex_lt_of_lt (rewriteNext_lowers (rewriteVars_sound (s := s) hs h0).1 h).2
  | @trial _ hp k h =>
    have hp' : pastTrial { s with work := some (.trial k) } = false := rfl
    rw [iterationsLeft, iterationsLeft, hp, hp', if_neg Bool.false_ne_true, if_neg Bool.false_ne_true]
    exact toLex_lt_of_lt (trialNext_lowers h).2
  | @stage _ _ hpath m h =>
    have hleft : iterationsLeft i (s.withStage m) = stageLeft s.request.isSome m :=
      iterationsLeft_of_stage hpath.draws rfl
    exact hleft.trans_lt <| (stageLeft_lowers (mrStage_sound hs hpath.five_le) h).trans_le (stageLeft_le hpath.draws s)
  | egcd h => exact toLex_lt_of_lt (egcdNext_lowers h)
  | invmod _ h => exact toLex_lt_of_lt (invNext_lowers h)

section

variable {i : Instr} {s : State} {round : Nat} {v : RewriteVars}

theorem iterationsLeft_requested (hi : DrawsWitnesses i) (hw : s.work = some (.millerRabin (.draw round v)))
    (hq : s.request = none) : iterationsLeft i s.requested < iterationsLeft i s := by
  rw [iterationsLeft_of_stage (s := s.requested) hi hw, iterationsLeft_of_stage hi hw, hq]
  exact Prod.Lex.toLex_lt_toLex.2 (.inr ⟨rfl, Prod.Lex.toLex_lt_toLex.2 (.inl (show (2 : Nat) < 3 by decide))⟩)

theorem iterationsLeft_answered (hi : DrawsWitnesses i) (hw : s.work = some (.millerRabin (.draw round v))) {a : Nat}
    (hc : 0 < s.op0) (script : List Nat) :
    iterationsLeft i (s.answered round v a hc script) < iterationsLeft i s := by
  rw [iterationsLeft_of_stage (s := s.answered round v a hc script) hi rfl, iterationsLeft_of_stage hi hw]
  have hphase : ∀ requested : Bool, 1 < 3 - requested.toNat := by decide
  exact Prod.Lex.toLex_lt_toLex.2 (.inr ⟨rfl, Prod.Lex.toLex_lt_toLex.2 (.inl (hphase _))⟩)

end

theorem workSound_answered {s : State} {round : Nat} {v : RewriteVars} {a : Nat} {hc : 0 < s.op0} {script : List Nat}
    (hs : WorkSound s) (hw : s.work = some (.millerRabin (.draw round v))) (hround : round ≤ Config.mrRounds)
    (ha : (mrRequest s.op0).admits a = true) : WorkSound (s.answered round v a hc script) := by
  rw [WorkSound, hw] at hs
  obtain ⟨h5, hodd, hv, hlo, -⟩ := hs
  exact ⟨h5, hodd, hv, hlo, hround, mrRequest_admits_iff.1 ha, expSound_expInit a v.d hc⟩

/-! ### The iterations of a command reach its run -/

/-- What the argument carries along the iterations: busy, with sound working variables and a request in order. -/
structure Iterable (i : Instr) (s : State) : Prop where
  sound : WorkSound s
  busy : s.status.busy = true
  request : DrawsWitnesses i → requestMatches s = true

/-- An iteration is the run, or takes the command nearer to where its run takes it. -/
theorem tick_progress {i : Instr} {s : State} (hs : Iterable i s) :
    tick i s = exec i s ∨
    ∃ t, tick i s = .next t ∧ Iterable i t ∧ exec i t = exec i s ∧ iterationsLeft i t < iterationsLeft i s := by
  obtain ⟨hsound, hbusy, hrequest⟩ := hs
  have hend := tick_end i s
  generalize tick i s = r at hend
  cases hend with
  | ended h hb => exact .inl h.symm
  | @iterated w h =>
    refine .inr ⟨_, rfl, ⟨workSound_iterates h hsound, hbusy, fun hi => ?_⟩,
      exec_iterates h hsound, iterationsLeft_iterates h hsound⟩
    have hnone : s.request = none := request_eq_none (hrequest hi) (not_draw_of_iterates h hi)
    exact requestMatches_of_none hnone
  | @draws hpath round v hw hround =>
    have hmatches := hrequest hpath.draws
    rcases tickDraw_cases hpath.pos hw hround with ⟨hq, h⟩ | ⟨hq, hscript, h⟩ | ⟨a, script, hq, hscript, ⟨ha, h⟩ | ⟨ha, h⟩⟩
    · exact .inr ⟨_, h, ⟨hsound, hbusy, fun _ => requestMatches_of_draw (s := s.requested) hw hround rfl rfl⟩,
        exec_requested hpath hw hround hq, iterationsLeft_requested hpath.draws hw hq⟩
    · obtain ⟨hq, -⟩ := request_eq_mrRequest hmatches hq
      exact .inl (h.trans (exec_waiting hpath hw hround hq hscript).symm)
    · exact .inr ⟨_, h, ⟨workSound_answered hsound hw hround ha, hbusy, fun _ => requestMatches_of_none rfl⟩,
        exec_answered hpath hw hround hq hscript ha, iterationsLeft_answered hpath.draws hw hpath.pos script⟩
    · exact .inl (h.trans (exec_outOfRange hpath hw hround hscript ha).symm)

theorem ticks_one (i : Instr) (s : State) : ticks i 1 s = tick i s := by
  rw [ticks]
  cases tick i s <;> rfl

theorem ticks_succ_of_next {i : Instr} {s t : State} (h : tick i s = .next t) (n : Nat) :
    ticks i (n + 1) s = ticks i n t := by
  rw [ticks, h]

theorem exists_ticks_eq_exec {i : Instr} {s : State} (hs : Iterable i s) : ∃ n, ticks i n s = exec i s := by
  induction hleft : iterationsLeft i s using WellFoundedLT.induction generalizing s with
  | ind left ih =>
    rcases tick_progress hs with h | ⟨t, h, ht, hexec, hlt⟩
    · exact ⟨1, (ticks_one i s).trans h⟩
    · obtain ⟨n, hn⟩ := ih _ (hleft ▸ hlt) ht rfl
      exact ⟨n + 1, by rw [ticks_succ_of_next h, hn, hexec]⟩

/-! ### The obligation -/

/-- An iteration without a refusal ends as the run does, or leaves a busy state with the same run. -/
theorem tick_next_agrees {i : Instr} {s t : State} (hs : WorkSound s) (hb : s.status.busy = true)
    (h : tick i s = .next t) :
    (t.status.busy = false ∧ exec i s = .next t) ∨ (t.status.busy = true ∧ exec i t = exec i s) := by
  have hend := tick_end i s
  rw [h] at hend
  generalize hr : Host.Outcome.next t = r at hend
  cases hend with
  | ended hexec hb' => cases hr; exact .inl ⟨hb', hexec⟩
  | iterated hit => cases hr; exact .inr ⟨hb, exec_iterates hit hs⟩
  | @draws hpath round v hw hround =>
    rcases tickDraw_cases hpath.pos hw hround with ⟨hq, h⟩ | ⟨-, -, h⟩ | ⟨a, script, hq, hscript, ⟨ha, h⟩ | ⟨-, h⟩⟩ <;>
      cases hr.trans h
    · exact .inr ⟨hb, exec_requested hpath hw hround hq⟩
    · exact .inr ⟨hb, rfl⟩
    · exact .inr ⟨hb, exec_answered hpath hw hround hq hscript ha⟩

theorem tick_refused_agrees {i : Instr} {s : State} {e : Refusal} (h : tick i s = .refused e) :
    exec i s = .refused e := by
  have hend := tick_end i s
  rw [h] at hend
  generalize hr : Host.Outcome.refused e = r at hend
  cases hend with
  | ended _ _ => cases hr
  | iterated _ => cases hr
  | @draws hpath round v hw hround =>
    rcases tickDraw_cases hpath.pos hw hround with ⟨-, hd⟩ | ⟨-, -, hd⟩ | ⟨a, script, -, hscript, ⟨-, hd⟩ | ⟨ha, hd⟩⟩ <;>
      cases hr.trans hd
    exact (exec_outOfRange hpath hw hround hscript ha).trans hd.symm

/-- Settles O54: each iteration is the run or leaves a state with the same run, and the measure of what is left ends
their sequence. -/
theorem iterationThenRunIsRun : Obligations.IterationThenRunIsRun := by
  refine fun i s hs hb => ⟨fun t ht => ?_, fun e he => tick_refused_agrees he, fun hcoherent => ?_⟩
  · rcases tick_next_agrees hs hb ht with ⟨hend, h⟩ | ⟨hbusy, h⟩
    · exact ⟨fun _ => h, fun hbusy => absurd (hend.symm.trans hbusy) (by decide)⟩
    · exact ⟨fun hend => absurd (hend.symm.trans hbusy) (by decide), fun _ => h⟩
  · obtain ⟨-, -, -, -, -, hrequest, -⟩ := hcoherent
    exact exists_ticks_eq_exec ⟨hs, hb, fun _ => hrequest⟩

end Sys2Proof.Machine

/-! # A limb write (rule R64) -/

namespace Sys2Proof.Machine

/-- The value after a limb write, put together from the bits above, the word written and the bits below. -/
theorem setLimb_eq (v k : Nat) (w : Word) :
    setLimb v k w = (v / 2 ^ (32 * (k + 1)) * 2 ^ 32 + w.toNat) * 2 ^ (32 * k) + v % 2 ^ (32 * k) := by
  have hdiv : v / 2 ^ (32 * (k + 1)) = v / 2 ^ (32 * k) / 2 ^ 32 := by
    rw [Nat.mul_succ, pow_add, Nat.div_div_eq_div_mul]
  rw [setLimb, limbOf_toNat, hdiv]
  generalize 2 ^ (32 * k) = p
  have hlow := Nat.div_add_mod v p
  have hhigh := Nat.div_add_mod (v / p) (2 ^ 32)
  generalize v / p / 2 ^ 32 = high at *
  generalize v / p % 2 ^ 32 = limb at *
  have hvalue : v = limb * p + (high * 2 ^ 32 * p + v % p) := by
    calc v = p * (v / p) + v % p := hlow.symm
      _ = limb * p + (high * 2 ^ 32 * p + v % p) := by rw [← hhigh]; ring
  calc v - limb * p + w.toNat * p = high * 2 ^ 32 * p + v % p + w.toNat * p := by
        conv_lhs => rw [hvalue, Nat.add_sub_cancel_left]
    _ = (high * 2 ^ 32 + w.toNat) * p + v % p := by ring

theorem setLimb_mod (v k : Nat) (w : Word) : setLimb v k w % 2 ^ (32 * k) = v % 2 ^ (32 * k) := by
  rw [setLimb_eq, Nat.mul_add_mod', Nat.mod_mod]

theorem setLimb_div (v k : Nat) (w : Word) :
    setLimb v k w / 2 ^ (32 * k) = v / 2 ^ (32 * (k + 1)) * 2 ^ 32 + w.toNat := by
  rw [setLimb_eq, mul_comm, Nat.mul_add_div (by positivity), Nat.div_eq_of_lt (Nat.mod_lt _ (by positivity)), add_zero]

theorem setLimb_div_succ (v k : Nat) (w : Word) :
    setLimb v k w / 2 ^ (32 * (k + 1)) = v / 2 ^ (32 * (k + 1)) := by
  rw [Nat.mul_succ, pow_add, ← Nat.div_div_eq_div_mul, setLimb_div, Nat.mul_succ, pow_add, mul_comm _ (2 ^ 32),
    Nat.mul_add_div (by positivity), Nat.div_eq_of_lt w.isLt, add_zero]

/-- A limb of the build keeps a value within the width of the build (R21, R64). -/
theorem setLimb_lt {v k n : Nat} (w : Word) (hv : v < 2 ^ (32 * n)) (hk : k < n) : setLimb v k w < 2 ^ (32 * n) := by
  obtain ⟨m, rfl⟩ : ∃ m, n = k + 1 + m := ⟨n - (k + 1), by omega⟩
  rw [Nat.mul_add, pow_add, mul_comm, ← Nat.div_lt_iff_lt_mul (by positivity)] at hv ⊢
  rwa [setLimb_div_succ]

/-- Settles O13: the value after the write is the bits above, the word and the bits below. -/
theorem limbWriteReplacesOneLimb : Obligations.LimbWriteReplacesOneLimb := by
  refine fun v k w => ⟨setLimb_mod v k w, ?_, setLimb_div_succ v k w⟩
  rw [setLimb_div, Nat.mul_add_mod_of_lt w.isLt]

end Sys2Proof.Machine

/-! # How the run of a command ends (rules R44, R79, R93, R213) -/

namespace Sys2Proof.Machine

open Sys2Proof.Safety

/-! ### Where the rounds hold (R79) -/

theorem mrRounds_hold {c : Nat} {hc : 0 < c} {v : RewriteVars} {left n : Nat} {script : List Nat}
    (h : (mrRounds c hc v left script).ending = .hold n) :
    1 ≤ n ∧ n ≤ left ∧ 1 ≤ (mrRounds c hc v left script).asks ∧ (mrRounds c hc v left script).script = [] := by
  obtain ⟨-, -, hspec⟩ := mrRounds_spec c hc v left script
  obtain ⟨hn, hleft, hscript⟩ := hspec n h
  obtain ⟨k, rfl⟩ : ∃ k, left = k + 1 := ⟨left - 1, by omega⟩
  exact ⟨hn, hleft, mrRounds_asks_pos hc v k script, hscript⟩

theorem mrAfter_hold {c : Nat} {hc : 0 < c} {v : RewriteVars} {round n : Nat} {verdict : RoundVerdict}
    {script : List Nat} (h : (mrAfter c hc v round verdict script).ending = .hold n) :
    verdict = .pass ∧ mrAfter c hc v round verdict script = mrRounds c hc v (Config.mrRounds - round) script := by
  cases verdict with
  | pass => exact ⟨rfl, rfl⟩
  | composite => cases h

/-- Where a run holds, from whatever stage, it has made a request and used up the answers. -/
theorem mrRun_hold {c : Nat} {hc : 0 < c} {m : MrStage} {n : Nat} {script : List Nat}
    (h : (mrRun c hc m script).ending = .hold n) :
    1 ≤ n ∧ 1 ≤ (mrRun c hc m script).asks ∧ (mrRun c hc m script).script = [] ∧
    (MrSound c m → n ≤ Config.mrRounds) := by
  cases m with
  | rewrite v =>
    obtain ⟨hn, hleft, hasks, hscript⟩ := mrRounds_hold h
    exact ⟨hn, hasks, hscript, fun _ => hleft⟩
  | draw round v =>
    obtain ⟨hn, hleft, hasks, hscript⟩ := mrRounds_hold h
    refine ⟨hn, hasks, hscript, fun ⟨_, hround, _⟩ => ?_⟩
    omega
  | power round v a p =>
    obtain ⟨-, hrun⟩ := mrAfter_hold h
    rw [mrRun, hrun] at h ⊢
    obtain ⟨hn, hleft, hasks, hscript⟩ := mrRounds_hold h
    exact ⟨hn, hasks, hscript, fun _ => hleft.trans (Nat.sub_le _ _)⟩
  | square round v a j x =>
    obtain ⟨-, hrun⟩ := mrAfter_hold h
    rw [mrRun, hrun] at h ⊢
    obtain ⟨hn, hleft, hasks, hscript⟩ := mrRounds_hold h
    exact ⟨hn, hasks, hscript, fun _ => hleft.trans (Nat.sub_le _ _)⟩

/-- The state a run leaves when the sampler does not answer, with so many rounds still to begin (R79). -/
def State.holding (s : State) (r : Rounds) (left : Nat) : State :=
  { recordRounds r s with
    work := some (.millerRabin (.draw (Config.mrRounds + 1 - left) (mrVars (mrStage s))))
    request := some (mrRequest s.op0) }

/-- The four endings of the rounds. -/
theorem endRounds_cases (r : Rounds) (s : State) :
    (r.ending = .prime ∧ endRounds r s = .next (complete { tag := .pos } (recordRounds r s))) ∨
    (r.ending = .composite ∧ endRounds r s = .next (complete { tag := .neg } (recordRounds r s))) ∨
    (∃ left, r.ending = .hold left ∧ endRounds r s = .next (s.holding r left)) ∨
    (r.ending = .outOfRange ∧ endRounds r s = .refused .samplerOutOfRange) := by
  unfold endRounds
  cases r.ending with
  | prime => exact .inl ⟨rfl, rfl⟩
  | composite => exact .inr (.inl ⟨rfl, rfl⟩)
  | hold left => exact .inr (.inr (.inl ⟨left, rfl, rfl⟩))
  | outOfRange => exact .inr (.inr (.inr ⟨rfl, rfl⟩))

/-! ### The states a run leads to -/

/-- What each command defines (R93): the other results are 0, and the tag is one of the command's. -/
def ResultsAllowed : Instr → Results → Prop
  | .modexp, r => r.res1 = 0 ∧ r.res2 = 0 ∧ r.rcnt = 0 ∧ r.tag = .pos
  | .trialdiv, r => r.res0 = 0 ∧ r.res1 = 0 ∧ r.res2 = 0 ∧ r.rcnt = 0
  | .rewrite, r => r.res1 = 0 ∧ r.res2 = 0 ∧ r.tag = .pos
  | .mrtest, r | .isprime, r => r.res0 = 0 ∧ r.res1 = 0 ∧ r.res2 = 0 ∧ r.rcnt = 0 ∧ r.tag ≠ .undecided
  | .egcd, r => r.rcnt = 0 ∧ r.tag = .pos
  | .invmod, r => r.res1 = 0 ∧ r.res2 = 0 ∧ r.rcnt = 0 ∧ r.tag ≠ .undecided

theorem resultsAllowed_tag {i : Instr} (hi : DrawsWitnesses i) {tag : Tag} (h : tag ≠ .undecided) :
    ResultsAllowed i { tag := tag } := by
  rcases hi with rfl | rfl <;> exact ⟨rfl, rfl, rfl, rfl, h⟩

theorem resultsAllowed_of_computes {i : Instr} {s : State} {r : Results} (h : Computes i s r) : ResultsAllowed i r := by
  cases h with
  | modexp hm => exact ⟨rfl, rfl, rfl, rfl⟩
  | trialdiv => exact ⟨rfl, rfl, rfl, rfl⟩
  | rewrite h0 => exact ⟨rfl, rfl, rfl⟩
  | accepts hi => exact resultsAllowed_tag hi (by decide)
  | rejects hi h => exact resultsAllowed_tag hi (by decide)
  | egcd => exact ⟨rfl, rfl⟩
  | invmod h1 => cases invVerdict s.op1 (invLoop (invVars s)) <;> exact ⟨rfl, rfl, rfl, by simp [invResults]⟩

/-- The next states of a run: the fault of the operand check, a completion, or the wait for an answer. -/
theorem exec_next_cases {i : Instr} {s t : State} (h : exec i s = .next t) :
    (∃ c, OperandFault i c s ∧ t = raiseFault c s) ∨
    (∃ r, Computes i s r ∧ t = complete r s) ∨
    ∃ hpath : OnGeneralPath i s,
      (∃ tag, tag ≠ .undecided ∧
        t = complete { tag := tag } (recordRounds (mrRun s.op0 hpath.pos (mrStage s) s.env.script) s)) ∨
      ∃ left, (mrRun s.op0 hpath.pos (mrStage s) s.env.script).ending = .hold left ∧
        t = s.holding (mrRun s.op0 hpath.pos (mrStage s) s.env.script) left := by
  have hend := exec_runEnd i s
  rw [h] at hend
  generalize hu : Host.Outcome.next t = u at hend
  cases hend with
  | faulted hc => cases hu; exact .inl ⟨_, hc, rfl⟩
  | completed hr => cases hu; exact .inr (.inl ⟨_, hr, rfl⟩)
  | rounds hpath =>
    rcases endRounds_cases (mrRun s.op0 hpath.pos (mrStage s) s.env.script) s with
      ⟨-, he⟩ | ⟨-, he⟩ | ⟨left, hleft, he⟩ | ⟨-, he⟩ <;> cases hu.trans he
    · exact .inr (.inr ⟨hpath, .inl ⟨.pos, by decide, rfl⟩⟩)
    · exact .inr (.inr ⟨hpath, .inl ⟨.neg, by decide, rfl⟩⟩)
    · exact .inr (.inr ⟨hpath, .inr ⟨left, hleft, rfl⟩⟩)

/-- Where a run ends without a fault, it is a completion with the command's results. -/
theorem exec_completes {i : Instr} {s t : State} (h : exec i s = .next t) (hs : s.status.busy = true)
    (hb : t.status.busy = false) (hf : t.status.fault = false) :
    ∃ r u, t = complete r u ∧ ResultsAllowed i r ∧ u.err = s.err := by
  rcases exec_next_cases h with ⟨c, -, rfl⟩ | ⟨r, hr, rfl⟩ | ⟨hpath, ⟨tag, htag, rfl⟩ | ⟨left, -, rfl⟩⟩
  · cases hf
  · exact ⟨r, s, rfl, resultsAllowed_of_computes hr, rfl⟩
  · exact ⟨_, _, rfl, resultsAllowed_tag hpath.draws htag, rfl⟩
  · exact absurd (hs.symm.trans hb) (by decide)

/-- The value of a signed register is the integer stored (R24). -/
@[simp] theorem ofInt_toInt (v : Int) : (SignMag.ofInt v).toInt = v := by
  simp only [SignMag.toInt, ofInt_sign, ofInt_mag, decide_eq_true_eq]
  split <;> omega

/-! ### The obligations -/

/-- Settles O40: only the two commands with rounds can draw or wait. -/
theorem drawlessCommandFrame : Obligations.DrawlessCommandFrame := by
  intro i s hmrtest hisprime
  have hend := exec_runEnd i s
  generalize exec i s = u at hend
  cases hend with
  | faulted _ => exact ⟨_, rfl, rfl, rfl, rfl, rfl⟩
  | completed _ => exact ⟨_, rfl, rfl, rfl, rfl, rfl⟩
  | rounds hpath => exact (hpath.draws.elim hmrtest hisprime).elim

/-- Settles O41: a completion writes the command's row of the operand table. -/
theorem resultTable : Obligations.ResultTable := by
  intro i s t hs _ hexec hb hf
  obtain ⟨r, u, rfl, hr, herr⟩ := exec_completes hexec hs hb hf
  refine ⟨rfl, rfl, herr, ?_⟩
  cases i <;> simpa [ResultsAllowed] using hr

/-- Settles O42: among the ways a run can end, only the operand check sets `FAULT`. -/
theorem faultedCommandWritesNothing : Obligations.FaultedCommandWritesNothing := by
  intro i s t hs hexec ht
  rcases exec_next_cases hexec with ⟨c, hc, rfl⟩ | ⟨r, -, rfl⟩ | ⟨_, ⟨tag, -, rfl⟩ | ⟨left, -, rfl⟩⟩
  · exact ⟨rfl, hc⟩
  · exact absurd (hs.symm.trans ht) (by decide)
  · exact absurd (hs.symm.trans ht) (by decide)
  · exact absurd (hs.symm.trans ht) (by decide)

/-- Settles O55: the rounds hold only when the answers are used up, and are refused only for an answer out of range. -/
theorem runEndsOrWaitsForSampler : Obligations.RunEndsOrWaitsForSampler := by
  intro i s hs
  have hend := exec_runEnd i s
  generalize exec i s = u at hend
  cases hend with
  | faulted _ => exact .inl ⟨_, rfl, rfl, rfl, rfl⟩
  | completed _ => exact .inl ⟨_, rfl, rfl, rfl, rfl⟩
  | rounds hpath =>
    rcases endRounds_cases (mrRun s.op0 hpath.pos (mrStage s) s.env.script) s with
      ⟨-, he⟩ | ⟨-, he⟩ | ⟨left, hleft, he⟩ | ⟨-, he⟩
    · exact .inl ⟨_, he, rfl, rfl, rfl⟩
    · exact .inl ⟨_, he, rfl, rfl, rfl⟩
    · obtain ⟨-, -, hscript, -⟩ := mrRun_hold hleft
      exact .inr (.inl ⟨_, he, hs, rfl, hscript⟩)
    · exact .inr (.inr he)

end Sys2Proof.Machine

/-! # Coherence, kept by every step (rules R26, R33, R40, R46, R240) -/

namespace Sys2Proof.Machine

open Sys2Proof.Safety

/-! ### The step as one event -/

@[simp] theorem withAgenda_self (s : State) : s.withAgenda s.env.agenda = s := rfl

/-- A step performs the next event, with the rest still to come (R71). -/
theorem step_eq_perform (s : State) : step s = perform (nextEvent s) (s.withAgenda s.env.agenda.tail) := by
  rcases step_cases s with ⟨h, hstep⟩ | ⟨e, rest, h, hstep⟩
  · have hsame : s.withAgenda [] = s := by rw [← h, withAgenda_self]
    rw [hstep, nextEvent, h, List.tail_nil, hsame]
  · rw [hstep, nextEvent, h, List.tail_cons]

/-! ### The part of coherence that does not speak of `rst` -/

/-- The flags, `ERR`, `RV`, the working variables and the outstanding request agree. -/
structure Agreeing (s : State) : Prop where
  flags : FlagsExclusive s.status
  busy : s.status.busy = s.work.isSome
  fault : s.status.fault = decide (s.err ≠ .noFault)
  rv : decide (s.rv = .valid) = decide (s.status.phase = .idle)
  work : workMatches s = true
  request : requestMatches s = true

theorem coherent_iff {s : State} : Coherent s ↔ Agreeing s ∧ (s.env.rstAsserted = true → s = resetBlock s) :=
  ⟨fun ⟨h1, h2, h3, h4, h5, h6, h7⟩ => ⟨⟨h1, h2, h3, h4, h5, h6⟩, h7⟩,
    fun ⟨⟨h1, h2, h3, h4, h5, h6⟩, h7⟩ => ⟨h1, h2, h3, h4, h5, h6, h7⟩⟩

theorem agreeing_resetBlock (s : State) : Agreeing (resetBlock s) := by
  constructor <;> simp [State.reset, Status.phase, workMatches, requestMatches]

theorem coherent_holdInReset {s : State} (h : Agreeing s) : Coherent (holdInReset s) := by
  cases hr : s.env.rstAsserted with
  | true =>
    rw [holdInReset_asserted hr]
    exact coherent_iff.2 ⟨agreeing_resetBlock s, fun _ => rfl⟩
  | false =>
    rw [holdInReset_released hr]
    exact coherent_iff.2 ⟨h, fun hasserted => absurd (hr.symm.trans hasserted) (by decide)⟩

theorem Agreeing.of_busy {s : State} (h : Agreeing s) (hb : s.status.busy = true) :
    s.status.done = false ∧ s.status.fault = false ∧ s.err = .noFault ∧ s.rv = .unspecified := by
  obtain ⟨⟨hbf, -, hbd⟩, -, hfault, hrv, -, -⟩ := h
  have hf : s.status.fault = false := by simpa [hb] using hbf
  refine ⟨by simpa [hb] using hbd, hf, by simpa [hf] using hfault, ?_⟩
  have hphase : s.status.phase = .busy := (phase_busy_iff _).2 hb
  cases hv : s.rv with
  | unspecified => rfl
  | valid => simp [hv, hphase] at hrv

theorem Agreeing.of_idle {s : State} (h : Agreeing s) (hp : s.status.phase = .idle) :
    s.status.fault = false ∧ s.work = none ∧ s.request = none ∧ s.err = .noFault := by
  obtain ⟨hb, hf⟩ := (phase_idle_iff _).1 hp
  have hwork : s.work = none := by simpa [hb] using h.busy
  exact ⟨hf, hwork, request_eq_none h.request (by simp [hwork]), by simpa [hf] using h.fault⟩

theorem Agreeing.of_fault {s : State} (h : Agreeing s) (hf : s.status.fault = true) :
    s.status.busy = false ∧ s.status.done = false ∧ s.status.phase = .faulted ∧ s.work = none ∧ s.request = none := by
  obtain ⟨⟨hbf, hdf, -⟩, hbusy, -, -, -, hrequest⟩ := h
  have hb : s.status.busy = false := by simpa [hf] using hbf
  have hwork : s.work = none := by simpa [hb] using hbusy
  exact ⟨hb, by simpa [hf] using hdf, (phase_faulted_iff _).2 ⟨hb, hf⟩, hwork,
    request_eq_none hrequest (by simp [hwork])⟩

/-! ### The ends of a command -/

theorem agreeing_complete {s : State} (r : Results) (hf : s.status.fault = false) (he : s.err = .noFault) :
    Agreeing (complete r s) := by
  constructor <;> simp [FlagsExclusive, hf, he, Status.phase, workMatches, requestMatches]

theorem agreeing_raiseFault {s : State} {c : Cause} (hc : c ≠ .noFault) (hd : s.status.done = false)
    (hv : s.rv = .unspecified) : Agreeing (raiseFault c s) := by
  constructor <;> simp [hc, hd, hv, Status.phase, workMatches, requestMatches]

theorem workMatches_of_decode {s : State} {i : Instr} {w : Work} (hd : decode s.cmd = .ok i) (hw : s.work = some w)
    (hb : belongsTo w i = true) : workMatches s = true := by
  unfold workMatches
  rw [hw, hd]
  cases w <;> exact hb

theorem belongsTo_of_workMatches {s : State} {i : Instr} {w : Work} (h : workMatches s = true) (hd : decode s.cmd = .ok i)
    (hw : s.work = some w) : belongsTo w i = true := by
  unfold workMatches at h
  rw [hw, hd] at h
  cases w <;> exact h

/-- A busy state keeps agreeing while working variables of its command replace others, with a request in order. -/
theorem Agreeing.underWay {s : State} (h : Agreeing s) (hb : s.status.busy = true) {i : Instr}
    (hd : decode s.cmd = .ok i) {w : Work} {q : Option Request} {env : Env} (hw : belongsTo w i = true)
    (hq : requestMatches { s with work := some w, request := q, env := env } = true) :
    Agreeing { s with work := some w, request := q, env := env } :=
  ⟨h.flags, hb, h.fault, h.rv, workMatches_of_decode hd rfl hw, hq⟩

theorem belongsTo_millerRabin {i : Instr} (hi : DrawsWitnesses i) (m : MrStage) :
    belongsTo (.millerRabin m) i = true := by rcases hi with rfl | rfl <;> rfl

theorem belongsTo_iterates {i : Instr} {s : State} {w : Work} (h : Iterates i s w) : belongsTo w i = true := by
  cases h with
  | stage hpath _ => exact belongsTo_millerRabin hpath.draws _
  | modexp _ _ | trialdiv _ | rewrite _ _ | trial _ _ | egcd _ | invmod _ _ => rfl

theorem OperandFault.ne_noFault {i : Instr} {c : Cause} {s : State} (h : OperandFault i c s) : c ≠ .noFault := by
  rcases h with ⟨-, rfl, -⟩ | ⟨-, rfl, -⟩ | ⟨-, rfl, -⟩ | ⟨-, rfl, -⟩ <;> decide

/-- Where a run holds, the request outstanding is the last one issued, whether this run made it or an earlier one. -/
theorem requestMatches_holding {s : State} {r : Rounds} {left : Nat} (hs : requestMatches s = true) (hleft : 1 ≤ left)
    (hasks : 1 ≤ r.asks) : requestMatches (s.holding r left) = true := by
  refine requestMatches_of_draw (s := s.holding r left) rfl (by omega) rfl ?_
  simp only [State.holding, recordRounds]
  cases hn : r.asks - s.request.isSome.toNat with
  | succ n => rw [List.replicate_succ, List.cons_append, List.head?_cons]
  | zero =>
    have hq : s.request ≠ none := by
      intro hq
      rw [hq] at hn
      simp at hn
      omega
    obtain ⟨-, hasked, -⟩ := request_eq_mrRequest hs hq
    rw [List.replicate_zero, List.nil_append, hasked]

theorem agreeing_exec {i : Instr} {s t : State} (h : Agreeing s) (hb : s.status.busy = true) (hd : decode s.cmd = .ok i)
    (hexec : exec i s = .next t) : Agreeing t := by
  obtain ⟨hdone, hf, he, hv⟩ := h.of_busy hb
  rcases exec_next_cases hexec with ⟨c, hc, rfl⟩ | ⟨r, -, rfl⟩ | ⟨hpath, ⟨tag, -, rfl⟩ | ⟨left, hleft, rfl⟩⟩
  · exact agreeing_raiseFault hc.ne_noFault hdone hv
  · exact agreeing_complete r hf he
  · exact agreeing_complete _ hf he
  · obtain ⟨hn, hasks, -, -⟩ := mrRun_hold hleft
    exact h.underWay hb hd (belongsTo_millerRabin hpath.draws _) (requestMatches_holding h.request hn hasks)

/-- An iteration that is no draw finds no request outstanding, whatever the command. -/
theorem request_eq_none_of_iterates {i : Instr} {s : State} {w : Work} (h : Agreeing s) (hd : decode s.cmd = .ok i)
    (hit : Iterates i s w) : s.request = none := by
  refine request_eq_none h.request fun round v hw => ?_
  have hbelongs := belongsTo_of_workMatches h.work hd hw
  have hi : DrawsWitnesses i := by simpa [belongsTo] using hbelongs
  exact not_draw_of_iterates hit hi round v hw

theorem agreeing_tick {i : Instr} {s t : State} (h : Agreeing s) (hb : s.status.busy = true) (hd : decode s.cmd = .ok i)
    (htick : tick i s = .next t) : Agreeing t := by
  have hend := tick_end i s
  rw [htick] at hend
  generalize hu : Host.Outcome.next t = u at hend
  cases hend with
  | ended hexec _ => cases hu; exact agreeing_exec h hb hd hexec
  | iterated hit =>
    cases hu
    have hnone := request_eq_none_of_iterates h hd hit
    exact h.underWay hb hd (belongsTo_iterates hit) (requestMatches_of_none hnone)
  | @draws hpath round v hw hround =>
    have hbelongs := belongsTo_millerRabin hpath.draws
    rcases tickDraw_cases hpath.pos hw hround with ⟨-, hdraw⟩ | ⟨-, -, hdraw⟩ | ⟨a, script, -, -, ⟨-, hdraw⟩ | ⟨-, hdraw⟩⟩ <;>
      cases hu.trans hdraw
    · exact ⟨h.flags, h.busy, h.fault, h.rv, h.work, requestMatches_of_draw (s := s.requested) hw hround rfl rfl⟩
    · exact h
    · exact h.underWay hb hd (hbelongs _) (requestMatches_of_none rfl)

theorem agreeing_sequencerMove {move : Instr → State → StepResult} {s t : State} (h : Agreeing s)
    (hmove : ∀ {i}, s.status.busy = true → decode s.cmd = .ok i → move i s = .next t → Agreeing t)
    (hnext : sequencerMove move s = .next t) : Agreeing t := by
  rcases sequencerMove_next hnext with ⟨-, rfl⟩ | ⟨hp, -, rfl⟩ | ⟨hp, i, hd, hi⟩
  · exact h
  · obtain ⟨hdone, -, -, hv⟩ := h.of_busy ((phase_busy_iff _).1 hp)
    exact agreeing_raiseFault (by decide) hdone hv
  · exact hmove ((phase_busy_iff _).1 hp) hd hi

/-! ### The host port and the sampler port -/

theorem agreeing_accept {s : State} (h : Agreeing s) (hp : s.status.phase = .idle) (w : Word) :
    Agreeing (accept w s) := by
  obtain ⟨hf, -, hrequest, he⟩ := h.of_idle hp
  constructor <;> simp [FlagsExclusive, hf, he, Status.phase, workMatches, requestMatches, hrequest]

theorem agreeing_setOperandLimb {s : State} (h : Agreeing s) (hp : s.status.phase = .idle) (x : BigReg) (k : Nat)
    (w : Word) : Agreeing (s.setOperandLimb x k w) := by
  obtain ⟨-, -, hrequest, -⟩ := h.of_idle hp
  have hnone : (s.setOperandLimb x k w).request = none := by cases x <;> exact hrequest
  have hmatches := requestMatches_of_none hnone
  cases x <;> exact ⟨h.flags, h.busy, h.fault, h.rv, h.work, hmatches⟩

theorem agreeing_dropWrite {s : State} (h : Agreeing s) : Agreeing (dropWrite s) :=
  ⟨h.flags, h.busy, h.fault, h.rv, h.work, h.request⟩

theorem agreeing_writeStatus {s : State} (h : Agreeing s) (w : Word) : Agreeing (writeStatus w s) := by
  obtain ⟨⟨hbf, hdf, hbd⟩, hbusy, hfault, hrv, hwork, hrequest⟩ := h
  exact ⟨⟨hbf, fun ⟨hd, hf⟩ => hdf ⟨((Bool.and_eq_true _ _).mp hd).1, hf⟩,
    fun ⟨hb, hd⟩ => hbd ⟨hb, ((Bool.and_eq_true _ _).mp hd).1⟩⟩, hbusy, hfault, hrv, hwork, hrequest⟩

theorem agreeing_writeTarget {s : State} (h : Agreeing s) (x : Target) (w : Word) : Agreeing (writeTarget x w s) := by
  rcases writeTarget_cases x w s with he | ⟨-, he⟩ | ⟨-, he⟩ | ⟨-, he⟩ | ⟨y, k, -, he⟩ <;> rw [he]
  · exact h
  · rcases writeCtrl_cases w s with ⟨-, he⟩ | ⟨-, he⟩ <;> rw [he]
    · exact agreeing_resetBlock s
    · exact ⟨h.flags, h.busy, h.fault, h.rv, h.work, h.request⟩
  · exact agreeing_writeStatus h w
  · rcases writeCmd_cases w s with ⟨hp, he⟩ | ⟨-, he⟩ <;> rw [he]
    · exact agreeing_accept h hp w
    · exact agreeing_dropWrite h
  · rcases writeLimb_cases y k w s with ⟨-, he⟩ | ⟨-, hp, he⟩ | ⟨-, -, he⟩ <;> rw [he]
    · exact h
    · exact agreeing_setOperandLimb h hp y k w
    · exact agreeing_dropWrite h

theorem agreeing_hostAccess {a : HostAccess} {s t : State} (h : Agreeing s) (hnext : hostAccess a s = .next t) :
    Agreeing t := by
  cases a with
  | read off =>
    obtain ⟨-, rfl⟩ := hostRead_next hnext
    exact ⟨h.flags, h.busy, h.fault, h.rv, h.work, h.request⟩
  | write off w =>
    obtain ⟨-, rfl⟩ := hostWrite_next hnext
    exact agreeing_writeTarget h _ w

theorem agreeing_samplerAnswer {n a : Nat} {s t : State} (h : Agreeing s) (hnext : samplerAnswer n a s = .next t) :
    Agreeing t := by
  rcases samplerAnswer_next hnext with ⟨-, -, hd⟩ | ⟨-, rfl⟩
  · rcases deliver_next hd with ⟨round, v, hw, -, hc, rfl⟩ | rfl
    · have hwork : workMatches
          { s with work := some (.millerRabin (.power round v a (expInit a v.d s.op0 hc))), request := none } = true := by
        have hold := h.work
        rw [workMatches, hw] at hold
        exact hold
      exact ⟨h.flags, by rw [h.busy, hw]; rfl, h.fault, h.rv, hwork, requestMatches_of_none rfl⟩
    · exact h
  · exact h

theorem agreeing_act {e : Event} {s t : State} (h : Agreeing s) (hnext : act e s = .next t) : Agreeing t := by
  cases e with
  | host a => exact agreeing_hostAccess h hnext
  | rst b => cases hnext; exact agreeing_resetBlock _
  | answer n a => exact agreeing_samplerAnswer h hnext
  | run => exact agreeing_sequencerMove h (fun hb hd => agreeing_exec h hb hd) hnext
  | tick => exact agreeing_sequencerMove h (fun hb hd => agreeing_tick h hb hd) hnext

/-! ### Coherence -/

theorem coherent_perform {e : Event} {s t : State} (h : Coherent s) (hnext : perform e s = .next t) : Coherent t := by
  obtain ⟨u, hu, rfl⟩ := perform_next hnext
  exact coherent_holdInReset (agreeing_act (coherent_iff.1 h).1 hu)

/-- What is still to come has no part in coherence. -/
theorem coherent_withAgenda {s : State} (h : Coherent s) (es : List Event) : Coherent (s.withAgenda es) := by
  obtain ⟨⟨h1, h2, h3, h4, h5, h6⟩, hr⟩ := coherent_iff.1 h
  refine coherent_iff.2 ⟨⟨h1, h2, h3, h4, h5, h6⟩, fun hasserted => ?_⟩
  conv_lhs => rw [hr hasserted]
  rfl

/-- Settles O45: a step is one event, and every act of an event keeps the agreement, which the hold of `rst` restores. -/
theorem stepKeepsCoherence : Obligations.StepKeepsCoherence := by
  intro s t h hstep
  rw [step_eq_perform] at hstep
  exact coherent_perform (coherent_withAgenda h _) hstep

end Sys2Proof.Machine

/-! # Soundness, kept by every step (rules R21 to R25, R112, R136, R173, R174, R179) -/

namespace Sys2Proof.Machine

open Sys2Proof.Safety

/-! ### What a completion writes fits the result registers -/

/-- The results fit registers of this width (R22 to R25). -/
def ResultsFit (width : Nat) (r : Results) : Prop :=
  r.res0 < 2 ^ width ∧ r.res1.natAbs < 2 ^ width ∧ r.res2.natAbs < 2 ^ width ∧ r.rcnt < 2 ^ 32

theorem resultsFit_tag (width : Nat) (tag : Tag) : ResultsFit width { tag := tag } :=
  ⟨Nat.two_pow_pos width, Nat.two_pow_pos width, Nat.two_pow_pos width, Nat.two_pow_pos 32⟩

theorem normalise_le (n : Nat) (c : Int) : normalise n c ≤ max c.natAbs n := by
  simp only [normalise, bigAdd]
  split <;> omega

/-- The largest count of factors 2 in a value of a legal build (R38, R136). -/
theorem exponent_lt_of_fits {limbs v k d : Nat} (hl : limbs ≤ 256) (hv : v < 2 ^ (32 * limbs)) (hd : d ≠ 0)
    (h : v = 2 ^ k * d) : k < 2 ^ 32 := by
  have hk : 2 ^ k < 2 ^ (32 * limbs) := (Nat.le_mul_of_pos_right _ (Nat.pos_of_ne_zero hd)).trans_lt (h ▸ hv)
  have := (Nat.pow_lt_pow_iff_right (by decide)).1 hk
  omega

theorem computes_fit {i : Instr} {s : State} {r : Results} (h : Computes i s r) (hs : Sound s) :
    ResultsFit s.width r := by
  obtain ⟨⟨hlo, hhi⟩, ⟨hop0, hop1, hop2, -⟩, hwork⟩ := hs
  have hzero : 0 < 2 ^ s.width := Nat.two_pow_pos _
  have hone : 1 < 2 ^ s.width := Nat.one_lt_two_pow (by simp only [State.width]; omega)
  cases h with
  | modexp hm =>
    obtain ⟨hlt, -⟩ := expSound_expLoop (hm := hm) (modexpVars_sound hwork hm)
    exact ⟨hlt.trans hop2, hzero, hzero, Nat.two_pow_pos 32⟩
  | trialdiv => exact resultsFit_tag _ _
  | rewrite h0 =>
    obtain ⟨hd, hvalue⟩ := rewriteSound_rewriteLoop (rewriteVars_sound hwork h0)
    have hle : (rewriteLoop (rewriteVars s)).d ≤ s.op0 :=
      (Nat.le_mul_of_pos_left _ (Nat.two_pow_pos _)).trans_eq hvalue.symm
    exact ⟨hle.trans_lt hop0, hzero, hzero, exponent_lt_of_fits hhi hop0 hd hvalue⟩
  | accepts => exact resultsFit_tag _ _
  | rejects => exact resultsFit_tag _ _
  | egcd =>
    have hsound := egcdVars_sound hwork
    obtain ⟨-, -, -, ⟨-, -, hS, -⟩, -, -, hT, -⟩ := egcdSound_egcdLoop hsound
    have hgcd : Nat.gcd s.op0 s.op1 < 2 ^ s.width := by
      rcases Nat.eq_zero_or_pos s.op0 with h | h
      · rwa [h, Nat.gcd_zero_left]
      · exact (Nat.gcd_le_left _ h).trans_lt hop0
    exact ⟨(egcdLoop_oldR hsound).trans_lt hgcd, hS.trans_lt (max_lt hop1 hone), hT.trans_lt (max_lt hop0 hone),
      Nat.two_pow_pos 32⟩
  | invmod h1 =>
    obtain ⟨-, -, -, -, -, hS, -⟩ := invSound_invLoop (invVars_sound hwork)
    unfold invVerdict
    split
    · exact resultsFit_tag _ _
    · have hnormal : normalise s.op1 (invLoop (invVars s)).oldS < 2 ^ s.width :=
        (normalise_le _ _).trans_lt (max_lt (hS.trans_lt (max_lt hop1 hone)) hop1)
      exact ⟨hnormal, hzero, hzero, Nat.two_pow_pos 32⟩

theorem signedFits_ofInt {width : Nat} {v : Int} (h : v.natAbs < 2 ^ width) : SignedFits width (SignMag.ofInt v) := by
  refine ⟨h, fun hmag => ?_⟩
  have hzero : v = 0 := by simpa using hmag
  simp [hzero]

theorem sound_complete {s : State} {r : Results} (hs : Sound s) (hr : ResultsFit s.width r) :
    Sound (complete r s) := by
  obtain ⟨hbuild, ⟨hop0, hop1, hop2, -⟩, -⟩ := hs
  obtain ⟨h0, h1, h2, hcnt⟩ := hr
  exact ⟨hbuild, ⟨hop0, hop1, hop2, h0, signedFits_ofInt h1, signedFits_ofInt h2, hcnt⟩, trivial⟩

theorem sound_raiseFault {s : State} (hs : Sound s) (c : Cause) : Sound (raiseFault c s) := by
  obtain ⟨hbuild, hfits, -⟩ := hs
  exact ⟨hbuild, hfits, trivial⟩

theorem sound_resetBlock {s : State} (h : LegalBuild s) : Sound (resetBlock s) := by
  have hzero : 0 < 2 ^ s.width := Nat.two_pow_pos _
  exact ⟨h, ⟨hzero, hzero, hzero, hzero, ⟨hzero, fun _ => rfl⟩, ⟨hzero, fun _ => rfl⟩, Nat.two_pow_pos 32⟩, trivial⟩

/-! ### The sequencer's moves -/

/-- Where the rounds hold, the next round begins with the candidate's decomposition (R140). -/
theorem mrVars_decomposed {c : Nat} {m : MrStage} (h : MrSound c m) : Decomposed c (mrVars m) := by
  cases m with
  | rewrite v => exact decomposed_rewriteLoop h
  | draw round v => exact h.1
  | power round v a p => exact h.1
  | square round v a j x => exact h.1

theorem sound_exec {i : Instr} {s t : State} (hs : Sound s) (hexec : exec i s = .next t) : Sound t := by
  obtain ⟨hbuild, hfits, hwork⟩ := id hs
  rcases exec_next_cases hexec with ⟨c, -, rfl⟩ | ⟨r, hr, rfl⟩ | ⟨hpath, ⟨tag, -, rfl⟩ | ⟨left, hleft, rfl⟩⟩
  · exact sound_raiseFault hs c
  · exact sound_complete hs (computes_fit hr hs)
  · exact sound_complete (s := recordRounds _ s) ⟨hbuild, hfits, hwork⟩ (resultsFit_tag _ _)
  · have hstage := mrStage_sound hwork hpath.five_le
    obtain ⟨hn, -, -, hle⟩ := mrRun_hold hleft
    have hle := hle hstage
    exact ⟨hbuild, hfits, hpath.five_le, hpath.odd, mrVars_decomposed hstage, by omega, by omega⟩

theorem sound_tick {i : Instr} {s t : State} (hs : Sound s) (htick : tick i s = .next t) : Sound t := by
  obtain ⟨hbuild, hfits, hwork⟩ := id hs
  have hend := tick_end i s
  rw [htick] at hend
  generalize hu : Host.Outcome.next t = u at hend
  cases hend with
  | ended hexec _ => cases hu; exact sound_exec hs hexec
  | iterated hit => cases hu; exact ⟨hbuild, hfits, workSound_iterates hit hwork⟩
  | @draws hpath round v hw hround =>
    rcases tickDraw_cases hpath.pos hw hround with ⟨-, hdraw⟩ | ⟨-, -, hdraw⟩ | ⟨a, script, -, -, ⟨ha, hdraw⟩ | ⟨-, hdraw⟩⟩ <;>
      cases hu.trans hdraw
    · exact ⟨hbuild, hfits, hwork⟩
    · exact hs
    · exact ⟨hbuild, hfits, workSound_answered hwork hw hround ha⟩

theorem sound_sequencerMove {move : Instr → State → StepResult} {s t : State} (hs : Sound s)
    (hmove : ∀ {i}, move i s = .next t → Sound t) (hnext : sequencerMove move s = .next t) : Sound t := by
  rcases sequencerMove_next hnext with ⟨-, rfl⟩ | ⟨-, -, rfl⟩ | ⟨-, i, -, hi⟩
  · exact hs
  · exact sound_raiseFault hs _
  · exact hmove hi

/-! ### The host port and the sampler port -/

/-- An operand changes only in `IDLE`, where there are no working variables to keep sound. -/
theorem sound_setOperandLimb {s : State} (hs : Sound s) (hwork : s.work = none) (x : BigReg) {k : Nat}
    (hk : k < s.limbs) (w : Word) : Sound (s.setOperandLimb x k w) := by
  obtain ⟨hbuild, ⟨hop0, hop1, hop2, hres⟩, hsound⟩ := hs
  have hnone {u : State} (hu : u.work = s.work) : WorkSound u := by rw [WorkSound, hu, hwork]; trivial
  cases x with
  | op0 => exact ⟨hbuild, ⟨setLimb_lt w hop0 hk, hop1, hop2, hres⟩, hnone rfl⟩
  | op1 => exact ⟨hbuild, ⟨hop0, setLimb_lt w hop1 hk, hop2, hres⟩, hnone rfl⟩
  | op2 => exact ⟨hbuild, ⟨hop0, hop1, setLimb_lt w hop2 hk, hres⟩, hnone rfl⟩
  | res0 | res1 | res2 => exact ⟨hbuild, ⟨hop0, hop1, hop2, hres⟩, hsound⟩

/-- An offset names no limb that the build has not (R39). -/
theorem target_limb_lt {limbs : Nat} {off : Offset} {x : BigReg} {k : Nat} (h : target limbs off = .limb x k) :
    k < limbs := by
  rcases target_cases limbs off with ⟨-, h'⟩ | ⟨y, -, hk, h'⟩ | ⟨-, -, h'⟩ <;> rw [h'] at h
  · unfold smallTarget at h
    split at h <;> cases h
  · cases h; exact hk
  · cases h

theorem sound_hostWrite {s : State} (ha : Agreeing s) (hs : Sound s) (off : Offset) (w : Word) :
    Sound (writeTarget (target s.limbs off) w s) := by
  obtain ⟨hbuild, hfits, hsound⟩ := id hs
  rcases writeTarget_cases (target s.limbs off) w s with he | ⟨-, he⟩ | ⟨-, he⟩ | ⟨-, he⟩ | ⟨y, k, hy, he⟩ <;> rw [he]
  · exact hs
  · rcases writeCtrl_cases w s with ⟨-, he⟩ | ⟨-, he⟩ <;> rw [he]
    · exact sound_resetBlock hbuild
    · exact ⟨hbuild, hfits, hsound⟩
  · exact ⟨hbuild, hfits, hsound⟩
  · rcases writeCmd_cases w s with ⟨-, he⟩ | ⟨-, he⟩ <;> rw [he]
    · exact ⟨hbuild, hfits, trivial⟩
    · exact ⟨hbuild, hfits, hsound⟩
  · rcases writeLimb_cases y k w s with ⟨-, he⟩ | ⟨-, hp, he⟩ | ⟨-, -, he⟩ <;> rw [he]
    · exact hs
    · obtain ⟨-, hwork, -, -⟩ := ha.of_idle hp
      exact sound_setOperandLimb hs hwork y (target_limb_lt hy) w
    · exact ⟨hbuild, hfits, hsound⟩

theorem sound_hostAccess {a : HostAccess} {s t : State} (ha : Agreeing s) (hs : Sound s)
    (hnext : hostAccess a s = .next t) : Sound t := by
  cases a with
  | read off =>
    obtain ⟨-, rfl⟩ := hostRead_next hnext
    exact hs
  | write off w =>
    obtain ⟨-, rfl⟩ := hostWrite_next hnext
    exact sound_hostWrite ha hs off w

theorem sound_samplerAnswer {n a : Nat} {s t : State} (hagree : Agreeing s) (hs : Sound s)
    (hnext : samplerAnswer n a s = .next t) : Sound t := by
  obtain ⟨hbuild, hfits, hsound⟩ := id hs
  rcases samplerAnswer_next hnext with ⟨hq, -, hd⟩ | ⟨-, rfl⟩
  · rcases deliver_next hd with ⟨round, v, hw, ha, hc, rfl⟩ | rfl
    · obtain ⟨-, -, round', v', hw', hround⟩ := request_eq_mrRequest hagree.request (Option.isSome_iff_ne_none.1 hq)
      cases hw.symm.trans hw'
      exact ⟨hbuild, hfits, workSound_answered (script := s.env.script) hsound hw hround ha⟩
    · exact hs
  · exact hs

theorem sound_act {e : Event} {s t : State} (ha : Agreeing s) (hs : Sound s) (hnext : act e s = .next t) : Sound t := by
  cases e with
  | host a => exact sound_hostAccess ha hs hnext
  | rst b => cases hnext; exact sound_resetBlock (s := s.withRst b) hs.1
  | answer n a => exact sound_samplerAnswer ha hs hnext
  | run => exact sound_sequencerMove hs (fun h => sound_exec hs h) hnext
  | tick => exact sound_sequencerMove hs (fun h => sound_tick hs h) hnext

/-! ### Soundness -/

theorem sound_holdInReset {s : State} (hs : Sound s) : Sound (holdInReset s) := by
  cases hr : s.env.rstAsserted with
  | true => rw [holdInReset_asserted hr]; exact sound_resetBlock hs.1
  | false => rwa [holdInReset_released hr]

theorem sound_perform {e : Event} {s t : State} (hc : Coherent s) (hs : Sound s) (hnext : perform e s = .next t) :
    Sound t := by
  obtain ⟨u, hu, rfl⟩ := perform_next hnext
  exact sound_holdInReset (sound_act (coherent_iff.1 hc).1 hs hu)

/-- Settles O46: a step is one event, and every act of an event keeps the registers in range and the loop invariants. -/
theorem stepKeepsSoundness : Obligations.StepKeepsSoundness := by
  intro s t hc hs hstep
  rw [step_eq_perform] at hstep
  exact sound_perform (s := s.withAgenda s.env.agenda.tail) (coherent_withAgenda hc _) hs hstep

end Sys2Proof.Machine

/-! # What a step changes (rules R35, R40, R41, R43, R44, R211, R218) -/

namespace Sys2Proof.Machine

open Sys2Proof.Safety

/-! ### The offsets of `CTRL` and `CMD`, and of the operand windows (R29, R65) -/

theorem smallTarget_eq_ctrl {n : Nat} (h : smallTarget n = .ctrl) : n = 0x008 := by
  unfold smallTarget at h
  split at h <;> cases h
  rfl

theorem smallTarget_eq_cmd {n : Nat} (h : smallTarget n = .cmd) : n = 0x010 := by
  unfold smallTarget at h
  split at h <;> cases h
  rfl

/-- From 0x400 up an offset names a limb or nothing. -/
theorem target_eq_smallTarget {limbs : Nat} {off : Offset} {x : Target} (h : target limbs off = x)
    (hlimb : ∀ y k, x ≠ .limb y k) (hreserved : x ≠ .reserved) : smallTarget off.toNat = x := by
  rcases target_cases limbs off with ⟨-, h'⟩ | ⟨y, -, -, h'⟩ | ⟨-, -, h'⟩
  · exact h'.symm.trans h
  · exact absurd (h.symm.trans h') (hlimb _ _)
  · exact absurd (h.symm.trans h') hreserved

theorem off_of_target_ctrl {limbs : Nat} {off : Offset} (h : target limbs off = .ctrl) : off = 0x008 :=
  BitVec.eq_of_toNat_eq (smallTarget_eq_ctrl (target_eq_smallTarget h (by simp) (by simp)))

theorem off_of_target_cmd {limbs : Nat} {off : Offset} (h : target limbs off = .cmd) : off = 0x010 :=
  BitVec.eq_of_toNat_eq (smallTarget_eq_cmd (target_eq_smallTarget h (by simp) (by simp)))

theorem off_of_target_operand {limbs : Nat} {off : Offset} {x : BigReg} {k : Nat} (h : target limbs off = .limb x k)
    (hx : x.isResult = false) : 0x400 ≤ off.toNat ∧ off.toNat < 0x1000 := by
  have hguarded : (target limbs off).guarded = true := by rw [h, Target.guarded, hx]; rfl
  have hwindow := (target_guarded_iff limbs off).1 hguarded
  have hcmd : off.toNat ≠ 0x010 := by
    intro hcmd
    rw [target, if_pos (by omega), hcmd] at h
    cases h
  omega

/-! ### Why the block faults (R211, R215) -/

theorem faultExplained_of_noFault {s : State} (h : s.err = .noFault) : faultExplained s = true := by
  rw [faultExplained, h]

/-- The explanation of a fault is read from `ERR`, `CMD` and the operands alone. -/
theorem faultExplained_congr {s t : State} (herr : t.err = s.err) (hcmd : t.cmd = s.cmd) (h0 : t.op0 = s.op0)
    (h1 : t.op1 = s.op1) (h2 : t.op2 = s.op2) : faultExplained t = faultExplained s := by
  simp only [faultExplained, herr, hcmd, h0, h1, h2]

theorem faultExplained_raiseFault {i : Instr} {c : Cause} {s : State} (hd : decode s.cmd = .ok i)
    (h : OperandFault i c s) : faultExplained (raiseFault c s) = true := by
  rcases h with ⟨rfl, rfl, h⟩ | ⟨rfl, rfl, h⟩ | ⟨rfl | rfl, rfl, h⟩ | ⟨rfl, rfl, h⟩ <;>
    simp [faultExplained, hd, h, Except.toOption]

theorem faultExplained_illegal {s : State} {e : DecodeError} (hd : decode s.cmd = .error e) :
    faultExplained (raiseFault .illegalCmd s) = true := by
  simp [faultExplained, hd, Except.isOk, Except.toBool]

theorem exec_explained {i : Instr} {s t : State} (hd : decode s.cmd = .ok i) (h : exec i s = .next t) :
    t.err = s.err ∨ faultExplained t = true := by
  rcases exec_next_cases h with ⟨c, hc, rfl⟩ | ⟨r, -, rfl⟩ | ⟨_, ⟨tag, -, rfl⟩ | ⟨left, -, rfl⟩⟩
  · exact .inr (faultExplained_raiseFault hd hc)
  · exact .inl rfl
  · exact .inl rfl
  · exact .inl rfl

theorem tick_explained {i : Instr} {s t : State} (hd : decode s.cmd = .ok i) (h : tick i s = .next t) :
    t.err = s.err ∨ faultExplained t = true := by
  have hend := tick_end i s
  rw [h] at hend
  generalize hu : Host.Outcome.next t = u at hend
  cases hend with
  | ended hexec _ => cases hu; exact exec_explained hd hexec
  | iterated _ => cases hu; exact .inl rfl
  | @draws hpath round v hw hround =>
    rcases tickDraw_cases hpath.pos hw hround with ⟨-, hdraw⟩ | ⟨-, -, hdraw⟩ | ⟨a, script, -, -, ⟨-, hdraw⟩ | ⟨-, hdraw⟩⟩ <;>
      cases hu.trans hdraw <;> exact .inl rfl

/-! ### The effect of an event -/

/-- Every effect an event can have on a state while `rst` is released. -/
inductive Effect (s : State) : Event → State → Prop where
  | unchanged (e : Event) : Effect s e s
  | observed (off : Offset) (seen : List (Offset × Word)) (fresh : Nat) :
      Effect s (rd off) { s with env := { s.env with observed := seen, fresh := fresh } }
  | reset (b : Bool) : Effect s (.rst b) (resetBlock (s.withRst b))
  | softReset (w : Word) (hw : w.getLsbD 31 = true) : Effect s (wr 0x008 w) (resetBlock s)
  | enables (off : Offset) (w : Word) (c : Ctrl) : Effect s (wr off w) { s with ctrl := c }
  | flags (off : Offset) (w : Word) : Effect s (wr off w) (writeStatus w s)
  | accepted (w : Word) (hp : s.status.phase = .idle) : Effect s (wr 0x010 w) (accept w s)
  | operand (off : Offset) (w : Word) (hp : s.status.phase = .idle) (hlo : 0x400 ≤ off.toNat) (hhi : off.toNat < 0x1000)
      (x : BigReg) (k : Nat) : Effect s (wr off w) (s.setOperandLimb x k w)
  | dropped (off : Offset) (w : Word) (hp : s.status.phase ≠ .idle) : Effect s (wr off w) (dropWrite s)
  | answered (number a : Nat) (w : Work) (hw : s.work.isSome = true) :
      Effect s (.answer number a) { s with work := some w, request := none }
  | moved (e : Event) (he : e = .run ∨ e = .tick) (hp : s.status.phase = .busy) {t : State} (h : MoveEnd s t)
      (herr : t.err = s.err ∨ faultExplained t = true) : Effect s e t

theorem hostWrite_effect (off : Offset) (w : Word) (s : State) :
    Effect s (wr off w) (writeTarget (target s.limbs off) w s) := by
  rcases writeTarget_cases (target s.limbs off) w s with he | ⟨hx, he⟩ | ⟨-, he⟩ | ⟨hx, he⟩ | ⟨y, k, hx, he⟩ <;> rw [he]
  · exact .unchanged _
  · obtain rfl := off_of_target_ctrl hx
    rcases writeCtrl_cases w s with ⟨hw, he⟩ | ⟨-, he⟩ <;> rw [he]
    · exact .softReset w hw
    · exact .enables _ _ _
  · exact .flags _ _
  · obtain rfl := off_of_target_cmd hx
    rcases writeCmd_cases w s with ⟨hp, he⟩ | ⟨hp, he⟩ <;> rw [he]
    · exact .accepted w hp
    · exact .dropped _ _ hp
  · rcases writeLimb_cases y k w s with ⟨-, he⟩ | ⟨hy, hp, he⟩ | ⟨-, hp, he⟩ <;> rw [he]
    · exact .unchanged _
    · obtain ⟨hlo, hhi⟩ := off_of_target_operand hx hy
      exact .operand off w hp hlo hhi y k
    · exact .dropped _ _ hp

theorem sequencerMove_effect {move : Instr → State → StepResult} {e : Event} {s t : State} (he : e = .run ∨ e = .tick)
    (hmove : ∀ {i}, move i s = .next t → MoveEnd s t)
    (hexplained : ∀ {i}, decode s.cmd = .ok i → move i s = .next t → t.err = s.err ∨ faultExplained t = true)
    (h : sequencerMove move s = .next t) : Effect s e t := by
  rcases sequencerMove_next h with ⟨-, rfl⟩ | ⟨hp, ⟨e, hd⟩, rfl⟩ | ⟨hp, i, hd, hi⟩
  · exact .unchanged e
  · exact .moved _ he hp (.faulted _ (by decide)) (.inr (faultExplained_illegal hd))
  · exact .moved _ he hp (hmove hi) (hexplained hd hi)

theorem act_effect {e : Event} {s t : State} (h : act e s = .next t) : Effect s e t := by
  cases e with
  | host a =>
    cases a with
    | read off =>
      obtain ⟨-, rfl⟩ := hostRead_next h
      exact .observed off _ _
    | write off w =>
      obtain ⟨-, rfl⟩ := hostWrite_next h
      exact hostWrite_effect off w s
  | rst b => cases h; exact .reset b
  | answer number a =>
    rcases samplerAnswer_next h with ⟨-, -, hd⟩ | ⟨-, rfl⟩
    · rcases deliver_next hd with ⟨round, v, hw, -, hc, rfl⟩ | rfl
      · exact .answered number a _ (by rw [hw]; rfl)
      · exact .unchanged _
    · exact .unchanged _
  | run => exact sequencerMove_effect (.inl rfl) exec_moveEnd exec_explained h
  | tick => exact sequencerMove_effect (.inr rfl) tick_moveEnd tick_explained h

/-! ### Steps that reset, and steps that do not -/

theorem resets_of_asserted {s : State} (h : s.env.rstAsserted = true) : resets s = true := by simp [resets, h]

theorem resets_of_rst {s : State} {b : Bool} (h : nextEvent s = .rst b) : resets s = true := by simp [resets, h]

theorem resets_of_softReset {s : State} {w : Word} (h : nextEvent s = wr 0x008 w) (hw : w.getLsbD 31 = true) :
    resets s = true := by simp [resets, h, wr, hw]

theorem resets_cases {s : State} (h : resets s = true) :
    s.env.rstAsserted = true ∨ (∃ b, nextEvent s = .rst b) ∨ ∃ w : Word, nextEvent s = wr 0x008 w ∧ w.getLsbD 31 = true := by
  unfold resets at h
  rcases (Bool.or_eq_true _ _).mp h with h | h
  · exact .inl h
  · split at h
    · rename_i b he
      exact .inr (.inl ⟨b, he⟩)
    · rename_i off w he
      simp only [Bool.and_eq_true, beq_iff_eq] at h
      obtain ⟨rfl, hw⟩ := h
      exact .inr (.inr ⟨w, he, hw⟩)
    all_goals cases h

/-- A step that resets leaves every piece of state at its reset value (R240, R241). -/
theorem step_resets {s t : State} (h : step s = .next t) (hr : resets s = true) : ∃ u, t = resetBlock u := by
  rw [step_eq_perform] at h
  rcases resets_cases hr with hasserted | ⟨b, he⟩ | ⟨w, he, hw⟩
  · exact perform_asserted (s := s.withAgenda s.env.agenda.tail) hasserted h
  · rw [he, perform_rst] at h
    cases h
    exact ⟨_, rfl⟩
  · obtain ⟨u, hu, rfl⟩ := perform_next h
    rw [he, show act (wr 0x008 w) _ = hostWrite 0x008 w _ from rfl, hostWrite_ctrl, writeCtrl, if_pos hw] at hu
    cases hu
    exact ⟨_, holdInReset_resetBlock _⟩

/-- A step resets, or it is the effect of the next event and no more. -/
theorem step_effect {s t : State} (h : step s = .next t) :
    resets s = true ∨ Effect (s.withAgenda s.env.agenda.tail) (nextEvent s) t := by
  rw [step_eq_perform] at h
  cases hr : s.env.rstAsserted with
  | true => exact .inl (resets_of_asserted hr)
  | false =>
    obtain ⟨u, hu, rfl⟩ := perform_next h
    rcases act_next_rst hu with ⟨b, he, -⟩ | hsame
    · exact .inl (resets_of_rst he)
    · rw [holdInReset_released (hsame.trans hr)]
      exact .inr (act_effect hu)

/-! ### The obligations -/

/-- Settles O47: a fault is entered with its explanation; what explains it is frozen until the reset. -/
theorem stepKeepsFaultExplained : Obligations.StepKeepsFaultExplained := by
  intro s t hc hs hstep
  have hagree := (coherent_iff.1 hc).1
  rcases step_effect hstep with hr | he
  · obtain ⟨u, rfl⟩ := step_resets hstep hr
    rfl
  · generalize nextEvent s = e at he
    cases he with
    | unchanged | observed | enables | flags | dropped | answered => exact hs
    | reset | softReset => rfl
    | accepted w hp =>
      obtain ⟨-, -, -, herr⟩ := hagree.of_idle hp
      exact faultExplained_of_noFault herr
    | operand off w hp hlo hhi x k =>
      obtain ⟨-, -, -, herr⟩ := hagree.of_idle hp
      exact faultExplained_of_noFault ((setOperandLimb_err _ x k w).trans herr)
    | moved _ he hp h herr =>
      rcases herr with herr | hexplained
      · obtain ⟨h0, h1, h2, hcmd, -⟩ := h.frame
        exact (faultExplained_congr herr hcmd h0 h1 h2).trans hs
      · exact hexplained

@[simp] theorem setOperandLimb_limbs (s : State) (x : BigReg) (k : Nat) (w : Word) :
    (s.setOperandLimb x k w).limbs = s.limbs := by cases x <;> rfl

theorem Effect.limbs {e : Event} {s t : State} (h : Effect s e t) : t.limbs = s.limbs := by
  cases h with
  | unchanged | observed | reset | softReset | enables | flags | accepted | dropped | answered => rfl
  | operand off w hp hlo hhi x k => exact setOperandLimb_limbs s x k w
  | moved _ he hp h herr =>
    obtain ⟨-, -, -, -, -, -, hlimbs, -⟩ := h.frame
    exact hlimbs

/-- Settles O48: no effect of an event, and no reset, changes the build. -/
theorem stepKeepsBuild : Obligations.StepKeepsBuild := by
  intro s t hstep
  rw [step_eq_perform] at hstep
  obtain ⟨u, hu, rfl⟩ := perform_next hstep
  rw [holdInReset_limbs]
  exact (act_effect hu).limbs

/-- Settles O49: of the effects an event can have, only acceptance, the moves of the sequencer and the resets change the
phase. -/
theorem phaseTransitions : Obligations.PhaseTransitions := by
  intro s t _ hstep hphase
  rcases step_effect hstep with hr | he
  · obtain ⟨u, rfl⟩ := step_resets hstep hr
    exact .inr (.inr ⟨phase_resetBlock u, hr⟩)
  · generalize hn : nextEvent s = e at he
    cases he with
    | unchanged | observed | enables | flags | dropped | answered => exact absurd rfl hphase
    | reset b => exact .inr (.inr ⟨rfl, resets_of_rst hn⟩)
    | softReset w hw => exact .inr (.inr ⟨rfl, resets_of_softReset hn hw⟩)
    | accepted w hp => exact .inl ⟨hp, phase_accept _ _, w, rfl⟩
    | operand off w hp hlo hhi x k => exact absurd (congrArg Status.phase (setOperandLimb_status _ x k w)) hphase
    | moved _ he hp h herr => exact .inr (.inl ⟨hp, he⟩)

/-- Settles O50: a faulted block has no working variables and accepts nothing, so that only `CTRL` and the flags that a
write to `STATUS` clears can change. -/
theorem faultIsSticky : Obligations.FaultIsSticky := by
  intro s t hc hf hstep hr
  obtain ⟨hb, hd, hp, hwork, -⟩ := (coherent_iff.1 hc).1.of_fault hf
  have hne : s.status.phase ≠ .idle := by rw [hp]; decide
  rcases step_effect hstep with hr' | he
  · exact absurd (hr.symm.trans hr') (by decide)
  · generalize hn : nextEvent s = e at he
    cases he with
    | unchanged | observed | enables | dropped => exact ⟨hp, hf, hd, rfl⟩
    | flags off w => exact ⟨hp, hf, (congrArg (· && !w.getLsbD 1) hd).trans (Bool.false_and _), rfl⟩
    | reset b => exact absurd (hr.symm.trans (resets_of_rst hn)) (by decide)
    | softReset w hw => exact absurd (hr.symm.trans (resets_of_softReset hn hw)) (by decide)
    | accepted w hp' => exact absurd hp' hne
    | operand off w hp' hlo hhi x k => exact absurd hp' hne
    | answered number a w hw => exact absurd hwork (Option.isSome_iff_ne_none.1 hw)
    | moved _ he hp' h herr => exact absurd (hp.symm.trans hp') (by decide)

/-- Settles O51: of the effects an event can have, only a limb write in `IDLE` and the resets change an operand. -/
theorem operandsChangeOnlyByHost : Obligations.OperandsChangeOnlyByHost := by
  intro s t hstep hchange
  rcases step_effect hstep with hr | he
  · exact .inr hr
  · generalize hn : nextEvent s = e at he
    cases he with
    | unchanged | observed | enables | flags | accepted | dropped | answered =>
      rcases hchange with h | h | h <;> exact absurd rfl h
    | reset b => exact .inr (resets_of_rst hn)
    | softReset w hw => exact .inr (resets_of_softReset hn hw)
    | operand off w hp hlo hhi x k =>
      refine .inl ⟨hp, off, w, rfl, hlo, hhi, ?_⟩
      cases x <;> rfl
    | moved _ he hp h herr =>
      obtain ⟨h0, h1, h2, -⟩ := h.frame
      rcases hchange with h | h | h
      · exact absurd h0 h
      · exact absurd h1 h
      · exact absurd h2 h

/-- A move of the sequencer that changes a result is a completion (R44). -/
theorem MoveEnd.results {s t : State} (h : MoveEnd s t) :
    (t.status.busy = false ∧ t.status.done = true ∧ t.rv = .valid) ∨
    (t.res0 = s.res0 ∧ t.res1 = s.res1 ∧ t.res2 = s.res2 ∧ t.rcnt = s.rcnt ∧ t.rtag = s.rtag) := by
  cases h with
  | faulted c hc => exact .inr ⟨rfl, rfl, rfl, rfl, rfl⟩
  | completed r script asked => exact .inl ⟨rfl, rfl, rfl⟩
  | underWay w q script asked => exact .inr ⟨rfl, rfl, rfl, rfl, rfl⟩

/-- Settles O52: of the effects an event can have, only a completion and the resets change a result. -/
theorem resultsChangeOnlyByCompletion : Obligations.ResultsChangeOnlyByCompletion := by
  intro s t hstep hchange
  have unchanged (h : t.res0 = s.res0 ∧ t.res1 = s.res1 ∧ t.res2 = s.res2 ∧ t.rcnt = s.rcnt ∧ t.rtag = s.rtag) :
      False := by
    obtain ⟨h0, h1, h2, hcnt, htag⟩ := h
    rcases hchange with h | h | h | h | h <;> exact absurd ‹_› h
  rcases step_effect hstep with hr | he
  · exact .inr hr
  · generalize hn : nextEvent s = e at he
    cases he with
    | unchanged | observed | enables | flags | accepted | dropped | answered =>
      exact (unchanged ⟨rfl, rfl, rfl, rfl, rfl⟩).elim
    | reset b => exact .inr (resets_of_rst hn)
    | softReset w hw => exact .inr (resets_of_softReset hn hw)
    | operand off w hp hlo hhi x k => cases x <;> exact (unchanged ⟨rfl, rfl, rfl, rfl, rfl⟩).elim
    | moved _ he hp h herr =>
      rcases h.results with ⟨hb, hd, hv⟩ | hsame
      · exact .inl ⟨hp, he, hb, hd, hv⟩
      · exact (unchanged hsame).elim

/-- A move of the sequencer that changes `ERR` is the fault entry (R214). -/
theorem MoveEnd.err {s t : State} (h : MoveEnd s t) :
    (t.status.fault = true ∧ t.err ≠ .noFault) ∨ t.err = s.err := by
  cases h with
  | faulted c hc => exact .inl ⟨rfl, hc⟩
  | completed r script asked => exact .inr rfl
  | underWay w q script asked => exact .inr rfl

/-- Settles O53: of the effects an event can have, only the fault entry and the resets change `ERR`. -/
theorem errChangesOnlyByFault : Obligations.ErrChangesOnlyByFault := by
  intro s t hstep hchange
  rcases step_effect hstep with hr | he
  · obtain ⟨u, rfl⟩ := step_resets hstep hr
    exact .inr ⟨hr, rfl⟩
  · generalize hn : nextEvent s = e at he
    cases he with
    | unchanged | observed | enables | flags | accepted | dropped | answered => exact absurd rfl hchange
    | reset b => exact .inr ⟨resets_of_rst hn, rfl⟩
    | softReset w hw => exact .inr ⟨resets_of_softReset hn hw, rfl⟩
    | operand off w hp hlo hhi x k => exact absurd (setOperandLimb_err _ x k w) hchange
    | moved _ he hp h herr =>
      rcases h.err with ⟨hf, hne⟩ | hsame
      · exact .inl ⟨hp, hf, hne⟩
      · exact absurd hsame hchange

end Sys2Proof.Machine

/-! # The order of events, and what the outcome of a command depends on (rules R28, R42, R71) -/

namespace Sys2Proof.Machine

open Sys2Proof.Safety

/-! ### Two states that differ only where the sequencer does not look -/

/-- The state `t` with what a move of the sequencer reads taken from `s`: the operands, the working variables, the
request and the sampler's answers. -/
def State.alikeTo (s t : State) : State :=
  { t with
    op0 := s.op0, op1 := s.op1, op2 := s.op2, work := s.work, request := s.request
    env := { t.env with script := s.env.script } }

/-- The log of requests after these, newest first. -/
def State.moreAsked (s : State) (script : List Nat) (asked : List Request) : State :=
  { s with env := { s.env with script := script, asked := asked ++ s.env.asked } }

/-- The same end of a move in two states. -/
inductive EndsAlike (s t : State) : StepResult → StepResult → Prop where
  | faulted (c : Cause) : EndsAlike s t (.next (raiseFault c s)) (.next (raiseFault c t))
  | completed (r : Results) (script : List Nat) (asked : List Request) :
      EndsAlike s t (.next (complete r (s.moreAsked script asked))) (.next (complete r (t.moreAsked script asked)))
  | underWay (w : Work) (q : Option Request) (script : List Nat) (asked : List Request) :
      EndsAlike s t (.next { s.moreAsked script asked with work := some w, request := q })
        (.next { t.moreAsked script asked with work := some w, request := q })
  | refused (e : Refusal) : EndsAlike s t (.refused e) (.refused e)

section

variable (s t : State)

/-- A completion without a draw. -/
theorem endsAlike_complete (r : Results) :
    EndsAlike s (s.alikeTo t) (.next (complete r s)) (.next (complete r (s.alikeTo t))) :=
  .completed r s.env.script []

/-- An iteration that moves only the working variables. -/
theorem endsAlike_iterated (w : Work) :
    EndsAlike s (s.alikeTo t) (.next { s with work := some w }) (.next { s.alikeTo t with work := some w }) :=
  .underWay w s.request s.env.script []

theorem endRounds_alike (r : Rounds) : EndsAlike s (s.alikeTo t) (endRounds r s) (endRounds r (s.alikeTo t)) := by
  unfold endRounds
  cases r.ending with
  | prime => exact .completed _ _ _
  | composite => exact .completed _ _ _
  | hold left => exact .underWay _ _ _ _
  | outOfRange => exact .refused _

theorem millerRabin_alike : EndsAlike s (s.alikeTo t) (millerRabin s) (millerRabin (s.alikeTo t)) := by
  rcases candidate_cases s.op0 with h | ⟨h2, heven⟩ | h1 | ⟨h5, hodd⟩
  · rw [millerRabin_of_two_or_three h, millerRabin_of_two_or_three (s := s.alikeTo t) h]
    exact endsAlike_complete s t _
  · rw [millerRabin_of_even h2 heven, millerRabin_of_even (s := s.alikeTo t) h2 heven]
    exact endsAlike_complete s t _
  · rw [millerRabin_of_one h1, millerRabin_of_one (s := s.alikeTo t) h1]
    exact .faulted _
  · have hc : 0 < s.op0 := by omega
    rw [millerRabin_of_odd hc h5 hodd, millerRabin_of_odd (s := s.alikeTo t) hc h5 hodd]
    exact endRounds_alike s t _

/-- A run ends alike in two states that agree on what it reads. -/
theorem exec_alike (i : Instr) : EndsAlike s (s.alikeTo t) (exec i s) (exec i (s.alikeTo t)) := by
  cases i with
  | modexp =>
    rw [exec, exec]
    rcases Nat.eq_zero_or_pos s.op2 with h | hm
    · rw [execModexp_of_zero h, execModexp_of_zero (s := s.alikeTo t) h]
      exact .faulted _
    · rw [execModexp_of_pos hm, execModexp_of_pos (s := s.alikeTo t) hm]
      exact endsAlike_complete s t _
  | trialdiv => exact endsAlike_complete s t _
  | rewrite =>
    rw [exec, exec]
    by_cases h : s.op0 = 0
    · rw [execRewrite_of_zero h, execRewrite_of_zero (s := s.alikeTo t) h]
      exact .faulted _
    · rw [execRewrite_of_pos h, execRewrite_of_pos (s := s.alikeTo t) h]
      exact endsAlike_complete s t _
  | mrtest => exact millerRabin_alike s t
  | isprime =>
    rw [exec, exec]
    cases hp : pastTrial s with
    | true =>
      rw [execIsprime_of_pastTrial hp, execIsprime_of_pastTrial (s := s.alikeTo t) hp]
      exact millerRabin_alike s t
    | false =>
      obtain ⟨haccept, hreject, hopen⟩ := execIsprime_of_trial hp
      obtain ⟨haccept', hreject', hopen'⟩ := execIsprime_of_trial (s := s.alikeTo t) hp
      cases hv : trialVerdictAt s.op0 (trialEnd s.op0 (trialIndex s)) with
      | accept => rw [haccept hv, haccept' hv]; exact endsAlike_complete s t _
      | reject => rw [hreject hv, hreject' hv]; exact endsAlike_complete s t _
      | undecided => rw [hopen hv, hopen' hv]; exact millerRabin_alike s t
  | egcd => exact endsAlike_complete s t _
  | invmod =>
    rw [exec, exec]
    by_cases h : s.op1 = 0
    · rw [execInvmod_of_zero h, execInvmod_of_zero (s := s.alikeTo t) h]
      exact .faulted _
    · rw [execInvmod_of_pos h, execInvmod_of_pos (s := s.alikeTo t) h]
      exact endsAlike_complete s t _

/-- The start of a round reads the request, the script and the candidate. -/
theorem tickDraw_alike (round : Nat) (v : RewriteVars) (hc : 0 < s.op0) :
    EndsAlike s (s.alikeTo t) (tickDraw round (s.withStage (.draw round v)))
      (tickDraw round ((s.alikeTo t).withStage (.draw round v))) := by
  by_cases hover : Config.mrRounds < round
  · rw [tickDraw_of_over hover, tickDraw_of_over hover]
    exact endsAlike_complete s t _
  have hround := not_lt.1 hover
  have hwork (u : State) : (u.withStage (.draw round v)).work = some (.millerRabin (.draw round v)) := rfl
  by_cases hq : s.request = none
  · rw [tickDraw_of_no_request (s := s.withStage _) hround hq,
      tickDraw_of_no_request (s := (s.alikeTo t).withStage _) hround hq]
    exact .underWay _ _ s.env.script [mrRequest s.op0]
  cases hscript : s.env.script with
  | nil =>
    rw [tickDraw_of_no_answer (s := s.withStage _) hround hq hscript,
      tickDraw_of_no_answer (s := (s.alikeTo t).withStage _) hround hq hscript]
    exact endsAlike_iterated s t _
  | cons a script =>
    by_cases ha : (mrRequest s.op0).admits a = true
    · rw [tickDraw_of_answer (s := s.withStage _) hround hq hscript (hwork s) ha hc,
        tickDraw_of_answer (s := (s.alikeTo t).withStage _) hround hq hscript (hwork (s.alikeTo t)) ha hc]
      exact .underWay _ _ script []
    · rw [tickDraw_of_outOfRange (s := s.withStage _) hround hq hscript (hwork s) ha,
        tickDraw_of_outOfRange (s := (s.alikeTo t).withStage _) hround hq hscript (hwork (s.alikeTo t)) ha]
      exact .refused _

theorem tickStage_alike (m : MrStage) (hc : 0 < s.op0) (hc' : 0 < (s.alikeTo t).op0) :
    EndsAlike s (s.alikeTo t) (tickStage m s hc) (tickStage m (s.alikeTo t) hc') := by
  have stage (m : MrStage) :
      EndsAlike s (s.alikeTo t) (.next (s.withStage m)) (.next ((s.alikeTo t).withStage m)) := endsAlike_iterated s t _
  cases m with
  | rewrite v =>
    cases h : rewriteNext v with
    | some v' => rw [tickStage_rewrite_of_some _ _ h, tickStage_rewrite_of_some _ _ h]; exact stage _
    | none => rw [tickStage_rewrite_of_none _ _ h, tickStage_rewrite_of_none _ _ h]; exact stage _
  | draw round v => exact tickDraw_alike s t round v hc
  | power round v a p =>
    cases h : expNext s.op0 hc p with
    | some p' =>
      rw [tickStage_power_of_some _ _ _ _ h, tickStage_power_of_some hc' _ _ _ h]
      exact stage _
    | none =>
      by_cases hx : p.result = 1 ∨ p.result = bigSubNat s.op0 1
      · rw [tickStage_power_of_pass _ _ _ _ h hx, tickStage_power_of_pass hc' _ _ _ h hx]
        exact stage _
      · rw [tickStage_power_of_square _ _ _ _ h hx, tickStage_power_of_square hc' _ _ _ h hx]
        exact stage _
  | square round v a j x =>
    by_cases hj : j < v.s - 1
    · by_cases h1 : mulMod x x s.op0 hc = 1
      · rw [tickStage_square_of_one _ _ _ _ _ hj h1, tickStage_square_of_one hc' _ _ _ _ hj h1]
        exact endsAlike_complete s t _
      · by_cases hx : mulMod x x s.op0 hc = bigSubNat s.op0 1
        · rw [tickStage_square_of_pass _ _ _ _ _ hj h1 hx,
            tickStage_square_of_pass hc' _ _ _ _ hj h1 hx]
          exact stage _
        · rw [tickStage_square_of_next _ _ _ _ _ hj h1 hx,
            tickStage_square_of_next hc' _ _ _ _ hj h1 hx]
          exact stage _
    · rw [tickStage_square_of_last _ _ _ _ _ hj, tickStage_square_of_last _ _ _ _ _ hj]
      exact endsAlike_complete s t _

theorem tickMillerRabin_alike : EndsAlike s (s.alikeTo t) (tickMillerRabin s) (tickMillerRabin (s.alikeTo t)) := by
  by_cases h : 5 ≤ s.op0 ∧ s.op0 % 2 = 1
  · have hc : 0 < s.op0 := by omega
    rw [tickMillerRabin_of_odd hc h.1 h.2, tickMillerRabin_of_odd (s := s.alikeTo t) hc h.1 h.2]
    exact tickStage_alike s t _ hc _
  · rw [(tickMillerRabin_special h).1, (tickMillerRabin_special (s := s.alikeTo t) h).1]
    exact millerRabin_alike s t

/-- So does an iteration. -/
theorem tick_alike (i : Instr) : EndsAlike s (s.alikeTo t) (tick i s) (tick i (s.alikeTo t)) := by
  cases i with
  | modexp =>
    rw [tick, tick]
    rcases Nat.eq_zero_or_pos s.op2 with h | hm
    · rw [tickModexp_of_zero h, tickModexp_of_zero (s := s.alikeTo t) h]
      exact .faulted _
    · cases h : expNext s.op2 hm (modexpVars s hm) with
      | some v =>
        rw [tickModexp_of_some h, tickModexp_of_some (s := s.alikeTo t) h]
        exact endsAlike_iterated s t _
      | none =>
        rw [tickModexp_of_none h, tickModexp_of_none (s := s.alikeTo t) h]
        exact endsAlike_complete s t _
  | trialdiv =>
    rw [tick, tick]
    cases h : trialNext s.op0 (trialIndex s) with
    | some k =>
      rw [tickTrialdiv_of_some h, tickTrialdiv_of_some (s := s.alikeTo t) h]
      exact endsAlike_iterated s t _
    | none =>
      rw [tickTrialdiv_of_none h, tickTrialdiv_of_none (s := s.alikeTo t) h]
      exact endsAlike_complete s t _
  | rewrite =>
    rw [tick, tick]
    by_cases h0 : s.op0 = 0
    · rw [tickRewrite_of_zero h0, tickRewrite_of_zero (s := s.alikeTo t) h0]
      exact .faulted _
    · cases h : rewriteNext (rewriteVars s) with
      | some v =>
        rw [tickRewrite_of_some h0 h, tickRewrite_of_some (s := s.alikeTo t) h0 h]
        exact endsAlike_iterated s t _
      | none =>
        rw [tickRewrite_of_none h0 h, tickRewrite_of_none (s := s.alikeTo t) h0 h]
        exact endsAlike_complete s t _
  | mrtest => exact tickMillerRabin_alike s t
  | isprime =>
    rw [tick, tick]
    cases hp : pastTrial s with
    | true =>
      rw [tickIsprime_of_pastTrial hp, tickIsprime_of_pastTrial (s := s.alikeTo t) hp]
      exact tickMillerRabin_alike s t
    | false =>
      cases h : trialNext s.op0 (trialIndex s) with
      | some k =>
        rw [tickIsprime_of_some hp h, tickIsprime_of_some (s := s.alikeTo t) hp h]
        exact endsAlike_iterated s t _
      | none =>
        obtain ⟨haccept, hreject, hopen⟩ := tickIsprime_of_none hp h
        obtain ⟨haccept', hreject', hopen'⟩ := tickIsprime_of_none (s := s.alikeTo t) hp h
        cases hv : trialVerdictAt s.op0 (trialIndex s) with
        | accept => rw [haccept hv, haccept' hv]; exact endsAlike_complete s t _
        | reject => rw [hreject hv, hreject' hv]; exact endsAlike_complete s t _
        | undecided => rw [hopen hv, hopen' hv]; exact tickMillerRabin_alike s t
  | egcd =>
    rw [tick, tick]
    cases h : egcdNext (egcdVars s) with
    | some v =>
      rw [tickEgcd_of_some h, tickEgcd_of_some (s := s.alikeTo t) h]
      exact endsAlike_iterated s t _
    | none =>
      rw [tickEgcd_of_none h, tickEgcd_of_none (s := s.alikeTo t) h]
      exact endsAlike_complete s t _
  | invmod =>
    rw [tick, tick]
    by_cases h1 : s.op1 = 0
    · rw [tickInvmod_of_zero h1, tickInvmod_of_zero (s := s.alikeTo t) h1]
      exact .faulted _
    · cases h : invNext (invVars s) with
      | some v =>
        rw [tickInvmod_of_some h1 h, tickInvmod_of_some (s := s.alikeTo t) h1 h]
        exact endsAlike_iterated s t _
      | none =>
        rw [tickInvmod_of_none h1 h, tickInvmod_of_none (s := s.alikeTo t) h1 h]
        exact endsAlike_complete s t _

end

/-! ### What is still to come does not matter to an event (R71) -/

theorem EndsAlike.withAgenda {s t : State} {es : List Event} {r u : StepResult} (h : EndsAlike s (s.withAgenda es) r u)
    (hr : r = .next t) : u = .next (t.withAgenda es) := by
  cases h <;> cases hr <;> rfl

theorem exec_withAgenda {i : Instr} {s t : State} (h : exec i s = .next t) (es : List Event) :
    exec i (s.withAgenda es) = .next (t.withAgenda es) := (exec_alike s (s.withAgenda es) i).withAgenda h

theorem tick_withAgenda {i : Instr} {s t : State} (h : tick i s = .next t) (es : List Event) :
    tick i (s.withAgenda es) = .next (t.withAgenda es) := (tick_alike s (s.withAgenda es) i).withAgenda h

theorem sequencerMove_of_not_busy {move : Instr → State → StepResult} {s : State} (h : s.status.phase ≠ .busy) :
    sequencerMove move s = .next s := by
  unfold sequencerMove
  cases hp : s.status.phase with
  | idle => rfl
  | busy => exact absurd hp h
  | faulted => rfl

theorem sequencerMove_of_decode {move : Instr → State → StepResult} {s : State} {i : Instr}
    (hp : s.status.phase = .busy) (hd : decode s.cmd = .ok i) : sequencerMove move s = move i s := by
  simp only [sequencerMove, hp, hd]

theorem sequencerMove_withAgenda {move : Instr → State → StepResult} {s t : State} {es : List Event}
    (hmove : ∀ {i}, move i s = .next t → move i (s.withAgenda es) = .next (t.withAgenda es))
    (h : sequencerMove move s = .next t) : sequencerMove move (s.withAgenda es) = .next (t.withAgenda es) := by
  rcases sequencerMove_next h with ⟨hp, rfl⟩ | ⟨hp, ⟨e, hd⟩, rfl⟩ | ⟨hp, i, hd, hi⟩
  · exact sequencerMove_of_not_busy (s := t.withAgenda es) hp
  · exact sequencerMove_illegal (s := s.withAgenda es) move hp hd
  · exact (sequencerMove_of_decode (s := s.withAgenda es) hp hd).trans (hmove hi)

theorem writeCmd_withAgenda (w : Word) (s : State) (es : List Event) :
    writeCmd w (s.withAgenda es) = (writeCmd w s).withAgenda es := by
  rw [writeCmd_eq_ite, writeCmd_eq_ite]
  by_cases hp : s.status.phase = .idle
  · rw [if_pos hp, if_pos (c := (s.withAgenda es).status.phase = .idle) hp]
    rfl
  · rw [if_neg hp, if_neg (c := (s.withAgenda es).status.phase = .idle) hp]
    rfl

theorem writeLimb_withAgenda (x : BigReg) (k : Nat) (w : Word) (s : State) (es : List Event) :
    writeLimb x k w (s.withAgenda es) = (writeLimb x k w s).withAgenda es := by
  cases hx : x.isResult with
  | true => rw [writeLimb_result hx, writeLimb_result hx]
  | false =>
    rw [writeLimb_operand hx, writeLimb_operand hx]
    by_cases hp : s.status.phase = .idle
    · rw [if_pos hp, if_pos (c := (s.withAgenda es).status.phase = .idle) hp]
      cases x <;> rfl
    · rw [if_neg hp, if_neg (c := (s.withAgenda es).status.phase = .idle) hp]
      rfl

theorem writeTarget_withAgenda (x : Target) (w : Word) (s : State) (es : List Event) :
    writeTarget x w (s.withAgenda es) = (writeTarget x w s).withAgenda es := by
  cases x with
  | ctrl =>
    rw [writeTarget, writeTarget, writeCtrl, writeCtrl]
    split_ifs <;> rfl
  | cmd => exact writeCmd_withAgenda w s es
  | limb x k => exact writeLimb_withAgenda x k w s es
  | id | param | status | rtag | err | rcnt | rsign | reserved => rfl

theorem hostAccess_withAgenda {a : HostAccess} {s t : State} (h : hostAccess a s = .next t) (es : List Event) :
    hostAccess a (s.withAgenda es) = .next (t.withAgenda es) := by
  cases a with
  | read off =>
    obtain ⟨ha, rfl⟩ := hostRead_next h
    exact if_pos ha
  | write off w =>
    obtain ⟨ha, rfl⟩ := hostWrite_next h
    exact (if_pos ha).trans (congrArg Host.Outcome.next (writeTarget_withAgenda _ w s es))

theorem deliver_of_admits {s : State} {round : Nat} {v : RewriteVars} {a : Nat}
    (hw : s.work = some (.millerRabin (.draw round v))) (ha : (mrRequest s.op0).admits a = true) (hc : 0 < s.op0) :
    deliver a s = .next (s.answered round v a hc s.env.script) := by
  simp only [deliver, hw, dif_pos ha]
  rfl

theorem deliver_of_outOfRange {s : State} {round : Nat} {v : RewriteVars} {a : Nat}
    (hw : s.work = some (.millerRabin (.draw round v))) (ha : ¬ (mrRequest s.op0).admits a = true) :
    deliver a s = .refused .samplerOutOfRange := by
  simp only [deliver, hw, dif_neg ha]

theorem samplerAnswer_outstanding {s : State} (hq : s.request ≠ none) (a : Nat) :
    samplerAnswer s.env.asked.length a s = deliver a s := by
  obtain ⟨q, hq⟩ := Option.ne_none_iff_exists'.1 hq
  simp only [samplerAnswer, hq, if_true]

/-- An answer to no outstanding request is discarded (R240). -/
theorem samplerAnswer_discarded {s : State} {n : Nat} (h : s.request = none ∨ n ≠ s.env.asked.length) (a : Nat) :
    samplerAnswer n a s = .next s := by
  unfold samplerAnswer
  cases hq : s.request with
  | none => rfl
  | some q => exact if_neg (h.resolve_left (by simp [hq]))

theorem deliver_of_not_draw {s : State} (hw : ∀ round v, s.work ≠ some (.millerRabin (.draw round v))) (a : Nat) :
    deliver a s = .next s := by
  unfold deliver
  split
  · exact absurd ‹_› (hw _ _)
  · rfl

theorem deliver_withAgenda {a : Nat} {s t : State} (h : deliver a s = .next t) (es : List Event) :
    deliver a (s.withAgenda es) = .next (t.withAgenda es) := by
  by_cases hdraw : ∃ round v, s.work = some (.millerRabin (.draw round v))
  · obtain ⟨round, v, hw⟩ := hdraw
    by_cases ha : (mrRequest s.op0).admits a = true
    · rw [deliver_of_admits hw ha (pos_of_admits ha)] at h
      cases h
      exact deliver_of_admits (s := s.withAgenda es) hw ha _
    · rw [deliver_of_outOfRange hw ha] at h
      cases h
  · simp only [not_exists] at hdraw
    rw [deliver_of_not_draw hdraw] at h
    cases h
    exact deliver_of_not_draw (s := s.withAgenda es) hdraw a

theorem samplerAnswer_withAgenda {n a : Nat} {s t : State} (h : samplerAnswer n a s = .next t) (es : List Event) :
    samplerAnswer n a (s.withAgenda es) = .next (t.withAgenda es) := by
  rcases samplerAnswer_next h with ⟨hq, rfl, hd⟩ | ⟨hdiscard, rfl⟩
  · exact (samplerAnswer_outstanding (s := s.withAgenda es) (Option.isSome_iff_ne_none.1 hq) a).trans
      (deliver_withAgenda hd es)
  · exact samplerAnswer_discarded (s := t.withAgenda es) hdiscard a

theorem holdInReset_withAgenda (s : State) (es : List Event) :
    holdInReset (s.withAgenda es) = (holdInReset s).withAgenda es := by
  cases hr : s.env.rstAsserted with
  | true => rw [holdInReset_asserted hr, holdInReset_asserted (s := s.withAgenda es) hr]; rfl
  | false => rw [holdInReset_released hr, holdInReset_released (s := s.withAgenda es) hr]

theorem perform_withAgenda {e : Event} {s t : State} (h : perform e s = .next t) (es : List Event) :
    perform e (s.withAgenda es) = .next (t.withAgenda es) := by
  obtain ⟨u, hu, rfl⟩ := perform_next h
  have hact : act e (s.withAgenda es) = .next (u.withAgenda es) := by
    cases e with
    | host a => exact hostAccess_withAgenda hu es
    | rst b => cases hu; rfl
    | answer n a => exact samplerAnswer_withAgenda hu es
    | run => exact sequencerMove_withAgenda (fun hi => exec_withAgenda hi es) hu
    | tick => exact sequencerMove_withAgenda (fun hi => tick_withAgenda hi es) hu
  rw [perform_of_act hact, holdInReset_withAgenda]

theorem run_succ {s t : State} (h : step s = .next t) (n : Nat) :
    Host.Core.run core (n + 1) s = Host.Core.run core n t := by
  have hcore : core.step s = .next t := h
  simp only [Host.Core.run, hcore]

/-! ### The obligations -/

/-- Settles O5: an event neither reads nor changes what is still to come, so a step may take it off the agenda first. -/
theorem eventsTakeEffectInOrder : Obligations.EventsTakeEffectInOrder := by
  intro s es rest t
  induction es generalizing s with
  | nil =>
    intro hagenda h
    rw [show rest = s.env.agenda from hagenda.symm, withAgenda_self] at h
    exact h
  | cons e es ih =>
    intro hagenda h
    obtain ⟨u, hu, hrest⟩ : ∃ u, perform e (s.withAgenda rest) = .next u ∧ performAll es u = .next t := by
      rw [performAll] at h
      split at h
      · exact ⟨_, ‹_›, h⟩
      · cases h
      · cases h
    have hstep : step s = .next (u.withAgenda (es ++ rest)) := by
      rw [step_eq_perform, nextEvent, hagenda]
      exact perform_withAgenda (s := s.withAgenda rest) hu (es ++ rest)
    have hu' : u.withAgenda rest = u := by
      have hsame := perform_withAgenda hu rest
      rw [show (s.withAgenda rest).withAgenda rest = s.withAgenda rest from rfl, hu] at hsame
      exact (Host.Outcome.next.inj hsame).symm
    have hrun : Host.Core.run core es.length (u.withAgenda (es ++ rest)) = .next t := by
      refine ih _ rfl ?_
      rw [show (u.withAgenda (es ++ rest)).withAgenda rest = u.withAgenda rest from rfl, hu']
      exact hrest
    exact (run_succ hstep es.length).trans hrun

/-- With `rst` released, what a move of the sequencer gives is what the event gives. -/
theorem perform_run {s : State} {i : Instr} (hp : s.status.phase = .busy) (hd : decode s.cmd = .ok i)
    (hr : s.env.rstAsserted = false) : perform .run s = exec i s := by
  have hact : act .run s = exec i s := sequencerMove_of_decode hp hd
  cases h : exec i s with
  | next t => exact perform_released (hact.trans h) ((exec_moveEnd h).rstAsserted.trans hr)
  | fault e => rw [perform, hact, h]
  | refused e => rw [perform, hact, h]

/-- Settles O4: an empty agenda and a move at its head both make the step the sequencer's run. -/
theorem stepRunsDecodedCommand : Obligations.StepRunsDecodedCommand := by
  intro s i hp hd
  refine ⟨fun hr hagenda => ?_, fun hr rest hagenda => ?_, fun hr t h => ?_⟩
  · rw [step, hagenda]
    exact perform_run hp hd hr
  · rw [step, hagenda]
    exact perform_run (s := s.withAgenda rest) hp hd hr
  · rw [step_eq_perform] at h
    obtain ⟨u, rfl⟩ := perform_asserted (s := s.withAgenda s.env.agenda.tail) hr h
    exact (resetBlock_resetBlock u).symm

/-- Settles O43: the second state is one that agrees with the first on all a run reads, so that both runs end alike. -/
theorem outcomeIgnoresFlags : Obligations.OutcomeIgnoresFlags := by
  intro i s t u h0 h1 h2 hwork hrequest hscript hs ht hfault hexec hu
  have hsame : s.alikeTo t = t := by rw [State.alikeTo, h0, h1, h2, hwork, hrequest, hscript]
  have hends := exec_alike s t i
  rw [hsame, hexec] at hends
  generalize hr : Host.Outcome.next u = r at hends
  generalize exec i t = r' at hends
  cases hends with
  | faulted c =>
    cases hr
    exact ⟨_, rfl, rfl, rfl, fun hf => absurd hf (by simp), fun _ _ => rfl, hscript.symm⟩
  | completed results script asked =>
    cases hr
    exact ⟨_, rfl, rfl, hfault.symm, fun _ => ⟨rfl, rfl, rfl, rfl, rfl⟩,
      fun hf hu' => absurd (hf.symm.trans hu') (by decide), rfl⟩
  | underWay w q script asked =>
    cases hr
    exact absurd (hs.symm.trans hu) (by decide)
  | refused e => cases hr

end Sys2Proof.Machine

/-! # The 32-bit registers at the host port, and the named operations (rules R29 to R47, R61 to R69) -/

namespace Sys2Proof.Machine

open Sys2Proof.Safety

/-! ### Reads (R61) -/

theorem readValue_exact {s : State} {off : Offset} (h : s.readsUnspecified off = false) :
    s.readValue off = s.targetValue (target s.limbs off) := by
  rw [State.readValue, h, if_neg Bool.false_ne_true]

theorem readsUnspecified_of_valid {s : State} (hv : s.rv = .valid) (off : Offset) :
    s.readsUnspecified off = false := by
  rw [State.readsUnspecified, hv]
  exact Bool.and_false _

/-- With valid results every offset reads as what it names. -/
theorem readValue_of_valid {s : State} (hv : s.rv = .valid) (off : Offset) :
    s.readValue off = s.targetValue (target s.limbs off) := readValue_exact (readsUnspecified_of_valid hv off)

theorem hostRead_of_aligned {s : State} {off : Offset} (h : aligned off = true) :
    hostRead off s = .next { s with env := { s.env with
      observed := (off, s.readValue off) :: s.env.observed
      fresh := s.env.fresh + (s.readsUnspecified off).toNat } } := if_pos h

/-! ### The registers as numbers (R31 to R37) -/

theorem toNat_append_ofNat {n m : Nat} (x : BitVec n) (v : Nat) :
    (x ++ BitVec.ofNat m v).toNat = x.toNat * 2 ^ m + v % 2 ^ m := by
  rw [BitVec.toNat_append, ← Nat.shiftLeft_add_eq_or_of_lt (BitVec.isLt _), Nat.shiftLeft_eq, BitVec.toNat_ofNat]

theorem paramWord_toNat (limbs : Nat) : (paramWord limbs).toNat = 100 * 2 ^ 24 + 128 * 2 ^ 16 + limbs % 2 ^ 16 := by
  rw [paramWord, toNat_append_ofNat]
  rfl

theorem ctrl_word_toNat (c : Ctrl) : c.word.toNat = c.ieDone.toNat + 2 * c.ieFault.toNat := by
  obtain ⟨d, f⟩ := c
  cases d <;> cases f <;> rfl

theorem status_word_toNat (st : Status) :
    st.word.toNat = st.busy.toNat + 2 * st.done.toNat + 4 * st.fault.toNat + 8 * st.accerr.toNat := by
  obtain ⟨b, d, f, a⟩ := st
  cases b <;> cases d <;> cases f <;> cases a <;> rfl

theorem rsignWord_toNat (r1 r2 : SignMag) : (rsignWord r1 r2).toNat = r1.sign.toNat + 2 * r2.sign.toNat := by
  unfold rsignWord
  cases r1.sign <;> cases r2.sign <;> rfl

/-! ### What the other offsets name (R26, R39) -/

theorem smallTarget_of_ge {n : Nat} (h : 0x024 ≤ n) : smallTarget n = .reserved := by
  unfold smallTarget
  split <;> simp_all

theorem base_upper_bound (x : BigReg) : x.base ≤ 0x1800 := by cases x <;> decide

/-- The offsets that no register and no limb of the build occupies (R39). -/
theorem target_eq_reserved {limbs : Nat} {off : Offset}
    (h : 0x024 ≤ off.toNat ∧ off.toNat < 0x400 ∨ 0x1C00 ≤ off.toNat ∨
      (0x400 ≤ off.toNat ∧ off.toNat < 0x1C00 ∧ limbs ≤ off.toNat % 0x400 / 4)) : target limbs off = .reserved := by
  rcases target_cases limbs off with ⟨hn, h'⟩ | ⟨x, hx, hk, -⟩ | ⟨-, -, h'⟩
  · rw [h', smallTarget_of_ge (by omega)]
  · have hlow := base_lower_bound x
    have hhigh := base_upper_bound x
    omega
  · exact h'

theorem smallTarget_isResult (n : Nat) : (smallTarget n).isResult = true ↔ n = 0x014 ∨ n = 0x01C ∨ n = 0x020 := by
  unfold smallTarget
  split <;> simp_all [Target.isResult]

theorem isResult_iff (x : BigReg) : x.isResult = true ↔ 0x1000 ≤ x.base := by cases x <;> decide

/-- The offsets that read as unspecified while `RV` says so (R26): `RTAG`, `RCNT`, `RSIGN` and the result windows. -/
theorem target_isResult_iff (limbs : Nat) (off : Offset) :
    (target limbs off).isResult = true ↔
      off.toNat = 0x014 ∨ off.toNat = 0x01C ∨ off.toNat = 0x020 ∨
        (0x1000 ≤ off.toNat ∧ off.toNat < 0x1C00 ∧ off.toNat % 0x400 / 4 < limbs) := by
  rcases target_cases limbs off with ⟨hn, h⟩ | ⟨x, hx, hk, h⟩ | ⟨hn, hout, h⟩
  · rw [h, smallTarget_isResult]
    omega
  · have hlow := base_lower_bound x
    have hhigh := base_upper_bound x
    rw [h, Target.isResult, isResult_iff]
    omega
  · rw [h]
    simp only [Target.isResult, Bool.false_eq_true, false_iff]
    omega

/-! ### The obligations -/

/-- Settles O7: each offset names its register, and the register's word is the number its fields make. -/
theorem registerReads : Obligations.RegisterReads := by
  intro s hv
  have read (off : Offset) := readValue_of_valid hv off
  refine ⟨read 0x000, ?_, ?_, ?_, read 0x010, ?_, ?_, fun hcnt => ?_, ?_⟩
  · exact (congrArg BitVec.toNat (read 0x004)).trans (paramWord_toNat s.limbs)
  · exact (congrArg BitVec.toNat (read 0x008)).trans (ctrl_word_toNat s.ctrl)
  · exact (congrArg BitVec.toNat (read 0x00C)).trans (status_word_toNat s.status)
  · rw [read 0x014, show s.targetValue (target s.limbs 0x014) = s.rtag.word from rfl]
    cases s.rtag <;> rfl
  · rw [read 0x018, show s.targetValue (target s.limbs 0x018) = s.err.word from rfl]
    cases s.err <;> rfl
  · exact (congrArg BitVec.toNat (read 0x01C)).trans ((BitVec.toNat_ofNat _ _).trans (Nat.mod_eq_of_lt hcnt))
  · exact (congrArg BitVec.toNat (read 0x020)).trans (rsignWord_toNat s.res1 s.res2)

/-- Settles O9: such an offset names nothing, and what names nothing reads 0 and ignores writes. -/
theorem reservedOffsets : Obligations.ReservedOffsets := by
  intro s off ha hoff
  have htarget : target s.limbs off = .reserved := target_eq_reserved hoff
  refine ⟨?_, fun v => ?_⟩
  · have hexact : s.readsUnspecified off = false := by rw [State.readsUnspecified, htarget]; rfl
    rw [readValue_exact hexact, htarget, State.targetValue]
  · rw [hostWrite, if_pos ha, htarget, writeTarget]

/-- Settles O10: the offsets of results are those the read rule leaves free; the others do not look at `RV`. -/
theorem earlyResultReadsAreFree : Obligations.EarlyResultReadsAreFree := by
  intro s off hv ha
  refine ⟨_, hostRead_of_aligned ha, ?_⟩
  have hunspecified : s.readsUnspecified off = (target s.limbs off).isResult := by
    rw [State.readsUnspecified, hv]
    exact Bool.and_true _
  split
  · rename_i hoff
    rw [(target_isResult_iff s.limbs off).2 hoff] at hunspecified
    exact ⟨by rw [State.readValue, if_pos hunspecified], by rw [hunspecified]; rfl⟩
  · rename_i hoff
    rw [Bool.eq_false_iff.2 (mt (target_isResult_iff s.limbs off).1 hoff)] at hunspecified
    refine ⟨?_, by rw [hunspecified]; rfl⟩
    rw [readValue_exact hunspecified, readValue_of_valid (s := { s with rv := .valid }) rfl]
    cases target s.limbs off with
    | limb x k => cases x <;> rfl
    | id | param | ctrl | status | cmd | rtag | err | rcnt | rsign | reserved => rfl

/-- Settles O11: a read moves on the record of what the host saw and the count of free words. -/
theorem readsChangeNothing : Obligations.ReadsChangeNothing := by
  intro s t off h
  obtain ⟨ha, rfl⟩ := hostRead_next h
  exact ⟨ha, rfl⟩

/-- Settles O16: both directions of the port look at the alignment first. -/
theorem misalignedAccessStops : Obligations.MisalignedAccessStops := by
  intro s off v h
  have ha : ¬ aligned off = true := by simpa [aligned] using h
  exact ⟨if_neg ha, if_neg ha⟩

/-- Settles O18: the two branches of a write to `CMD`. -/
theorem cmdWriteStartsCommand : Obligations.CmdWriteStartsCommand := by
  intro s w
  rw [hostWrite_cmd, writeCmd_eq_ite]
  refine ⟨fun hp => ?_, fun hp => ?_⟩
  · rw [if_pos hp]
    exact ⟨_, rfl, rfl, rfl, rfl, rfl, rfl⟩
  · rw [if_neg hp]
    rfl

/-- Settles O19: the value of a signed result is the integer stored, and its sign bit says whether it is negative. -/
theorem completionWritesResults : Obligations.CompletionWritesResults := fun _ r =>
  ⟨rfl, ofInt_toInt r.res1, ofInt_toInt r.res2, decide_eq_true_iff, decide_eq_true_iff,
    rfl, rfl, rfl, rfl, rfl, rfl, rfl, rfl, rfl, rfl, rfl, rfl, rfl⟩

/-- Settles O20: the fault entry, field by field. -/
theorem faultEntryWritesCause : Obligations.FaultEntryWritesCause := fun s c =>
  ⟨raiseFault_err c s, raiseFault_status c s, phase_raiseFault c s, raiseFault_work c s, raiseFault_request c s, rfl⟩

/-- Settles O2: three rows of the opcode map, and two words that no row has. -/
theorem specWordsDecode : Obligations.SpecWordsDecode :=
  ⟨decode_modexp, decode_mrtest, decode_egcd, by decide, by decide⟩

/-- Settles O44: the machine starts in a state that its own reset gives. -/
theorem resetSatisfiesInvariants : Obligations.ResetSatisfiesInvariants := by
  have hreset : resetBlock State.reset = State.reset := rfl
  refine ⟨coherent_iff.2 ⟨hreset ▸ agreeing_resetBlock State.reset, fun _ => hreset.symm⟩,
    hreset ▸ sound_resetBlock ⟨by decide, by decide⟩, faultExplained_of_noFault rfl⟩

end Sys2Proof.Machine


/-! # Bounds and exact results of the engines (rules R113, R134, R171, R174, R175) -/

namespace Sys2Proof.Machine

open Sys2Proof.Safety

/-! ### The number of iterations of `ModExp` (R113) -/

/-- Each iteration drops the lowest bit of the exponent. -/
theorem loop_expNext_e {m : Nat} {hm : 0 < m} : ∀ (n : Nat) (v : ExpVars), (loop (expNext m hm) n v).e = v.e / 2 ^ n
  | 0, v => by rw [loop, pow_zero, Nat.div_one]
  | n + 1, v => by
    cases h : expNext m hm v with
    | none => rw [loop_of_none h, expNext_eq_none.1 h, Nat.zero_div]
    | some v' =>
      obtain ⟨-, -, he⟩ := expNext_some h
      rw [loop_succ_of_some h, loop_expNext_e n v', he, Nat.div_div_eq_div_mul, pow_succ']

/-! ### The verdict of trial division (R134) -/

theorem trialDiv_eq (c : Nat) :
    trialDiv c = if c ∈ smallPrimes then .accept else if ∃ p ∈ smallPrimes, p ∣ c then .reject else .undecided :=
  trialVerdictAt_trialEnd (trialSound_zero c)

theorem trialDiv_eq_undecided_iff (c : Nat) : trialDiv c = .undecided ↔ ¬ ∃ p ∈ smallPrimes, p ∣ c := by
  rw [trialDiv_eq]
  by_cases hmem : c ∈ smallPrimes
  · rw [if_pos hmem]
    exact iff_of_false (by decide) (not_not.2 ⟨c, hmem, dvd_rfl⟩)
  · rw [if_neg hmem]
    by_cases hdvd : ∃ p ∈ smallPrimes, p ∣ c
    · rw [if_pos hdvd]
      exact iff_of_false (by decide) (not_not.2 hdvd)
    · rw [if_neg hdvd]
      exact iff_of_true rfl hdvd

theorem trialDiv_eq_reject {c : Nat} (hprime : ¬ c.Prime) (hdvd : ∃ p ∈ smallPrimes, p ∣ c) : trialDiv c = .reject := by
  rw [trialDiv_eq, if_neg (mt prime_of_mem_smallPrimes hprime), if_pos hdvd]

/-- The table has every prime up to its last, and the next prime is 547. -/
theorem not_smallPrime_dvd_iff (c : Nat) :
    (¬ ∃ p ∈ smallPrimes, p ∣ c) ↔ c = 1 ∨ (547 ≤ c ∧ ∀ p : Nat, p.Prime → p ∣ c → 541 < p) := by
  constructor
  · intro h
    have hlarge (p : Nat) (hp : p.Prime) (hdvd : p ∣ c) : 547 ≤ p := by
      by_contra hlt
      exact h ⟨p, mem_smallPrimes_iff.2 ⟨hp, not_le.1 hlt⟩, hdvd⟩
    by_cases h1 : c = 1
    · exact .inl h1
    have hpos : 0 < c := Nat.pos_of_ne_zero fun h0 => h ⟨2, by decide, h0 ▸ dvd_zero 2⟩
    have hfactor := hlarge c.minFac (Nat.minFac_prime h1) c.minFac_dvd
    exact .inr ⟨hfactor.trans (Nat.minFac_le hpos), fun p hp hdvd => by have := hlarge p hp hdvd; omega⟩
  · rintro (rfl | ⟨-, hlarge⟩)
    · exact not_smallPrime_dvd_one
    · rintro ⟨p, hp, hdvd⟩
      exact absurd (hlarge p (prime_of_mem_smallPrimes hp) hdvd) (not_lt.2 (le_of_mem_smallPrimes p hp))

/-! ### `ExtGcd` is Mathlib's recurrence (R171, R175) -/

/-- Mathlib's recurrence from where the loop stands: its chain of the second operand comes first. -/
def xgcdFrom (v : EgcdVars) : Nat × Int × Int := Nat.xgcdAux v.r v.t v.s v.oldR v.oldT v.oldS

theorem xgcdFrom_egcdNext {v v' : EgcdVars} (h : egcdNext v = some v') : xgcdFrom v' = xgcdFrom v := by
  obtain ⟨hr, holdR', hr', holdS', hs', holdT', ht'⟩ := egcdNext_some h
  rw [xgcdFrom, xgcdFrom, Nat.xgcdAux_rec hr, holdR', hr', holdS', hs', holdT', ht', Int.natCast_ediv]

theorem xgcdFrom_of_end {v : EgcdVars} (h : v.r = 0) : xgcdFrom v = (v.oldR, v.oldT, v.oldS) := by
  rw [xgcdFrom, h, Nat.xgcd_zero_left]

theorem xgcdFrom_egcdLoop (v : EgcdVars) : xgcdFrom v = ((egcdLoop v).oldR, (egcdLoop v).oldT, (egcdLoop v).oldS) := by
  have hsame : xgcdFrom (egcdLoop v) = xgcdFrom v :=
    loop_invariant (P := fun w => xgcdFrom w = xgcdFrom v) (fun _ _ hw h => (xgcdFrom_egcdNext h).trans hw) v.r rfl
  rw [← hsame, xgcdFrom_of_end (egcdLoop_r v)]

/-- The coefficients the loop ends with are those of Mathlib's extended Euclidean algorithm. -/
theorem egcdLoop_coefficients (a b : Nat) :
    (egcdLoop (egcdInit a b)).oldS = Nat.gcdB b a ∧ (egcdLoop (egcdInit a b)).oldT = Nat.gcdA b a := by
  have hcoefficients := congrArg Prod.snd (xgcdFrom_egcdLoop (egcdInit a b))
  exact ⟨(congrArg Prod.snd hcoefficients).symm, (congrArg Prod.fst hcoefficients).symm⟩

theorem execEgcd_of_accepted {s : State} (h : s.work = some .accepted) :
    exec .egcd s = .next (complete
      { res0 := Nat.gcd s.op0 s.op1, res1 := Nat.gcdB s.op1 s.op0, res2 := Nat.gcdA s.op1 s.op0, tag := .pos } s) := by
  obtain ⟨hS, hT⟩ := egcdLoop_coefficients s.op0 s.op1
  rw [exec, execEgcd, egcdVars, h, egcdResults, egcdLoop_oldR (egcdSound_egcdInit _ _), hS, hT]

/-- When the first division leaves nothing, the coefficients are those of the start's second row. -/
theorem gcdAB_of_mod_eq_zero {a b : Nat} (hb : 0 < b) (h : a % b = 0) : Nat.gcdB b a = 0 ∧ Nat.gcdA b a = 1 := by
  rw [Nat.gcdB, Nat.gcdA, Nat.xgcd, Nat.xgcdAux_rec hb, h, Nat.xgcd_zero_left]
  exact ⟨rfl, rfl⟩

/-! ### The sharp bounds of the coefficients (R174) -/

/-- From its second step on a chain of coefficients does not shrink: a quotient is 0 at most once, at the start. -/
def ChainGrows (oldR r : Nat) (old cur : Int) : Prop :=
  old.natAbs ≤ max cur.natAbs 1 ∧ (r < oldR ∨ cur.natAbs ≤ 1)

theorem chainGrows_step {bound oldR r : Nat} {old cur : Int} (hr : 0 < r) (hs : ChainSound bound oldR r old cur)
    (h : ChainGrows oldR r old cur) : ChainGrows r (oldR % r) cur (old - (oldR / r : Nat) * cur) := by
  obtain ⟨-, hsigns, -⟩ := hs
  obtain ⟨hold, hsmall⟩ := h
  refine ⟨?_, .inl (Nat.mod_lt _ hr)⟩
  rcases hsmall with hlt | hcur
  · have hq : 1 ≤ oldR / r := Nat.div_pos hlt.le hr
    rw [natAbs_sub_mul_of_mul_nonpos _ hsigns]
    exact ((Nat.le_mul_of_pos_left _ hq).trans (Nat.le_add_left _ _)).trans (le_max_left _ _)
  · exact hcur.trans (le_max_right _ _)

/-- Where the remainder is 0 the next coefficient is the quotient of the bound by the gcd, and the last one is not larger. -/
theorem ChainGrows.natAbs_le {bound g : Nat} {old cur : Int} (h : ChainGrows g 0 old cur)
    (hs : ChainSound bound g 0 old cur) (hg : 0 < g) : old.natAbs ≤ max (bound / g) 1 := by
  obtain ⟨hsum, -⟩ := hs
  rw [mul_zero, add_zero] at hsum
  rw [← hsum, Nat.mul_div_cancel _ hg]
  exact h.1

theorem egcdLoop_grows (a b : Nat) :
    ChainGrows (egcdLoop (egcdInit a b)).oldR (egcdLoop (egcdInit a b)).r
      (egcdLoop (egcdInit a b)).oldS (egcdLoop (egcdInit a b)).s ∧
    ChainGrows (egcdLoop (egcdInit a b)).oldR (egcdLoop (egcdInit a b)).r
      (egcdLoop (egcdInit a b)).oldT (egcdLoop (egcdInit a b)).t := by
  have hinvariant := loop_invariant (next := egcdNext)
    (P := fun v => EgcdSound a b v ∧ ChainGrows v.oldR v.r v.oldS v.s ∧ ChainGrows v.oldR v.r v.oldT v.t) ?_
    b (v := egcdInit a b) ⟨egcdSound_egcdInit a b, ?_, ?_⟩
  · exact hinvariant.2
  · rintro v v' ⟨hv, hs, ht⟩ h
    obtain ⟨hr, holdR', hr', holdS', hs', holdT', ht'⟩ := egcdNext_some h
    refine ⟨egcdSound_egcdNext hv h, ?_⟩
    obtain ⟨-, -, -, hchainS, hchainT⟩ := hv
    rw [holdR', hr', holdS', hs', holdT', ht']
    exact ⟨chainGrows_step hr hchainS hs, chainGrows_step hr hchainT ht⟩
  · exact ⟨le_rfl, .inr (Nat.zero_le 1)⟩
  · exact ⟨Nat.zero_le _, .inr le_rfl⟩

/-! ### The obligations -/

/-- Settles O23: after `n` iterations the lowest `n` bits of the exponent are gone. -/
theorem modExpIterations : Obligations.ModExpIterations := by
  intro base exponent modulus n hm
  rw [loop_expNext_e n, Nat.size_le]
  exact Nat.div_eq_zero_iff_lt (Nat.two_pow_pos n)

/-- Settles O26: the verdict is decided by the small primes that divide the candidate. -/
theorem trialDivisionUndecided : Obligations.TrialDivisionUndecided :=
  ⟨fun c => (trialDiv_eq_undecided_iff c).trans (not_smallPrime_dvd_iff c),
    fun _ h2 hlt hprime => trialDiv_eq_reject hprime (exists_smallPrime_dvd_of_not_prime h2 hlt hprime),
    trialDiv_eq_reject Nat.not_prime_zero ⟨2, by decide, dvd_zero 2⟩⟩

/-- Settles O36: the loop is Mathlib's recurrence, whose coefficients satisfy Bézout's equation. -/
theorem egcdDeliversBezout : Obligations.EgcdDeliversBezout := by
  rintro s ⟨hwork, -⟩
  have hexec := execEgcd_of_accepted hwork
  refine ⟨hexec, ?_, fun h1 => ?_, fun h1 h0 => ?_⟩
  · rw [Nat.gcd_comm, Nat.gcd_eq_gcd_ab, add_comm]
  · rw [hexec, h1, Nat.gcd_zero_right, Nat.gcdA_zero_left, Nat.gcdB_zero_left]
  · have hmod : s.op0 % s.op1 = 0 := by
      rcases h0 with h0 | h0
      · rw [h0, Nat.zero_mod]
      · rw [h0, Nat.mod_self]
    obtain ⟨hB, hA⟩ := gcdAB_of_mod_eq_zero h1 hmod
    rw [hexec, hB, hA, Nat.gcd_eq_right (Nat.dvd_of_mod_eq_zero hmod)]

/-- Settles O37: the loose bounds are the chains' own, and the sharp ones hold as the chains grow up to the exit. -/
theorem egcdCoefficientBounds : Obligations.EgcdCoefficientBounds := by
  rintro s t ⟨hwork, -⟩ h
  have hvars : egcdVars s = egcdInit s.op0 s.op1 := by rw [egcdVars, hwork]
  rw [exec, execEgcd, hvars] at h
  cases h
  rw [complete_res1, complete_res2, ofInt_mag, ofInt_mag]
  have hr := egcdLoop_r (egcdInit s.op0 s.op1)
  have hgcd := egcdLoop_oldR (egcdSound_egcdInit s.op0 s.op1)
  obtain ⟨hgrowsS, hgrowsT⟩ := egcdLoop_grows s.op0 s.op1
  obtain ⟨-, -, -, hS, hT⟩ := egcdSound_egcdLoop (egcdSound_egcdInit s.op0 s.op1)
  have ⟨_, _, hlooseS, _⟩ := hS
  have ⟨_, _, hlooseT, _⟩ := hT
  refine ⟨hlooseS.trans (le_max_right _ _), hlooseT.trans (max_le_max_left _ (le_max_right _ _)), fun hg => ⟨?_, ?_⟩⟩
  · rw [hr, hgcd] at hgrowsS hS
    exact hgrowsS.natAbs_le hS hg
  · rw [hr, hgcd] at hgrowsT hT
    exact hgrowsT.natAbs_le hT hg

end Sys2Proof.Machine


/-! # Miller–Rabin against the sampler's answers (rules R78, R79, R139 to R143, U7) -/

namespace Sys2Proof.Machine

open Sys2Proof.Safety

/-! ### The rounds that pass (R140, R142) -/

section

variable {i : Instr} {s : State} {passing rest : List Nat}

theorem onGeneralPath_of_accepted
    (hi : i = .mrtest ∨ (i = .isprime ∧ ¬ ∃ p ∈ smallPrimes, p ∣ s.op0)) (hwork : s.work = some .accepted)
    (h5 : 5 ≤ s.op0) (hodd : s.op0 % 2 = 1) : OnGeneralPath i s := by
  rcases hi with rfl | ⟨rfl, hdvd⟩
  · exact ⟨.inl rfl, rfl, h5, hodd⟩
  · refine ⟨.inr rfl, ?_, h5, hodd⟩
    rw [exec, execIsprime_of_accepted hwork, if_neg fun hmem => hdvd ⟨_, hmem, dvd_rfl⟩, if_neg hdvd]

/-- The rounds of a command just accepted, once the answers that pass are used up. -/
def roundsAfter (hc : 0 < s.op0) (passing rest : List Nat) : Rounds :=
  { mrRounds s.op0 hc (rewriteOf (s.op0 - 1)) (Config.mrRounds - passing.length) rest with
    asks := (mrRounds s.op0 hc (rewriteOf (s.op0 - 1)) (Config.mrRounds - passing.length) rest).asks + passing.length }

theorem exec_of_passing (hpath : OnGeneralPath i s) (hwork : s.work = some .accepted)
    (hscript : s.env.script = passing ++ rest) (hlength : passing.length ≤ Config.mrRounds)
    (hpassing : ∀ b ∈ passing, InRange s.op0 b ∧ Survives s.op0 b) :
    exec i s = endRounds (roundsAfter hpath.pos passing rest) s := by
  have hv : Decomposed s.op0 (rewriteOf (s.op0 - 1)) := rewriteOf_decomposed (by have := hpath.five_le; omega)
  have h2 : 2 < s.op0 := Nat.lt_of_lt_of_le (by decide) hpath.five_le
  have hpass : ∀ b ∈ passing,
      InRange s.op0 b ∧ mrRound s.op0 hpath.pos (rewriteOf (s.op0 - 1)) b = .pass := fun b hb =>
    (hpassing b hb).imp_right (mrRound_eq_pass_iff hpath.pos hv h2 hpath.odd).2
  rw [hpath.run, millerRabin_of_accepted hwork hpath.pos hpath.five_le hpath.odd, hscript, roundsAfter,
    ← mrRounds_append hpath.pos _ rest passing hpass, Nat.add_sub_cancel' hlength]

end

theorem exists_roundsLeft {n : Nat} (h : n < Config.mrRounds) : ∃ left, Config.mrRounds - n = left + 1 :=
  Nat.exists_eq_succ_of_ne_zero (Nat.sub_ne_zero_of_lt h)

theorem mrRounds_of_composite {c a : Nat} (hc : 0 < c) {v : RewriteVars} (left : Nat) (script : List Nat)
    (ha : InRange c a) (hround : mrRound c hc v a = .composite) :
    mrRounds c hc v (left + 1) (a :: script) = ⟨.composite, 1, script⟩ := by
  rw [mrRounds, if_pos (mrRequest_admits_iff.2 ha), hround]

/-! ### A prime is never found composite (R143) -/

theorem mrRound_of_prime {c a : Nat} (hprime : c.Prime) (hc : 0 < c) {v : RewriteVars} (hv : Decomposed c v)
    (h5 : 5 ≤ c) (hodd : c % 2 = 1) (ha : InRange c a) : mrRound c hc v a = .pass :=
  (mrRound_eq_pass_iff hc hv (by omega) hodd).2 (survives_of_prime hprime ha)

theorem mrRounds_of_prime {c : Nat} (hprime : c.Prime) (hc : 0 < c) {v : RewriteVars} (hv : Decomposed c v)
    (h5 : 5 ≤ c) (hodd : c % 2 = 1) : ∀ (left : Nat) (script : List Nat),
    (mrRounds c hc v left script).ending ≠ .composite
  | 0, _ => by simp [mrRounds]
  | left + 1, [] => by simp [mrRounds]
  | left + 1, a :: script => by
    by_cases ha : InRange c a
    · rw [mrRounds_cons hc left script ha (mrRound_of_prime hprime hc hv h5 hodd ha)]
      exact mrRounds_of_prime hprime hc hv h5 hodd left script
    · rw [mrRounds, if_neg (mt mrRequest_admits_iff.1 ha)]
      simp

/-- Where the squarings of a prime stand, `c - 1` is still to come: they began at a power of order a power of 2. -/
theorem mrSquares_of_prime {c a j : Nat} (hprime : c.Prime) (hc : 0 < c) {v : RewriteVars} (hv : Decomposed c v)
    (h5 : 5 ≤ c) (hodd : c % 2 = 1) (ha : InRange c a) (hj : j ≤ v.s - 1) {x : Nat}
    (hx : x = a ^ (2 ^ j * v.d) % c) (h1 : x ≠ 1) (hneg : x ≠ c - 1) : mrSquares c hc (v.s - 1 - j) x = .pass := by
  have : Fact c.Prime := ⟨hprime⟩
  have hs := decomposed_s_pos hv hodd
  have hunit : (a : ZMod c) ≠ 0 := by
    rw [Ne, ZMod.natCast_eq_zero_iff]
    exact Nat.not_dvd_of_pos_of_lt (by omega) (by omega)
  have hcast : (x : ZMod c) = (a : ZMod c) ^ (2 ^ j * v.d) := by rw [hx, ZMod.natCast_mod, Nat.cast_pow]
  have hxc : x < c := hx ▸ Nat.mod_lt _ hc
  have hpred : ((c - 1 : Nat) : ZMod c) = -1 := by rw [Nat.cast_pred hprime.pos, ZMod.natCast_self, zero_sub]
  have hfermat : (x : ZMod c) ^ 2 ^ (v.s - j) = 1 := by
    have hexponent : 2 ^ j * v.d * 2 ^ (v.s - j) = c - 1 := by
      rw [hv.1, mul_right_comm, ← pow_add, Nat.add_sub_cancel' (by omega)]
    rw [hcast, ← pow_mul, hexponent, ZMod.pow_card_sub_one_eq_one hunit]
  rw [mrSquares_eq_pass_iff hc (by omega)]
  rcases eq_one_or_exists_pow_eq_neg_one _ _ hfermat with hone | ⟨k, hk, hk'⟩
  · refine absurd ?_ h1
    rw [← Nat.mod_eq_of_lt hxc]
    exact mod_eq_of_natCast_eq hprime.one_lt (by rw [hone, Nat.cast_one])
  · have hmod : x ^ 2 ^ k % c = c - 1 :=
      mod_eq_of_natCast_eq (by omega) (by rw [hpred, ← hk', Nat.cast_pow])
    cases k with
    | zero =>
      rw [pow_zero, pow_one, Nat.mod_eq_of_lt hxc] at hmod
      exact absurd hmod hneg
    | succ k => exact ⟨k, by omega, hmod⟩

theorem mrAfter_pass_of_prime {c : Nat} (hprime : c.Prime) (hc : 0 < c) {v : RewriteVars} (hv : Decomposed c v)
    (h5 : 5 ≤ c) (hodd : c % 2 = 1) {verdict : RoundVerdict} (hpass : verdict = .pass) (round : Nat)
    (script : List Nat) : (mrAfter c hc v round verdict script).ending ≠ .composite := by
  rw [hpass]
  exact mrRounds_of_prime hprime hc hv h5 hodd _ script

/-- From any sound stage of the test. -/
theorem mrRun_of_prime {c : Nat} (hprime : c.Prime) (hc : 0 < c) (h5 : 5 ≤ c) (hodd : c % 2 = 1) {m : MrStage}
    (hm : MrSound c m) (script : List Nat) : (mrRun c hc m script).ending ≠ .composite := by
  cases m with
  | rewrite v => exact mrRounds_of_prime hprime hc (decomposed_rewriteLoop hm) h5 hodd _ script
  | draw round v =>
    obtain ⟨hv, -⟩ := hm
    exact mrRounds_of_prime hprime hc hv h5 hodd _ script
  | power round v a p =>
    obtain ⟨hv, -, -, ha, hp⟩ := hm
    refine mrAfter_pass_of_prime hprime hc hv h5 hodd ?_ round script
    rw [expLoop_result hp, ← modExp_eq a v.d hc]
    exact mrRound_of_prime hprime hc hv h5 hodd ha
  | square round v a j x =>
    obtain ⟨hv, -, -, ha, hj, hx, h1, hneg⟩ := hm
    exact mrAfter_pass_of_prime hprime hc hv h5 hodd
      (mrSquares_of_prime hprime hc hv h5 hodd ha hj hx h1 hneg) round script

/-- Neither the special cases nor trial division reject a prime. -/
theorem tag_of_computes_prime {i : Instr} {s : State} {r : Results} (hi : DrawsWitnesses i) (hprime : s.op0.Prime)
    (hs : WorkSound s) (h : Computes i s r) : r.tag = .pos := by
  cases h with
  | accepts _ _ => rfl
  | rejects _ h =>
    rcases h with ⟨h2, heven⟩ | hreject
    · exact absurd (hprime.eq_two_or_odd.resolve_left h2) (by omega)
    · rw [trialVerdictAt_trialEnd (trialIndex_sound hs)] at hreject
      split_ifs at hreject with hmem hdvd
      obtain ⟨p, hp, hdvd⟩ := hdvd
      exact absurd (eq_of_smallPrime_dvd_prime hp hprime hdvd ▸ hp) hmem
  | modexp _ | trialdiv _ | rewrite _ | egcd _ | invmod _ => rcases hi with hi | hi <;> cases hi

/-! ### While the request is unanswered (R79, R240) -/

section

variable {i : Instr} {s : State} {round : Nat} {v : RewriteVars}

/-- At the start of a round a move by one iteration is the draw. -/
theorem tick_of_draw (hpath : OnGeneralPath i s) (hw : s.work = some (.millerRabin (.draw round v))) :
    tick i s = tickDraw round s := by
  have htick : tick i s = tickMillerRabin s := by
    rcases hpath.draws with rfl | rfl
    · rfl
    · exact tickIsprime_of_pastTrial (by rw [pastTrial, hw])
  have hsame : s.withStage (.draw round v) = s := by rw [State.withStage, ← hw]
  rw [htick, tickMillerRabin_of_odd hpath.pos hpath.five_le hpath.odd, mrStage_of_work hw, tickStage, hsame]

/-- With `rst` released, an answer is what the sampler port makes of it. -/
theorem perform_answer {n a : Nat} (hr : s.env.rstAsserted = false) :
    perform (.answer n a) s = samplerAnswer n a s := by
  have hact : act (.answer n a) s = samplerAnswer n a s := rfl
  cases h : samplerAnswer n a s with
  | next t => exact perform_released (hact.trans h) ((samplerAnswer_rstAsserted h).trans hr)
  | fault e => rw [perform, hact, h]
  | refused e => rw [perform, hact, h]

/-- Until the answer comes, neither kind of move changes anything. -/
theorem moves_wait (hpath : OnGeneralPath i s) (hw : s.work = some (.millerRabin (.draw round v)))
    (hround : round ≤ Config.mrRounds) (hq : s.request = some (mrRequest s.op0)) (hscript : s.env.script = [])
    (hp : s.status.phase = .busy) (hd : decode s.cmd = .ok i) (hr : s.env.rstAsserted = false) :
    perform .run s = .next s ∧ perform .tick s = .next s := by
  have htick : act .tick s = .next s := by
    rw [act, sequencerMove_of_decode hp hd, tick_of_draw hpath hw,
      tickDraw_of_no_answer hround (hq ▸ Option.some_ne_none _) hscript]
  exact ⟨(perform_run hp hd hr).trans (exec_waiting hpath hw hround hq hscript), perform_released htick hr⟩

/-- The answer to the outstanding request lifts the hold: the command goes on as with that answer at hand. -/
theorem answer_lifts_hold (hpath : OnGeneralPath i s) (hw : s.work = some (.millerRabin (.draw round v)))
    (hround : round ≤ Config.mrRounds) (hq : s.request ≠ none) (hr : s.env.rstAsserted = false) {a : Nat}
    (ha : InRange s.op0 a) :
    ∃ u, perform (.answer s.env.asked.length a) s = .next u ∧ u = { s with work := u.work, request := none } ∧
      u.work ≠ s.work ∧ ∀ more, exec i { u with env := { u.env with script := more } } =
        exec i { s with env := { s.env with script := a :: more } } := by
  have hadmits := mrRequest_admits_iff.2 ha
  refine ⟨s.answered round v a hpath.pos s.env.script, ?_, rfl, ?_, fun more => ?_⟩
  · rw [perform_answer hr, samplerAnswer_outstanding hq, deliver_of_admits hw hadmits hpath.pos]
  · rw [hw]
    simp [State.answered]
  · have hpath' : OnGeneralPath i { s with env := { s.env with script := a :: more } } :=
      onGeneralPath_of_stage hpath.draws hw hpath.five_le hpath.odd
    exact exec_answered hpath' hw hround hq rfl hadmits

end

/-! ### The obligations -/

/-- Settles O29: each of the 128 rounds passes. -/
theorem mrtestProbablyPrime : Obligations.MrtestProbablyPrime :=
  fun _ _ _ hs h5 hodd hscript hlength hanswers => millerRabin_of_survivors hs h5 hodd hscript hlength hanswers

/-- Settles O30: the round that follows the passing ones finds the candidate composite. -/
theorem mrtestComposite : Obligations.MrtestComposite := by
  rintro s passing rest a ⟨hwork, hrequest⟩ h5 hodd hscript hlength hpassing ha hfails
  have hpath : OnGeneralPath .mrtest s := onGeneralPath_of_accepted (.inl rfl) hwork h5 hodd
  have hround : mrRound s.op0 hpath.pos (rewriteOf (s.op0 - 1)) a = .composite := by
    cases h : mrRound s.op0 hpath.pos (rewriteOf (s.op0 - 1)) a with
    | composite => rfl
    | pass =>
      have hv : Decomposed s.op0 (rewriteOf (s.op0 - 1)) := rewriteOf_decomposed (by omega)
      exact absurd ((mrRound_eq_pass_iff hpath.pos hv (by omega) hodd).1 h) hfails
  obtain ⟨left, hleft⟩ : ∃ left, Config.mrRounds - passing.length = left + 1 := exists_roundsLeft hlength
  rw [exec_of_passing hpath hwork hscript hlength.le hpassing, roundsAfter, hleft,
    mrRounds_of_composite hpath.pos left rest ha hround, endRounds, recordRounds_of_no_request hrequest,
    Nat.add_comm passing.length]

/-- Settles O31: the run leaves the start of the next round, where a move has nothing to do until its answer comes. -/
theorem mrtestHoldsForAnswer : Obligations.MrtestHoldsForAnswer := by
  rintro i s passing hi ⟨hwork, hrequest⟩ hbusy hr hcmd h5 hodd hscript hlength hpassing
  have hpath := onGeneralPath_of_accepted hi hwork h5 hodd
  obtain ⟨left, hleft⟩ : ∃ left, Config.mrRounds - passing.length = left + 1 := exists_roundsLeft hlength
  have hrounds : roundsAfter hpath.pos passing [] = ⟨.hold (left + 1), passing.length + 1, []⟩ := by
    rw [roundsAfter, hleft, mrRounds, Nat.add_comm passing.length]
  have hround : Config.mrRounds + 1 - (left + 1) ≤ Config.mrRounds := by omega
  have hpath' : OnGeneralPath i (s.holding ⟨.hold (left + 1), passing.length + 1, []⟩ (left + 1)) :=
    onGeneralPath_of_stage hpath.draws rfl h5 hodd
  obtain ⟨hrun, htick⟩ := moves_wait hpath' rfl hround rfl rfl ((phase_busy_iff _).2 hbusy) (decode_eq_ok_iff.2 hcmd) hr
  refine ⟨s.holding ⟨.hold (left + 1), passing.length + 1, []⟩ (left + 1), ?_, ?_, hrun, htick,
    fun n a hn => ?_, fun a ha => answer_lifts_hold hpath' rfl hround (Option.some_ne_none _) hr ha⟩
  · rw [exec_of_passing hpath hwork (hscript.trans (List.append_nil _).symm) hlength.le hpassing, hrounds]
    rfl
  · rw [State.holding, recordRounds_of_no_request hrequest]
    rfl
  · exact perform_released (samplerAnswer_discarded (.inr hn) a) hr

/-- Settles O32: the request outstanding is the candidate's, and an answer is looked at only then. -/
theorem outOfRangeAnswerRefused : Obligations.OutOfRangeAnswerRefused := by
  refine ⟨?_, fun s q a hs hq ha => ?_, fun s n a hr h => ?_⟩
  · rintro i s passing rest a hi ⟨hwork, -⟩ h5 hodd hscript hlength hpassing ha
    have hpath := onGeneralPath_of_accepted hi hwork h5 hodd
    obtain ⟨left, hleft⟩ : ∃ left, Config.mrRounds - passing.length = left + 1 := exists_roundsLeft hlength
    rw [exec_of_passing hpath hwork hscript hlength.le hpassing, roundsAfter, hleft, mrRounds,
      if_neg (mt mrRequest_admits_iff.1 ha), endRounds]
  · obtain ⟨-, -, -, -, -, hmatches, hreset⟩ := hs
    have hsome : s.request ≠ none := by simp [hq]
    have hr : s.env.rstAsserted = false := by
      by_contra hr
      exact hsome (by rw [hreset (by simpa using hr)]; rfl)
    obtain ⟨hrequest, -, round, v, hw, -⟩ := request_eq_mrRequest hmatches hsome
    rw [hq] at hrequest
    cases hrequest
    rw [perform_answer hr, samplerAnswer_outstanding hsome, deliver_of_outOfRange hw (mt mrRequest_admits_iff.1 ha)]
  · rw [perform_answer hr, samplerAnswer_discarded h]

/-- Settles O33: neither the operand check, nor trial division, nor a round from a sound stage rejects a prime. -/
theorem primesAreNeverRejected : Obligations.PrimesAreNeverRejected := by
  intro i s t hi hprime hs h
  have hend := exec_runEnd i s
  rw [h] at hend
  generalize hr : Host.Outcome.next t = r at hend
  cases hend with
  | faulted hfault =>
    rcases hfault with ⟨rfl, -⟩ | ⟨rfl, -⟩ | ⟨-, -, h1⟩ | ⟨rfl, -⟩
    · simp at hi
    · simp at hi
    · exact absurd h1 hprime.ne_one
    · simp at hi
  | completed hcomputes =>
    cases hr
    exact ⟨rfl, fun _ _ => tag_of_computes_prime hi hprime hs hcomputes⟩
  | rounds hpath =>
    rcases endRounds_cases (mrRun s.op0 hpath.pos (mrStage s) s.env.script) s with
      ⟨-, he⟩ | ⟨hcomposite, -⟩ | ⟨left, -, he⟩ | ⟨-, he⟩
    · cases hr.trans he
      exact ⟨rfl, fun _ _ => rfl⟩
    · exact absurd hcomposite
        (mrRun_of_prime hprime hpath.pos hpath.five_le hpath.odd (mrStage_sound hs hpath.five_le) _)
    · cases hr.trans he
      exact ⟨rfl, fun hbusy hidle => absurd (hbusy.symm.trans hidle) (by decide)⟩
    · cases hr.trans he

end Sys2Proof.Machine


/-! # `LOAD` and the transactions of the protocol (rules R95, R218, R244) -/

namespace Sys2Proof.Machine

open Sys2Proof.Safety

/-! ### `LOAD` (R64, R95) -/

/-- The state with another value in an operand register. -/
def State.withOperand (s : State) (x : BigReg) (v : Nat) : State :=
  match x with
  | .op0 => { s with op0 := v }
  | .op1 => { s with op1 := v }
  | .op2 => { s with op2 := v }
  | .res0 | .res1 | .res2 => s

section

variable (s : State) (x : BigReg)

@[simp] theorem withOperand_limbs (v : Nat) : (s.withOperand x v).limbs = s.limbs := by cases x <;> rfl

@[simp] theorem withOperand_status (v : Nat) : (s.withOperand x v).status = s.status := by cases x <;> rfl

@[simp] theorem withOperand_env (v : Nat) : (s.withOperand x v).env = s.env := by cases x <;> rfl

theorem withOperand_big : s.withOperand x (s.big x) = s := by cases x <;> rfl

theorem setOperandLimb_withOperand {x : BigReg} (hx : x.isResult = false) (v k : Nat) (w : Word) :
    (s.withOperand x v).setOperandLimb x k w = s.withOperand x (setLimb v k w) := by
  cases x with
  | op0 | op1 | op2 => rfl
  | res0 | res1 | res2 => cases hx

end

/-- What a register of value `old` holds when the lowest `n` limbs of `v` have been written. -/
def loaded (old v n : Nat) : Nat := old / 2 ^ (32 * n) * 2 ^ (32 * n) + v % 2 ^ (32 * n)

theorem loaded_zero (old v : Nat) : loaded old v 0 = old := by simp [loaded, Nat.mod_one]

theorem setLimb_loaded (old v n : Nat) : setLimb (loaded old v n) n (limbOf v n) = loaded old v (n + 1) := by
  have hpos : 0 < 2 ^ (32 * n) := Nat.two_pow_pos _
  have hdiv : loaded old v n / 2 ^ (32 * n) = old / 2 ^ (32 * n) := by
    rw [loaded, Nat.mul_comm, Nat.mul_add_div hpos, Nat.div_eq_of_lt (Nat.mod_lt _ hpos), Nat.add_zero]
  have hhigh : loaded old v n / 2 ^ (32 * (n + 1)) = old / 2 ^ (32 * (n + 1)) := by
    rw [Nat.mul_succ, pow_add, ← Nat.div_div_eq_div_mul, hdiv, Nat.div_div_eq_div_mul]
  have hlow : loaded old v n % 2 ^ (32 * n) = v % 2 ^ (32 * n) := by rw [loaded, Nat.mul_add_mod', Nat.mod_mod]
  rw [setLimb_eq, hhigh, hlow, limbOf_toNat, loaded, Nat.mul_succ, pow_add, Nat.mod_mul]
  ring

theorem loaded_all {old v n : Nat} (hold : old < 2 ^ (32 * n)) (hv : v < 2 ^ (32 * n)) : loaded old v n = v := by
  rw [loaded, Nat.div_eq_of_lt hold, Nat.mod_eq_of_lt hv, Nat.zero_mul, Nat.zero_add]

section

variable {s : State} {x : BigReg}

/-- A write of an operand limb in `IDLE` (R62, R64). -/
theorem perform_wr_limb {k : Nat} (hx : x.isResult = false) (hk : k < s.limbs) (hl : s.limbs ≤ 256)
    (hp : s.status.phase = .idle) (hr : s.env.rstAsserted = false) (w : Word) :
    perform (wr (x.offset k) w) s = .next (s.setOperandLimb x k w) := by
  have hact : act (wr (x.offset k) w) s = .next (s.setOperandLimb x k w) := by
    calc act (wr (x.offset k) w) s
        = .next (writeTarget (target s.limbs (x.offset k)) w s) := if_pos (aligned_offset (by omega))
      _ = .next (s.setOperandLimb x k w) := by
        rw [target_offset x hk hl, writeTarget, writeLimb_operand hx, if_pos hp]
  refine perform_released hact ?_
  cases x <;> exact hr

theorem performAll_limbs (hx : x.isResult = false) (hl : s.limbs ≤ 256) (hp : s.status.phase = .idle)
    (hr : s.env.rstAsserted = false) (v : Nat) : ∀ {n : Nat}, n ≤ s.limbs →
    performAll ((List.range n).map fun k => wr (x.offset k) (limbOf v k)) s =
      .next (s.withOperand x (loaded (s.big x) v n))
  | 0, _ => by rw [loaded_zero, withOperand_big]; rfl
  | n + 1, hn => by
    have hwrite := perform_wr_limb (s := s.withOperand x (loaded (s.big x) v n)) (k := n) hx (by simpa using hn)
      (by simpa using hl) (by simpa using hp) (by simpa using hr) (limbOf v n)
    rw [setOperandLimb_withOperand s hx, setLimb_loaded] at hwrite
    rw [List.range_succ, List.map_append, performAll_append (performAll_limbs hx hl hp hr v (Nat.le_of_succ_le hn)),
      List.map_singleton, performAll_cons hwrite, performAll_nil]

theorem big_operand_lt (hs : Fits s) (hx : x.isResult = false) : s.big x < 2 ^ s.width := by
  obtain ⟨h0, h1, h2, -⟩ := hs
  cases x with
  | op0 => exact h0
  | op1 => exact h1
  | op2 => exact h2
  | res0 | res1 | res2 => cases hx

theorem performAll_load (hx : x.isResult = false) (hbuild : LegalBuild s) (hs : Fits s) (hp : s.status.phase = .idle)
    (hr : s.env.rstAsserted = false) {v : Nat} (hv : v < 2 ^ s.width) :
    performAll (load s.limbs x v) s = .next (s.withOperand x v) := by
  rw [load, performAll_limbs hx hbuild.2 hp hr v le_rfl, loaded_all (big_operand_lt hs hx) hv]

end

/-- Settles O56: the writes put the limbs of the value in place from the lowest up. -/
theorem loadSetsOperand : Obligations.LoadSetsOperand := fun _ _ hbuild hs hp hr hv =>
  ⟨performAll_load (x := .op0) rfl hbuild hs hp hr hv, performAll_load (x := .op1) rfl hbuild hs hp hr hv,
    performAll_load (x := .op2) rfl hbuild hs hp hr hv⟩

/-! ### What a host may rely on is kept (R244) -/

section

variable {s t : State} {e : Event}

theorem perform_limbs (h : perform e s = .next t) : t.limbs = s.limbs := by
  obtain ⟨u, hu, rfl⟩ := perform_next h
  rw [holdInReset_limbs]
  exact (act_effect hu).limbs

theorem usable_released (hs : Usable s) : s.env.rstAsserted = false := by
  obtain ⟨-, -, hr⟩ := hs
  exact hr

theorem usable_perform (hs : Usable s) (he : ∀ b, e ≠ .rst b) (h : perform e s = .next t) : Usable t := by
  obtain ⟨hc, hsound, hr⟩ := hs
  refine ⟨coherent_perform hc h, sound_perform hc hsound h, ?_⟩
  obtain ⟨u, hu, rfl⟩ := perform_next h
  rcases act_next_rst hu with ⟨b, he', -⟩ | hsame
  · exact absurd he' (he b)
  · rw [holdInReset_released (hsame.trans hr)]
    exact hsame.trans hr

theorem usable_performAll {es : List Event} (hs : Usable s) (hes : ∀ e ∈ es, ∀ b, e ≠ .rst b)
    (h : performAll es s = .next t) : Usable t := by
  induction es generalizing s with
  | nil => cases h; exact hs
  | cons e es ih =>
    cases hu : perform e s with
    | next u =>
      obtain ⟨he, hes⟩ := List.forall_mem_cons.1 hes
      exact ih (usable_perform hs he hu) hes ((performAll_cons hu).symm.trans h)
    | fault r => rw [performAll, hu] at h; cases h
    | refused r => rw [performAll, hu] at h; cases h

/-- While no command is in progress the outside has no part in coherence, except for `rst`. -/
theorem usable_withEnv (hs : Usable s) (hp : s.status.phase ≠ .busy) {env : Env} (hr : env.rstAsserted = false) :
    Usable { s with env := env } := by
  obtain ⟨hc, ⟨hbuild, hfits, hwork⟩, -⟩ := hs
  obtain ⟨hflags, hbusy, hfault, hrv, hmatches, hrequest⟩ := (coherent_iff.1 hc).1
  have hidle : s.status.busy = false := by
    rw [Ne, phase_busy_iff, Bool.not_eq_true] at hp
    exact hp
  have hnone : s.work = none := by simpa [hidle] using hbusy
  have hrequest : s.request = none := request_eq_none hrequest (by simp [hnone])
  exact ⟨coherent_iff.2 ⟨⟨hflags, hbusy, hfault, hrv, hmatches, requestMatches_of_none hrequest⟩,
    fun hasserted => absurd (hr.symm.trans hasserted) (by decide)⟩, ⟨hbuild, hfits, hwork⟩, hr⟩

/-- Where a command is done the block is idle, with valid results (R33, R40). -/
theorem usable_done (hs : Usable s) (hb : s.status.busy = false) (hf : s.status.fault = false) :
    s.status.phase = .idle ∧ s.rv = .valid := by
  obtain ⟨hc, -⟩ := hs
  have hp : s.status.phase = .idle := (phase_idle_iff _).2 ⟨hb, hf⟩
  have hrv := (coherent_iff.1 hc).1.rv
  exact ⟨hp, by simpa [hp] using hrv⟩

theorem usable_resetBlock (hs : Usable s) : Usable (resetBlock s) := by
  obtain ⟨-, ⟨hbuild, -⟩, hr⟩ := hs
  exact ⟨coherent_iff.2 ⟨agreeing_resetBlock s, fun _ => rfl⟩, sound_resetBlock hbuild, hr⟩

theorem perform_softReset (hr : s.env.rstAsserted = false) : perform softReset s = .next (resetBlock s) := by
  have hact : act softReset s = .next (resetBlock s) := by
    rw [show act softReset s = hostWrite 0x008 0x80000000 s from rfl, hostWrite_ctrl, writeCtrl, if_pos (by decide)]
  exact perform_released hact hr

theorem hostDoes_of_performAll {es : List Event} (h : performAll es s = .next t) : hostDoes es s = (.ok (), t) := by
  rw [hostDoes, h]

theorem hostDoes_one (h : perform e s = .next t) : hostDoes [e] s = (.ok (), t) :=
  hostDoes_of_performAll ((performAll_cons h).trans (performAll_nil t))

end

/-! ### The steps of a transaction (R244) -/

section

variable {s : State}

/-- Step 1, when one move ends the older command, if there is one. -/
theorem makeReady_prompt (hs : Usable s) (hrun : ∃ u, perform .run s = .next u ∧ u.status.phase ≠ .busy) :
    ∃ t, makeReady .prompt s = (.ok (), t) ∧ Usable t ∧ t.status.phase = .idle ∧ t.limbs = s.limbs := by
  obtain ⟨u, hu, hp⟩ := hrun
  have husable : Usable u := usable_perform hs (by simp) hu
  have hb : u.status.busy = false := by
    rw [Ne, phase_busy_iff, Bool.not_eq_true] at hp
    exact hp
  have hlimbs : u.limbs = s.limbs := perform_limbs hu
  obtain ⟨env, hwait, hr⟩ :=
    wait_done (rest := []) ((performAll_cons hu).trans (performAll_nil u)) (usable_released husable) hb
  have hready : makeReady .prompt s =
      if u.status.word.getLsbD 2 then hostDoes [softReset] { u with env := env }
      else (.ok (), { u with env := env }) := by
    rw [makeReady, show Manner.prompt.before = [[.run]] from rfl, hwait, andThen_ok]
  obtain ⟨-, -, hfault⟩ := status_word_bits u.status
  rw [hfault] at hready
  have husable' : Usable { u with env := env } := usable_withEnv husable hp hr
  cases hf : u.status.fault with
  | true =>
    rw [hf, if_pos rfl, hostDoes_one (perform_softReset hr)] at hready
    exact ⟨_, hready, usable_resetBlock husable', rfl, hlimbs⟩
  | false =>
    rw [hf, if_neg Bool.false_ne_true] at hready
    exact ⟨_, hready, husable', (phase_idle_iff _).2 ⟨hb, hf⟩, hlimbs⟩

/-- A block that is not `BUSY` is one such. -/
theorem run_not_busy (hs : Usable s) (hp : s.status.phase ≠ .busy) :
    ∃ u, perform .run s = .next u ∧ u.status.phase ≠ .busy :=
  ⟨s, perform_released (sequencerMove_of_not_busy hp) (usable_released hs), hp⟩

/-- One `LOAD` of step 2, with what follows it. -/
theorem performAll_load_append (hs : Usable s) (hp : s.status.phase = .idle) {x : BigReg} (hx : x.isResult = false)
    {v : Nat} (hv : v < 2 ^ s.width) (es : List Event) :
    performAll (load s.limbs x v ++ es) s = performAll es (s.withOperand x v) ∧ Usable (s.withOperand x v) := by
  have hload : performAll (load s.limbs x v) s = .next (s.withOperand x v) := by
    obtain ⟨-, ⟨hbuild, hfits, -⟩, hr⟩ := hs
    exact performAll_load hx hbuild hfits hp hr hv
  refine ⟨performAll_append hload, usable_performAll hs ?_ hload⟩
  rintro e he b rfl
  obtain ⟨k, -, hk⟩ := List.mem_map.1 he
  cases hk

/-- Step 2, for two operands. -/
theorem performAll_loadAll_two (hs : Usable s) (hp : s.status.phase = .idle) {a b : Nat} (ha : a < 2 ^ s.width)
    (hb : b < 2 ^ s.width) :
    performAll (loadAll s.limbs [a, b]) s = .next { s with op0 := a, op1 := b } ∧
      Usable { s with op0 := a, op1 := b } := by
  obtain ⟨h0, hs0⟩ := performAll_load_append hs hp (x := .op0) rfl ha (load s.limbs .op1 b ++ [])
  obtain ⟨h1, hs1⟩ := performAll_load_append (s := s.withOperand .op0 a) hs0 hp (x := .op1) rfl hb []
  exact ⟨h0.trans h1, hs1⟩

/-- Step 2, for three. -/
theorem performAll_loadAll_three (hs : Usable s) (hp : s.status.phase = .idle) {a b c : Nat} (ha : a < 2 ^ s.width)
    (hb : b < 2 ^ s.width) (hc : c < 2 ^ s.width) :
    performAll (loadAll s.limbs [a, b, c]) s = .next { s with op0 := a, op1 := b, op2 := c } ∧
      Usable { s with op0 := a, op1 := b, op2 := c } := by
  obtain ⟨h0, hs0⟩ :=
    performAll_load_append hs hp (x := .op0) rfl ha (load s.limbs .op1 b ++ (load s.limbs .op2 c ++ []))
  obtain ⟨h1, hs1⟩ := performAll_load_append (s := s.withOperand .op0 a) hs0 hp (x := .op1) rfl hb
    (load s.limbs .op2 c ++ [])
  obtain ⟨h2, hs2⟩ :=
    performAll_load_append (s := (s.withOperand .op0 a).withOperand .op1 b) hs1 hp (x := .op2) rfl hc []
  exact ⟨h0.trans (h1.trans h2), hs2⟩

/-- Step 3 accepts the command, with no request outstanding. -/
theorem justAccepted_accept (hs : Usable s) (hp : s.status.phase = .idle) (w : Word) : JustAccepted (accept w s) := by
  obtain ⟨hc, -⟩ := hs
  obtain ⟨-, -, hrequest, -⟩ := (coherent_iff.1 hc).1.of_idle hp
  exact ⟨rfl, hrequest⟩

/-- Steps 3 and 4, when one move ends the command. -/
theorem runCommand_prompt {i : Instr} {t : State} (hs : Usable s) (hp : s.status.phase = .idle)
    (hexec : exec i (accept (encode i) s) = .next t) (hb : t.status.busy = false) :
    ∃ env : Env, runCommand .prompt i s = (.ok t.status.word, { t with env := env }) ∧
      Usable { t with env := env } := by
  have haccept : perform (cmd i) s = .next (accept (encode i) s) := perform_wr_cmd (encode i) hp (usable_released hs)
  have hs' : Usable (accept (encode i) s) := usable_perform hs (by simp [cmd, wr]) haccept
  have hrun : perform .run (accept (encode i) s) = .next t :=
    (perform_run ((phase_busy_iff _).2 rfl) (decode_eq_ok_iff.2 rfl) (usable_released hs')).trans hexec
  have ht : Usable t := usable_perform hs' (by simp) hrun
  obtain ⟨env, hwait, hr⟩ :=
    wait_done (rest := []) ((performAll_cons hrun).trans (performAll_nil t)) (usable_released ht) hb
  have hp' : t.status.phase ≠ .busy := by simp [phase_busy_iff, hb]
  refine ⟨env, ?_, usable_withEnv ht hp' hr⟩
  rw [runCommand, hostDoes_one haccept, andThen_ok]
  exact hwait

/-- After a fault the host reads the cause and resets the block (R244, step 5). -/
theorem conclude_fault {m : Manner} (hr : s.env.rstAsserted = false) (hf : s.status.fault = true) :
    ∃ env : Env, conclude m s.status.word s = (.error (.blockFault s.err.word), resetBlock { s with env := env }) := by
  obtain ⟨env, hread, hr'⟩ := readWord_released (off := 0x018) (s := s) (by decide) hr
  obtain ⟨-, -, hfault⟩ := status_word_bits s.status
  refine ⟨env, ?_⟩
  rw [conclude, hfault, hf, if_pos rfl, hread, andThen_ok, hostDoes_one (perform_softReset hr'), andThen_ok]
  rfl

/-- A transaction whose operands fit, once the block is ready and the operands are loaded. -/
theorem call_prompt {i : Instr} {xs : List Nat} {t u v : State} (hfit : ∀ x ∈ xs, x < 2 ^ s.width)
    (hready : makeReady .prompt s = (.ok (), t)) (hload : performAll (loadAll t.limbs xs) t = .next u) (hu : Usable u)
    (hp : u.status.phase = .idle) (hexec : exec i (accept (encode i) u) = .next v) (hb : v.status.busy = false) :
    (v.status.fault = false → ∃ env : Env,
      call .prompt i xs s = (.ok v.rtag.word, { v with env := env }) ∧ Usable { v with env := env }) ∧
    (v.status.fault = true → ∃ env : Env,
      call .prompt i xs s = (.error (.blockFault v.err.word), resetBlock { v with env := env })) := by
  have hsmall : ¬ xs.any (fun x => decide (2 ^ s.width ≤ x)) = true := by simpa using hfit
  obtain ⟨env, hrun, hv⟩ := runCommand_prompt hu hp hexec hb
  have hcall : call .prompt i xs s = conclude .prompt v.status.word { v with env := env } := by
    rw [call, if_neg hsmall, hready, andThen_ok, hostDoes_of_performAll hload, andThen_ok, hrun, andThen_ok]
  refine ⟨fun hf => ?_, fun hf => ?_⟩
  · obtain ⟨hidle, hrv⟩ := usable_done hv hb hf
    obtain ⟨env', hconclude, hr'⟩ := conclude_done (m := .prompt) (usable_released hv) rfl hf hrv
    exact ⟨env', hcall.trans hconclude, usable_withEnv hv (by simp [hidle]) hr'⟩
  · obtain ⟨env', hconclude⟩ := conclude_fault (m := .prompt) (usable_released hv) hf
    exact ⟨env', hcall.trans hconclude⟩

/-- In a sound block with valid results a fetch of `RES0` gives its value (R95). -/
theorem fetch_res0 (hs : Usable s) (hrv : s.rv = .valid) : fetch .res0 s = s.res0 := by
  obtain ⟨-, ⟨⟨-, hl⟩, ⟨-, -, -, h0, -⟩, -⟩, -⟩ := hs
  rw [fetch_valid .res0 hl hrv, sum_limbOf]
  exact Nat.mod_eq_of_lt h0

end

theorem tag_pos_word : Tag.pos.word = 0x00000001 := rfl

theorem cause_modulusZero_word : Cause.modulusZero.word = 0x00000002 := rfl

/-- Settles O57: the three operands are loaded into a ready block, on which the command computes the power, or faults. -/
theorem modexpTransaction : Obligations.ModexpTransaction := by
  intro s b e m hs hrun hb he hm
  obtain ⟨t, hready, ht, hp, hlimbs⟩ := makeReady_prompt hs hrun
  have hwidth : t.width = s.width := congrArg (32 * ·) hlimbs
  obtain ⟨hload, hu⟩ := performAll_loadAll_three ht hp (hwidth ▸ hb) (hwidth ▸ he) (hwidth ▸ hm)
  have hfit : ∀ x ∈ [b, e, m], x < 2 ^ s.width := by simp [hb, he, hm]
  obtain ⟨-, hf⟩ := (phase_idle_iff _).1 hp
  obtain ⟨hzero, hpower⟩ := modexpComputesPower _ (justAccepted_accept hu hp (encode .modexp))
  refine ⟨fun hm0 => ?_, fun hm0 => ?_⟩
  · obtain ⟨hdone, -⟩ := call_prompt hfit hready hload hu hp (hpower hm0.ne') rfl
    obtain ⟨env, hcall, hw⟩ := hdone hf
    rw [complete_rtag, tag_pos_word] at hcall
    exact ⟨_, hcall, hw, (phase_idle_iff _).2 ⟨rfl, hf⟩, hlimbs, fetch_res0 hw rfl⟩
  · obtain ⟨-, hfaulted⟩ := call_prompt hfit hready hload hu hp (hzero hm0) rfl
    obtain ⟨env, hcall⟩ := hfaulted rfl
    rw [raiseFault_err, cause_modulusZero_word] at hcall
    exact ⟨_, hcall, rfl, hlimbs⟩

end Sys2Proof.Machine


/-! # RSA over the block (rules R190 to R199) -/

namespace Sys2Proof.Machine

open Sys2Proof.Safety

/-! ### The round trip of textbook RSA (R199) -/

/-- Fermat, for every residue: with an exponent that is 1 modulo `p - 1` and not 0 the power is the number again. -/
theorem pow_modEq_self {p k : Nat} (hp : p.Prime) (hk : k ≠ 0) (h : k ≡ 1 [MOD p - 1]) (m : Nat) :
    m ^ k ≡ m [MOD p] := by
  have : Fact p.Prime := ⟨hp⟩
  obtain ⟨j, hj⟩ : p - 1 ∣ k - 1 := (Nat.modEq_iff_dvd' (Nat.pos_of_ne_zero hk)).1 h.symm
  rw [← ZMod.natCast_eq_natCast_iff, Nat.cast_pow, show k = (p - 1) * j + 1 by omega, pow_succ, pow_mul]
  by_cases hm : (m : ZMod p) = 0
  · rw [hm, mul_zero]
  · rw [ZMod.pow_card_sub_one_eq_one hm, one_pow, one_mul]

/-- Two distinct primes are not both 2, so an exponent that is 1 modulo `(p-1)(q-1)` is not 0. -/
theorem ne_zero_of_modEq_one {p q k : Nat} (hp : p.Prime) (hq : q.Prime) (hpq : p ≠ q)
    (h : k ≡ 1 [MOD (p - 1) * (q - 1)]) : k ≠ 0 := by
  rintro rfl
  have hone : (p - 1) * (q - 1) = 1 := Nat.dvd_one.1 ((Nat.modEq_zero_iff_dvd).1 h.symm)
  have hp1 : p - 1 = 1 := Nat.dvd_one.1 (Dvd.intro _ hone)
  have hq1 : q - 1 = 1 := Nat.dvd_one.1 (Dvd.intro_left _ hone)
  have := hp.two_le
  have := hq.two_le
  omega

theorem rsa_pow_pow {p q e d m : Nat} (hp : p.Prime) (hq : q.Prime) (hpq : p ≠ q)
    (hed : d * e % ((p - 1) * (q - 1)) = 1 % ((p - 1) * (q - 1))) (hm : m < p * q) :
    (m ^ e % (p * q)) ^ d % (p * q) = m := by
  have h : d * e ≡ 1 [MOD (p - 1) * (q - 1)] := hed
  have hk := ne_zero_of_modEq_one hp hq hpq h
  have hmod : m ^ (d * e) ≡ m [MOD p * q] :=
    (Nat.modEq_and_modEq_iff_modEq_mul ((Nat.coprime_primes hp hq).2 hpq)).1
      ⟨pow_modEq_self hp hk (h.of_mul_right _) m, pow_modEq_self hq hk (h.of_mul_left _) m⟩
  calc (m ^ e % (p * q)) ^ d % (p * q) = m ^ (d * e) % (p * q) := by rw [← Nat.pow_mod, ← pow_mul, mul_comm]
    _ = m := Nat.mod_eq_of_modEq hmod hm

/-! ### The transactions of RSA -/

section

variable {s : State}

/-- The `MODEXP` of a block that is not `BUSY` (R244). -/
theorem modexp_call (hs : Usable s) (hp : s.status.phase ≠ .busy) {b e m : Nat} (hb : b < 2 ^ s.width)
    (he : e < 2 ^ s.width) (hm : m < 2 ^ s.width) (hm0 : 0 < m) :
    ∃ t, call .prompt .modexp [b, e, m] s = (.ok 0x00000001, t) ∧ Usable t ∧ t.status.phase = .idle ∧
      t.limbs = s.limbs ∧ fetch .res0 t = b ^ e % m :=
  (modexpTransaction s b e m hs (run_not_busy hs hp) hb he hm).1 hm0

/-- The `INVMOD` of a block that is not `BUSY` (R178, R244). -/
theorem invmod_call (hs : Usable s) (hp : s.status.phase ≠ .busy) {a n : Nat} (ha : a < 2 ^ s.width)
    (hn : n < 2 ^ s.width) (hn0 : n ≠ 0) :
    (Nat.gcd a n = 1 → ∃ t, call .prompt .invmod [a, n] s = (.ok Tag.pos.word, t) ∧ Usable t ∧
      fetch .res0 t < n ∧ a * fetch .res0 t ≡ 1 [MOD n]) ∧
    (Nat.gcd a n ≠ 1 → ∃ t, call .prompt .invmod [a, n] s = (.ok Tag.neg.word, t)) := by
  obtain ⟨t, hready, ht, hidle, hlimbs⟩ := makeReady_prompt hs (run_not_busy hs hp)
  have hwidth : t.width = s.width := congrArg (32 * ·) hlimbs
  obtain ⟨hload, hu⟩ := performAll_loadAll_two ht hidle (hwidth ▸ ha) (hwidth ▸ hn)
  have hfit : ∀ x ∈ [a, n], x < 2 ^ s.width := by simp [ha, hn]
  obtain ⟨-, hf⟩ := (phase_idle_iff _).1 hidle
  obtain ⟨-, hnone, hsome⟩ := invmodDeliversInverse _ (justAccepted_accept hu hidle (encode .invmod))
  refine ⟨fun hgcd => ?_, fun hgcd => ?_⟩
  · obtain ⟨x, hx, hax, -, hexec⟩ := hsome hn0 hgcd
    obtain ⟨hdone, -⟩ := call_prompt hfit hready hload hu hidle hexec rfl
    obtain ⟨env, hcall, hw⟩ := hdone hf
    have hfetch := fetch_res0 hw rfl
    exact ⟨_, hcall, hw, hfetch.trans_lt hx, hfetch.symm ▸ hax⟩
  · obtain ⟨hdone, -⟩ := call_prompt hfit hready hload hu hidle (hnone hn0 hgcd) rfl
    obtain ⟨env, hcall, -⟩ := hdone hf
    exact ⟨_, hcall⟩

theorem fetchRead_usable (hs : Usable s) (x : BigReg) :
    ∃ env : Env, fetchRead x s = (.ok (fetch x s), { s with env := env }) ∧ env.rstAsserted = false := by
  obtain ⟨-, ⟨⟨-, hl⟩, -⟩, hr⟩ := hs
  exact fetchRead_released hl hr

end

/-- Settles O59: the second power undoes the first, by Fermat modulo each of the two primes. -/
theorem rsaRoundTrip : Obligations.RsaRoundTrip := by
  intro s m e d p q hs hp hprime hqprime hpq hn he hd hed hm
  have hn0 : 0 < p * q := Nat.mul_pos hprime.pos hqprime.pos
  obtain ⟨t, hcall, ht, hidle, hlimbs, hfetch⟩ := modexp_call hs hp (hm.trans hn) he hn hn0
  have hwidth : s.width = t.width := congrArg (32 * ·) hlimbs.symm
  have hc : fetch .res0 t < 2 ^ s.width := (hfetch.trans_lt (Nat.mod_lt _ hn0)).trans hn
  rw [hwidth] at hc hd hn
  obtain ⟨u, hcall', -, -, -, hfetch'⟩ := modexp_call ht (by simp [hidle]) hc hd hn hn0
  exact ⟨t, u, hcall, hcall', by rw [hfetch', hfetch, rsa_pow_pow hprime hqprime hpq hed hm]⟩

/-! ### Key generation (R191 to R195) -/

/-- A successful search gives a candidate: odd, of at most so many bits. -/
theorem searchPrime_ok {h : HostChoices} (hg : ∀ b c, h.outgrown b c = none) {bitLength : Nat} {t : State} {p : Nat} :
    ∀ {manners : List Manner} {c : Nat} {s : State}, c % 2 = 1 → c < 2 ^ bitLength →
    searchPrime h bitLength manners c s = (.ok p, t) → p % 2 = 1 ∧ p < 2 ^ bitLength
  | [], c, s, _, _, hsearch => by cases hsearch
  | m :: manners, c, s, hodd, hlt, hsearch => by
    obtain ⟨tag, u, -, hrest⟩ := andThen_eq_ok hsearch
    split at hrest
    · cases hrest
      exact ⟨hodd, hlt⟩
    · cases hnext : h.nextCandidate bitLength c with
      | none => rw [hnext] at hrest; cases hrest
      | some c' =>
        rw [hnext] at hrest
        obtain ⟨rfl, hlt'⟩ := nextCandidate_of_giveUp hg hnext
        exact searchPrime_ok hg (by omega) hlt' hrest

/-- The first candidate is a sample made odd, which takes no further bit (R192). -/
theorem bigPrime_ok {h : HostChoices} (hg : ∀ b c, h.outgrown b c = none) {bitLength : Nat} (hb : 1 ≤ bitLength)
    {a : PrimeAttempt} {p : Nat} {s t : State} (hprime : bigPrime h bitLength a s = (.ok p, t)) :
    p % 2 = 1 ∧ p < 2 ^ bitLength := by
  unfold bigPrime at hprime
  split at hprime
  · rename_i hsample
    have hlt : a.sample < 2 ^ bitLength := by
      obtain ⟨hlt, -⟩ := (Bool.and_eq_true _ _).mp hsample
      exact of_decide_eq_true hlt
    have heven : 2 ^ bitLength % 2 = 0 := Nat.mod_eq_zero_of_dvd (dvd_pow_self 2 (by omega))
    refine searchPrime_ok hg ?_ ?_ hprime <;> simp only [isEven, beq_iff_eq] <;> split <;> omega
  · cases hprime

theorem rem_of_pos (h : HostChoices) (p : Nat) {e : Nat} (he : 0 < e) : h.rem p e = p % e := dif_neg he.ne'

/-- The filter of R193 lets only such primes through. -/
theorem rsaPrime_ok {h : HostChoices} (hg : ∀ b c, h.outgrown b c = none) {bitLength : Nat} (hb : 1 ≤ bitLength)
    {e : Nat} {p : Nat × List PrimeAttempt} {t : State} : ∀ {attempts : List PrimeAttempt} {s : State},
    rsaPrime h bitLength e attempts s = (.ok p, t) → p.1 % 2 = 1 ∧ p.1 < 2 ^ bitLength ∧ (0 < e → p.1 % e ≠ 1)
  | [], s, hprime => by cases hprime
  | a :: attempts, s, hprime => by
    obtain ⟨c, u, hc, hrest⟩ := andThen_eq_ok hprime
    split at hrest
    · exact rsaPrime_ok hg hb hrest
    · rename_i hrem
      cases hrest
      obtain ⟨hodd, hlt⟩ := bigPrime_ok hg hb hc
      exact ⟨hodd, hlt, fun he => rem_of_pos h c he ▸ hrem⟩

/-- Both keys carry the product of the primes, whatever the block delivers. -/
theorem keysOfPrimes_ok {m : Manner} {keySize e p q : Nat} {s t : State} {pub : PublicKey} {priv : PrivateKey}
    (h : keysOfPrimes m keySize e p q s = (.ok (pub, priv), t)) : pub = ⟨e, p * q, keySize⟩ ∧ priv.n = p * q := by
  obtain ⟨tag, u, -, h⟩ := andThen_eq_ok h
  split at h
  · cases h
  · obtain ⟨d, v, -, h⟩ := andThen_eq_ok h
    cases h
    exact ⟨rfl, rfl⟩

/-- Settles O58: the inverse is the block's, and the search keeps its candidates odd and within their bits. -/
theorem keyGenerationInverse : Obligations.KeyGenerationInverse := by
  refine ⟨fun s keySize e p q hs hp hprime hqprime he hn => ?_,
    fun h attempts m keySize e s t pub priv hg hsize hkeys => ?_⟩
  · have hn0 : (p - 1) * (q - 1) ≠ 0 :=
      (Nat.mul_pos (Nat.sub_pos_of_lt hprime.one_lt) (Nat.sub_pos_of_lt hqprime.one_lt)).ne'
    obtain ⟨hsome, hnone⟩ := invmod_call hs hp he hn hn0
    refine ⟨fun hgcd => ?_, fun hgcd => ?_⟩
    · obtain ⟨t, hcall, ht, hlt, hinverse⟩ := hsome hgcd
      obtain ⟨env, hfetch, -⟩ := fetchRead_usable ht .res0
      refine ⟨fetch .res0 t, { t with env := env }, ?_, hlt, by rwa [mul_comm]⟩
      rw [keysOfPrimes, hcall, andThen_ok, if_neg (by decide), hfetch, andThen_ok]
    · obtain ⟨t, hcall⟩ := hnone hgcd
      exact ⟨t, by rw [keysOfPrimes, hcall, andThen_ok, if_pos rfl]⟩
  · obtain ⟨hlo, hhi⟩ := h.half_rounds keySize
    obtain ⟨p, u, hpsearch, hkeys⟩ := andThen_eq_ok hkeys
    obtain ⟨q, v, hqsearch, hkeys⟩ := andThen_eq_ok hkeys
    obtain ⟨hpodd, hplt, hprem⟩ := rsaPrime_ok hg (by omega) hpsearch
    obtain ⟨hqodd, hqlt, hqrem⟩ := rsaPrime_ok hg (by omega) hqsearch
    obtain ⟨rfl, hpriv⟩ := keysOfPrimes_ok hkeys
    refine ⟨p.1, q.1, rfl, hpriv, hpodd, hqodd, hplt, hqlt, fun he => ⟨hprem he, hqrem he⟩, fun heven => ?_⟩
    calc p.1 * q.1 < 2 ^ h.half keySize * 2 ^ h.half keySize := Nat.mul_lt_mul'' hplt hqlt
      _ = 2 ^ keySize := by rw [← pow_add]; congr 1; omega

/-! ### Byte strings (R196, R197) -/

theorem natOfBytes_append_singleton (bytes : List Byte) (b : Byte) :
    natOfBytes (bytes ++ [b]) = natOfBytes bytes * 256 + b.toNat := by rw [natOfBytes, List.foldl_append]; rfl

/-- A byte string that does not start with 0 is not the number 0. -/
theorem natOfBytes_pos {bytes : List Byte} (hne : bytes ≠ []) (hhead : bytes.head? ≠ some 0) :
    0 < natOfBytes bytes := by
  induction bytes using List.reverseRecOn with
  | nil => exact absurd rfl hne
  | append_singleton bytes b ih =>
    rw [natOfBytes_append_singleton]
    cases bytes with
    | nil =>
      have hb : b.toNat ≠ 0 := fun hb => hhead (congrArg some (BitVec.eq_of_toNat_eq hb))
      omega
    | cons c bytes =>
      have := ih (by simp) (by simpa using hhead)
      omega

/-- The bytes of a number are its digits in base 256. -/
theorem natOfBytes_reverse_bytesLe : ∀ {fuel v : Nat}, v ≤ fuel → natOfBytes (bytesLe fuel v).reverse = v
  | 0, v, hv => (Nat.le_zero.1 hv).symm
  | fuel + 1, v, hv => by
    by_cases h0 : v = 0
    · rw [bytesLe, if_pos h0, h0]; rfl
    · rw [bytesLe, if_neg h0, List.reverse_cons, natOfBytes_append_singleton,
        natOfBytes_reverse_bytesLe (by omega), BitVec.toNat_ofNat]
      omega

/-- Without a leading zero byte the digits are the string again. -/
theorem bytesLe_natOfBytes {bytes : List Byte} (hhead : bytes.head? ≠ some 0) {fuel : Nat}
    (hfuel : natOfBytes bytes ≤ fuel) : bytesLe fuel (natOfBytes bytes) = bytes.reverse := by
  induction bytes using List.reverseRecOn generalizing fuel with
  | nil => cases fuel <;> rfl
  | append_singleton bytes b ih =>
    have hpos := natOfBytes_pos (by simp) hhead
    obtain ⟨fuel, rfl⟩ : ∃ n, fuel = n + 1 := ⟨fuel - 1, by omega⟩
    have hinit : bytes.head? ≠ some 0 := by
      cases bytes with
      | nil => simp
      | cons c bytes => simpa using hhead
    have hlow : BitVec.ofNat 8 (natOfBytes (bytes ++ [b])) = b := by
      apply BitVec.eq_of_toNat_eq
      have := b.isLt
      rw [BitVec.toNat_ofNat, natOfBytes_append_singleton]
      omega
    have hhigh : natOfBytes (bytes ++ [b]) / 256 = natOfBytes bytes := by
      have := b.isLt
      rw [natOfBytes_append_singleton]
      omega
    rw [bytesLe, if_neg hpos.ne', hlow, hhigh, ih hinit (by omega), List.reverse_append]
    rfl

theorem natOfBytes_bytesBe (h : HostChoices) (v : Nat) : natOfBytes (bytesBe h v) = v := by
  rw [bytesBe]
  split
  · rename_i h0
    rw [h0]
    exact h.zeroBytes_value
  · exact natOfBytes_reverse_bytesLe le_rfl

theorem bytesBe_natOfBytes (h : HostChoices) {bytes : List Byte} (hne : bytes ≠ []) (hhead : bytes.head? ≠ some 0) :
    bytesBe h (natOfBytes bytes) = bytes := by
  rw [bytesBe, if_neg (natOfBytes_pos hne hhead).ne', bytesLe_natOfBytes hhead le_rfl, List.reverse_reverse]

/-! ### Encrypting and decrypting (R196, R197, R199) -/

theorem encrypt_of_long {h : HostChoices} {key : PublicKey} {text : String}
    (hlong : h.eighth key.keySize ≤ (h.bytesOfText text).length) (m : Manner) (s : State) :
    encrypt h m key text s = (.error .messageTooLong, s) := if_pos (not_lt.2 hlong)

/-- The ciphertext is the form of the power, and decrypting it from where encrypting ended gives the text. -/
theorem decrypt_encrypt (h : HostChoices) {s : State} {text : String} {keySize e d p q : Nat} (hs : Usable s)
    (hp : s.status.phase ≠ .busy) (hprime : p.Prime) (hqprime : q.Prime) (hpq : p ≠ q) (hn : p * q < 2 ^ s.width)
    (he : e < 2 ^ s.width) (hd : d < 2 ^ s.width) (hed : d * e % ((p - 1) * (q - 1)) = 1 % ((p - 1) * (q - 1)))
    (hshort : (h.bytesOfText text).length < h.eighth keySize) (hm : natOfBytes (h.bytesOfText text) < p * q)
    (hne : h.bytesOfText text ≠ []) (hhead : (h.bytesOfText text).head? ≠ some 0) :
    ∃ t u, encrypt h .prompt ⟨e, p * q, keySize⟩ text s =
        (.ok (h.hexOfBytes (bytesBe h (natOfBytes (h.bytesOfText text) ^ e % (p * q)))), t) ∧
      decrypt h .prompt ⟨d, p * q⟩ (h.hexOfBytes (bytesBe h (natOfBytes (h.bytesOfText text) ^ e % (p * q)))) t =
        (.ok text, u) := by
  have hn0 : 0 < p * q := Nat.mul_pos hprime.pos hqprime.pos
  obtain ⟨t, hcall, ht, hidle, hlimbs, hfetch⟩ := modexp_call hs hp (hm.trans hn) he hn hn0
  obtain ⟨env, hread, hr⟩ := fetchRead_usable ht .res0
  have ht' : Usable { t with env := env } := usable_withEnv ht (by simp [hidle]) hr
  have hwidth : s.width = State.width { t with env := env } := congrArg (32 * ·) hlimbs.symm
  have hc : natOfBytes (h.bytesOfText text) ^ e % (p * q) < 2 ^ s.width := (Nat.mod_lt _ hn0).trans hn
  rw [hwidth] at hc hd hn
  obtain ⟨u, hcall', hu, -, -, hfetch'⟩ := modexp_call ht' (by simp [hidle]) hc hd hn hn0
  obtain ⟨env', hread', -⟩ := fetchRead_usable hu .res0
  rw [rsa_pow_pow hprime hqprime hpq hed hm] at hfetch'
  refine ⟨{ t with env := env }, { u with env := env' }, ?_, ?_⟩
  · rw [encrypt, encryptBytes, if_neg (not_not.2 hshort), hcall, andThen_ok, hread, andThen_ok, hfetch]
  · simp only [decrypt, h.parseHex_hexOfBytes, natOfBytes_bytesBe, hcall', andThen_ok, hread', hfetch',
      bytesBe_natOfBytes h hne hhead, h.textOfBytes_bytesOfText]

/-- Settles O60: the bytes of a text without a leading zero are those of its number, which the two powers give back. -/
theorem decryptUndoesEncrypt : Obligations.DecryptUndoesEncrypt := by
  refine ⟨fun h s text keySize e d p q hs hp hprime hqprime hpq hn he hd hed hshort hm hne hhead => ?_,
    fun h m key text s hlong => ?_, fun h s d p q hs hp hprime hqprime hpq hm hn hd hed htext => ?_⟩
  · obtain ⟨t, u, hencrypt, hdecrypt⟩ :=
      decrypt_encrypt h hs hp hprime hqprime hpq hn he hd hed hshort hm hne hhead
    exact ⟨_, t, u, hencrypt, hdecrypt⟩
  · refine encrypt_of_long ?_ m s
    rcases hlong with hlong | ⟨hsize, hlong⟩
    · exact hlong
    · obtain ⟨-, hhi⟩ := h.eighth_rounds 1024
      rw [hsize]
      omega
  · obtain ⟨hlo, -⟩ := h.eighth_rounds 1024
    have hvalue : natOfBytes (h.bytesOfText "hello") = 0x68656C6C6F := by rw [htext]; rfl
    have hshort : (h.bytesOfText "hello").length < h.eighth 1024 := by
      rw [htext]
      exact Nat.lt_of_lt_of_le (by decide) hlo
    rw [← hvalue] at hm ⊢
    exact decrypt_encrypt h hs hp hprime hqprime hpq hn (Nat.lt_trans (by omega) hn) hd hed hshort hm
      (by simp [htext]) (by simp [htext])

end Sys2Proof.Machine
